-- ==== Sys2Proof/Word.lean ====
section
/-! DEFINITION. The word types of the ATA bus engine: bytes, 16-bit bus words, the 12-byte command descriptor block. -/

namespace Sys2Proof

/-- A byte: a task-file value, a CDB byte, a byte of a caller-owned memory. -/
abbrev Byte := BitVec 8

/-- A bus word: "every bus access moves exactly 16 bits" (R73). -/
abbrev BusWord := BitVec 16

/-- Bytes 1 to 11 of a command descriptor block; the engine interprets none of them (R115). -/
structure CdbBody where
  b1 : Byte
  b2 : Byte
  b3 : Byte
  b4 : Byte
  b5 : Byte
  b6 : Byte
  b7 : Byte
  b8 : Byte
  b9 : Byte
  b10 : Byte
  b11 : Byte
  deriving DecidableEq, Repr

/-- The "fixed 12-byte SCSI command descriptor block" of an ATAPI packet (R100, R115): byte 0, the SCSI operation
code, and the eleven bytes after it. -/
structure Cdb where
  op : Byte
  body : CdbBody
  deriving DecidableEq, Repr

/-- The all-zero tail of a CDB. -/
def CdbBody.zero : CdbBody := ⟨0, 0, 0, 0, 0, 0, 0, 0, 0, 0, 0⟩

/-- The all-zero CDB (TEST_UNIT_READY, or the side operand of an operation that has none). -/
def Cdb.zero : Cdb := ⟨0, CdbBody.zero⟩

end Sys2Proof
end

