-- ==== Sys2Proof/Config.lean ====
section
/-! DEFINITION. What an implementation of the engine fixes: the parameters of R8, the tables the spec asks a model to keep in
one place (register addresses R71, status bits R110, command bytes R114, feature flags G9) and the two free values, the
device oracle (R90) and the sector count of media that are not ATA (U16). -/

namespace Sys2Proof

/-- The words of the identify array that carry feature flags (R305): 82, 83, 84 and 119. -/
inductive FeatureWord where
  | w82
  | w83
  | w84
  | w119
  deriving DecidableEq, Repr

namespace Config

/-- One entry of the parameter `FLAG_TABLE` (R8, R305): a name, a word and a bit. -/
structure Flag where
  name : String
  word : FeatureWord
  bit : BitVec 4
  deriving DecidableEq, Repr

/-- The parameters of R8 that the spec leaves OPEN or calls easily changed. "A parameter is fixed for the life of a model
instance; it is not state": they travel with the state, so that a statement about every state is a statement about every
value of them, and no step writes them. -/
structure Params where
  /-- `F_SYS_HZ`, the system clock frequency in hertz (R8, OPEN). -/
  fSysHz : Nat
  /-- `FIFO_DEPTH`, entries in each lane FIFO, at least 1 (R8, R33, OPEN). -/
  fifoDepth : Nat
  /-- `POLL_LIMIT`, the bound on the polls of one polling loop; `none` is the source's unbounded design (R8, R202, OPEN). -/
  pollLimit : Option Nat
  /-- `T_RST_LOW_NS` (R8, R204, OPEN). -/
  tRstLowNs : Nat
  /-- `T_RST_SETTLE_NS` (R8, R204, OPEN). -/
  tRstSettleNs : Nat
  /-- `DEV_FIXED`, bits 7 and 5 of every Device register byte; only bits of mask 0xA0 are used (R8, R111). -/
  devFixed : Byte
  /-- `FLAG_TABLE`, the named feature flags (R8, R305, OPEN). -/
  flagTable : List Flag
  deriving DecidableEq, Repr

/-- `IPL`, lane micro-instructions per bus word (R8, D4). -/
def ipl : Nat := 4

/-- `DIV_MAX`, the largest legal divisor (R8, R142). -/
def divMax : Nat := 65535

/-- `SECTOR_WORDS`, words per sector (R8). -/
def sectorWords : Nat := 256

/-- `ID_WORDS`, words of the identify response (R8). -/
def idWords : Nat := 256

/-- The mask of the Device register bits that `DEV_FIXED` fills (R8, R111). -/
def devFixedMask : Byte := 0xA0#8

/-! ### Task-file register address codes (R71, R108): group in bit 3, offset in bits 2:0 -/

/-- `DATA`, group 0 offset 0. -/
def raData : BitVec 4 := 0x0#4
/-- `ERROR` / `FEATURES`, group 0 offset 1. -/
def raError : BitVec 4 := 0x1#4
/-- `SECTOR_COUNT`, group 0 offset 2. -/
def raSectorCount : BitVec 4 := 0x2#4
/-- `LBA_LOW`, group 0 offset 3. -/
def raLbaLow : BitVec 4 := 0x3#4
/-- `LBA_MID`, group 0 offset 4. -/
def raLbaMid : BitVec 4 := 0x4#4
/-- `LBA_HIGH`, group 0 offset 5. -/
def raLbaHigh : BitVec 4 := 0x5#4
/-- `DEVICE`, group 0 offset 6. -/
def raDevice : BitVec 4 := 0x6#4
/-- `STATUS` / `COMMAND`, group 0 offset 7. -/
def raStatus : BitVec 4 := 0x7#4
/-- `ALT_STATUS`, group 1 offset 6. -/
def raAltStatus : BitVec 4 := 0xE#4

/-! ### ATA command bytes (R114, G3) -/

/-- DEVICE_RESET. -/
def cmdDeviceReset : Byte := 0x08#8
/-- READ_SECTOR. -/
def cmdReadSectors : Byte := 0x20#8
/-- PACKET. -/
def cmdPacket : Byte := 0xA0#8
/-- IDENTIFY PACKET DEVICE. -/
def cmdIdentifyPacketDevice : Byte := 0xA1#8
/-- IDENTIFY DEVICE. -/
def cmdIdentifyDevice : Byte := 0xEC#8

/-! ### SCSI operation codes, byte 0 of a CDB (R115) -/

/-- TEST_UNIT_READY. -/
def scsiTestUnitReady : Byte := 0x00#8
/-- INQUIRY. -/
def scsiInquiry : Byte := 0x12#8
/-- READ_10. -/
def scsiRead10 : Byte := 0x28#8

/-- The default `FLAG_TABLE` (G9 of 93_implementation_defined.md), in the order of its table. -/
def flagTable82 : List Flag :=
  [ ⟨"SMART feature set", .w82, 0⟩, ⟨"Security Mode feature set", .w82, 1⟩,
    ⟨"Removable Media feature set", .w82, 2⟩, ⟨"Power Management feature set", .w82, 3⟩,
    ⟨"PACKET command feature set", .w82, 4⟩, ⟨"write cache", .w82, 5⟩, ⟨"look-ahead", .w82, 6⟩,
    ⟨"release interrupt", .w82, 7⟩, ⟨"SERVICE interrupt", .w82, 8⟩, ⟨"DEVICE RESET command", .w82, 9⟩,
    ⟨"Host Protected Area feature set", .w82, 10⟩, ⟨"WRITE BUFFER command", .w82, 12⟩,
    ⟨"READ BUFFER command", .w82, 13⟩, ⟨"NOP command", .w82, 14⟩ ]

/-- The word 83 part of the default `FLAG_TABLE` (G9). -/
def flagTable83 : List Flag :=
  [ ⟨"DOWNLOAD MICROCODE command", .w83, 0⟩, ⟨"READ/WRITE DMA QUEUED", .w83, 1⟩, ⟨"CFA feature set", .w83, 2⟩,
    ⟨"Advanced Power Management feature set", .w83, 3⟩,
    ⟨"Removable Media Status Notification feature set", .w83, 4⟩, ⟨"Power-Up In Standby feature set", .w83, 5⟩,
    ⟨"SET FEATURES subcommand required to spin up", .w83, 6⟩, ⟨"SET MAX security extension", .w83, 8⟩,
    ⟨"Automatic Acoustic Management feature set", .w83, 9⟩, ⟨"48-bit Address feature set", .w83, 10⟩,
    ⟨"Device Configuration Overlay feature set", .w83, 11⟩, ⟨"mandatory FLUSH CACHE command", .w83, 12⟩,
    ⟨"FLUSH CACHE EXT command", .w83, 13⟩ ]

/-- The word 84 and word 119 parts of the default `FLAG_TABLE` (G9). -/
def flagTable84 : List Flag :=
  [ ⟨"SMART error logging", .w84, 0⟩, ⟨"SMART self-test", .w84, 1⟩, ⟨"media serial number", .w84, 2⟩,
    ⟨"Media Card Pass Through command feature set", .w84, 3⟩, ⟨"General Purpose Logging feature set", .w84, 5⟩,
    ⟨"Write-Read-Verify feature set", .w119, 1⟩, ⟨"WRITE UNCORRECTABLE EXT command", .w119, 2⟩,
    ⟨"READ LOG DMA EXT and WRITE LOG DMA EXT commands", .w119, 3⟩,
    ⟨"DOWNLOAD MICROCODE with offsets", .w119, 4⟩, ⟨"Free-fall Control feature set", .w119, 5⟩ ]

/-- The parameters `State.reset` carries: the defaults of R8, and for `F_SYS_HZ`, which R8 leaves without one, the
125000000 of the spec's examples (DESIGN CHOICE, log entry 1). -/
def Params.default : Params where
  fSysHz := 125000000
  fifoDepth := 4
  pollLimit := none
  tRstLowNs := 25000
  tRstSettleNs := 2000000
  devFixed := 0x00#8
  flagTable := flagTable82 ++ flagTable83 ++ flagTable84

/-- The device oracle (R90): the `n`-th value the environment puts on the data lines once the script that State carries is
used up. It has no body, so no proof can know a value of it (log entry 2). -/
opaque deviceSample : Nat → BusWord

/-- The sector count that `capacity()` gives where the identify array is not an ATA device's, as a function of that array: U16
calls it not defined. It has no body, so no proof can know a value of it (log entry 30). -/
opaque sectorCountNotAta : List (Nat × Byte) → Nat

end Config
end Sys2Proof
end

