-- ==== Sys2Proof/Syntax.lean ====
section
/-! DEFINITION. The instructions: one constructor of `Instr` for every row of spec/opcode_table.json, and the codes that stand
for them (`Code`), one alternative for each encoding of 30_encoding.md. -/

namespace Sys2Proof

/-- Every field of a command word of format H64 but the operation code (R102). -/
structure H64Fields where
  /-- `CW[4]`, the device index. -/
  dev : BitVec 1
  /-- `CW[8:5]`, the register address code. -/
  ra : BitVec 4
  /-- `CW[9]`, the identify command select. -/
  idc : BitVec 1
  /-- `CW[15:10]`, reserved. -/
  rsv : BitVec 6
  /-- `CW[31:16]`. -/
  imm16 : BitVec 16
  /-- `CW[63:32]`. -/
  w32 : BitVec 32
  deriving DecidableEq, Repr

/-- The five named bits of the status byte (R110). -/
inductive StatusBit where
  | bsy
  | drdy
  | df
  | drq
  | err
  deriving DecidableEq, Repr

/-- The accessors of the identify decoder that are rows of the opcode table (R281). The spec names them and gives them no
code number, so a name is their code. -/
inductive IdField where
  | deviceClass
  | isAtapi
  | removable
  | responseIncomplete
  | packetSize
  | serialNumber
  | firmwareRevision
  | modelNumber
  | iordySupported
  | iordyCanDisable
  | fieldsValid
  | capacitySectors
  | advPioModes
  | minPioCycleTime
  | minPioCycleTimeIordy
  | queueDepth
  | majorVersion
  | feature (w : FeatureWord) (b : BitVec 4)
  | checksumValid
  | checksumSumOk
  deriving DecidableEq, Repr

/-- The instructions of the engine, one constructor for each row of spec/opcode_table.json. -/
inductive Instr where
  -- host operations, format H64 (R100)
  | configure (ct : BitVec 32)
  | rdreg (ra : BitVec 4)
  | wrreg (ra : BitVec 4) (v : BusWord)
  | hwreset
  | devreset (dev : BitVec 1)
  | isready
  | pioread (n : BitVec 32)
  | rdsect (dev : BitVec 1) (lba : BitVec 32) (count : BitVec 16)
  | ident (dev : BitVec 1) (idc : BitVec 1)
  | packet (dev : BitVec 1) (limit : BitVec 16) (cdb : Cdb)
  -- reserved operation codes (R105)
  | reservedOpc0 (f : H64Fields)
  | reservedOpcB (f : H64Fields)
  | reservedOpcC (f : H64Fields)
  | reservedOpcD (f : H64Fields)
  | reservedOpcE (f : H64Fields)
  | reservedOpcF (f : H64Fields)
  -- register address codes (R108): the address decoder's SetAddr
  | raData
  | raErrorFeatures
  | raSectorCount
  | raLbaLow
  | raLbaMid
  | raLbaHigh
  | raDevice
  | raStatusCommand
  | raAltStatus
  -- reserved register address codes (R109)
  | raReserved8
  | raReserved9
  | raReservedA
  | raReservedB
  | raReservedC
  | raReservedD
  | raReservedF
  -- status bit tests (R110)
  | stBsy
  | stDrdy
  | stDf
  | stDrq
  | stErr
  -- ATA commands issued by the sequencer (R114, R212)
  | cmdDeviceReset
  | cmdReadSectors
  | cmdPacket
  | cmdIdentifyPacketDevice
  | cmdIdentifyDevice
  -- SCSI commands forwarded in a packet (R115, R262)
  | scsiTestUnitReady (body : CdbBody)
  | scsiInquiry (body : CdbBody)
  | scsiRead10 (body : CdbBody)
  -- RD lane micro-instructions (R150 to R154)
  | rdGetcnt
  | rdRstbLo
  | rdRhold
  | rdSample
  | rdRstbHiLoop
  -- WR lane micro-instructions (R155 to R158)
  | wrGetdata
  | wrWstbLo
  | wrWhold
  | wrWstbHi
  -- identify decoder accessors (R281)
  | idDeviceClass
  | idIsAtapi
  | idRemovable
  | idResponseIncomplete
  | idPacketSize
  | idSerialNumber
  | idFirmwareRevision
  | idModelNumber
  | idIordySupported
  | idIordyCanDisable
  | idFieldsValid
  | idCapacitySectors
  | idAdvPioModes
  | idMinPioCycleTime
  | idMinPioCycleTimeIordy
  | idQueueDepth
  | idMajorVersion
  | idFeature (w : FeatureWord) (b : BitVec 4)
  | idChecksumValid
  | idChecksumSumOk
  deriving DecidableEq, Repr

/-- The words an instruction is read from, one alternative for each encoding of the opcode table. -/
inductive Code where
  /-- A command word, with the 12-byte side operand that only PACKET reads (R100). -/
  | h64 (cw : BitVec 64) (cdb : Cdb)
  /-- A register address code (R108). -/
  | regAddr (ra : BitVec 4)
  /-- A status byte as a mask that names a bit (R110). -/
  | status (b : Byte)
  /-- A byte for the COMMAND register (R114). -/
  | ataCmd (b : Byte)
  /-- A command descriptor block (R115). -/
  | cdb12 (cdb : Cdb)
  /-- A slot of the RD lane's program (R117). -/
  | rdSlot (k : BitVec 3)
  /-- A slot of the WR lane's program (R117). -/
  | wrSlot (k : BitVec 2)
  /-- An accessor of the identify decoder (R120). -/
  | idField (f : IdField)
  deriving DecidableEq, Repr

end Sys2Proof
end

