-- ==== Sys2Proof/WellFormed.lean ====
section
/-! DEFINITION. When an instruction's operands are legal (R104, R109). The engine makes the same checks when it accepts the
operation, and raises a precondition violation where one fails; CONFIGURE's check depends on the clock and is not here. -/

namespace Sys2Proof

/-- `RA` names one of the nine enumerators of R71: every code of group 0, and 0xE (R108, R109). -/
def isEnumerator (ra : BitVec 4) : Bool := ra.toNat < 8 || ra == 0xE#4

/-- Operand legality (R104): RDREG and WRREG name an enumerator, PIOREAD reads at least one word, RDSECT's count is 1 to 256
and its LBA has 28 bits. Every other instruction admits every operand its fields can hold. -/
def wellFormed : Instr → Bool
  | .rdreg ra => isEnumerator ra
  | .wrreg ra _ => isEnumerator ra
  | .pioread n => n != 0#32
  | .rdsect _ lba count => decide (1 ≤ count.toNat) && decide (count.toNat ≤ 256) && decide (lba.toNat < 2 ^ 28)
  | .configure _ | .hwreset | .devreset _ | .isready | .ident _ _ | .packet _ _ _ => true
  | .reservedOpc0 _ | .reservedOpcB _ | .reservedOpcC _ | .reservedOpcD _ | .reservedOpcE _ | .reservedOpcF _ => true
  | .raData | .raErrorFeatures | .raSectorCount | .raLbaLow | .raLbaMid | .raLbaHigh | .raDevice | .raStatusCommand
  | .raAltStatus => true
  | .raReserved8 | .raReserved9 | .raReservedA | .raReservedB | .raReservedC | .raReservedD | .raReservedF => true
  | .stBsy | .stDrdy | .stDf | .stDrq | .stErr => true
  | .cmdDeviceReset | .cmdReadSectors | .cmdPacket | .cmdIdentifyPacketDevice | .cmdIdentifyDevice => true
  | .scsiTestUnitReady _ | .scsiInquiry _ | .scsiRead10 _ => true
  | .rdGetcnt | .rdRstbLo | .rdRhold | .rdSample | .rdRstbHiLoop => true
  | .wrGetdata | .wrWstbLo | .wrWhold | .wrWstbHi => true
  | .idDeviceClass | .idIsAtapi | .idRemovable | .idResponseIncomplete | .idPacketSize | .idSerialNumber
  | .idFirmwareRevision | .idModelNumber | .idIordySupported | .idIordyCanDisable | .idFieldsValid | .idCapacitySectors
  | .idAdvPioModes | .idMinPioCycleTime | .idMinPioCycleTimeIordy | .idQueueDepth | .idMajorVersion | .idFeature _ _
  | .idChecksumValid | .idChecksumSumOk => true

end Sys2Proof
end

