-- ==== Sys2Proof/Decode.lean ====
section
/-! DEFINITION. The decoder, total on every code, and the encoder, both written from the tables of 30_encoding.md. -/

namespace Sys2Proof

/-- Why a code is no instruction. -/
inductive DecodeError where
  /-- A field the operation does not use, or `CW[15:10]`, is not zero (R105). -/
  | reservedField
  /-- A status mask with none of the five named bits (R110: bits 4, 2 and 1 are not named). -/
  | noStatusBit
  /-- A command byte that is none of the five of R114. -/
  | noAtaCommand
  /-- A CDB whose byte 0 is none of the three SCSI commands in scope (R115); the engine forwards it all the same. -/
  | scsiNotInScope
  /-- A slot beyond the RD lane's program (R117: slots 0 to 4). -/
  | noLaneSlot
  deriving DecidableEq, Repr

/-! ### Format H64 (R102) -/

/-- The fields of a command word, each taken from its bits with no scaling or extension (R102, R103). -/
def h64Fields (cw : BitVec 64) : H64Fields where
  dev := cw.extractLsb' 4 1
  ra := cw.extractLsb' 5 4
  idc := cw.extractLsb' 9 1
  rsv := cw.extractLsb' 10 6
  imm16 := cw.extractLsb' 16 16
  w32 := cw.extractLsb' 32 32

/-- `OPC`, bits 3:0 of a command word (R102). -/
def h64Opc (cw : BitVec 64) : BitVec 4 := cw.extractLsb' 0 4

/-- The command word with these fields and this operation code (R102). -/
def h64Pack (opc : BitVec 4) (f : H64Fields) : BitVec 64 :=
  f.w32 ++ (f.imm16 ++ (f.rsv ++ (f.idc ++ (f.ra ++ (f.dev ++ opc)))))

/-- All fields zero. -/
def H64Fields.zero : H64Fields := ⟨0, 0, 0, 0, 0, 0⟩

/-- The instruction `i` if the fields `f` are exactly those `used` by it, all others zero (R105). -/
def onlyFields (f used : H64Fields) (i : Instr) : Except DecodeError Instr :=
  if f = used then .ok i else .error .reservedField

/-- The ten operations and the six reserved codes of R100. An operation's unused fields must be zero (R105). -/
def decodeH64 (opc : BitVec 4) (f : H64Fields) (cdb : Cdb) : Except DecodeError Instr :=
  match opc.toNat with
  | 0x0 => .ok (.reservedOpc0 f)
  | 0x1 => onlyFields f (.mk 0 0 0 0 0 f.w32) (.configure f.w32)
  | 0x2 => onlyFields f (.mk 0 f.ra 0 0 0 0) (.rdreg f.ra)
  | 0x3 => onlyFields f (.mk 0 f.ra 0 0 f.imm16 0) (.wrreg f.ra f.imm16)
  | 0x4 => onlyFields f (.mk 0 0 0 0 0 0) .hwreset
  | 0x5 => onlyFields f (.mk f.dev 0 0 0 0 0) (.devreset f.dev)
  | 0x6 => onlyFields f (.mk 0 0 0 0 0 0) .isready
  | 0x7 => onlyFields f (.mk 0 0 0 0 0 f.w32) (.pioread f.w32)
  | 0x8 => onlyFields f (.mk f.dev 0 0 0 f.imm16 f.w32) (.rdsect f.dev f.w32 f.imm16)
  | 0x9 => onlyFields f (.mk f.dev 0 f.idc 0 0 0) (.ident f.dev f.idc)
  | 0xA => onlyFields f (.mk f.dev 0 0 0 f.imm16 0) (.packet f.dev f.imm16 cdb)
  | 0xB => .ok (.reservedOpcB f)
  | 0xC => .ok (.reservedOpcC f)
  | 0xD => .ok (.reservedOpcD f)
  | 0xE => .ok (.reservedOpcE f)
  | _ => .ok (.reservedOpcF f)

/-! ### The short formats -/

/-- The register address code (R108, R109). -/
def decodeRegAddr (ra : BitVec 4) : Instr :=
  match ra.toNat with
  | 0x0 => .raData
  | 0x1 => .raErrorFeatures
  | 0x2 => .raSectorCount
  | 0x3 => .raLbaLow
  | 0x4 => .raLbaMid
  | 0x5 => .raLbaHigh
  | 0x6 => .raDevice
  | 0x7 => .raStatusCommand
  | 0x8 => .raReserved8
  | 0x9 => .raReserved9
  | 0xA => .raReservedA
  | 0xB => .raReservedB
  | 0xC => .raReservedC
  | 0xD => .raReservedD
  | 0xE => .raAltStatus
  | _ => .raReservedF

/-- The status bit a mask names (R110). Of several bits the one that decides a sample first is taken: BSY masks everything,
then DRQ, then ERR (R338), then DRDY and DF (DESIGN CHOICE, log entry 13). -/
def decodeStatus (b : Byte) : Except DecodeError Instr :=
  if b.getLsbD 7 then .ok .stBsy
  else if b.getLsbD 3 then .ok .stDrq
  else if b.getLsbD 0 then .ok .stErr
  else if b.getLsbD 6 then .ok .stDrdy
  else if b.getLsbD 5 then .ok .stDf
  else .error .noStatusBit

/-- The ATA command byte (R114). -/
def decodeAtaCmd (b : Byte) : Except DecodeError Instr :=
  if b = Config.cmdDeviceReset then .ok .cmdDeviceReset
  else if b = Config.cmdReadSectors then .ok .cmdReadSectors
  else if b = Config.cmdPacket then .ok .cmdPacket
  else if b = Config.cmdIdentifyPacketDevice then .ok .cmdIdentifyPacketDevice
  else if b = Config.cmdIdentifyDevice then .ok .cmdIdentifyDevice
  else .error .noAtaCommand

/-- The SCSI command of a CDB, by its byte 0 (R115). -/
def decodeCdb (c : Cdb) : Except DecodeError Instr :=
  if c.op = Config.scsiTestUnitReady then .ok (.scsiTestUnitReady c.body)
  else if c.op = Config.scsiInquiry then .ok (.scsiInquiry c.body)
  else if c.op = Config.scsiRead10 then .ok (.scsiRead10 c.body)
  else .error .scsiNotInScope

/-- The RD lane's program, slot by slot (R117, R150 to R154). -/
def decodeRdSlot (k : BitVec 3) : Except DecodeError Instr :=
  match k.toNat with
  | 0 => .ok .rdGetcnt
  | 1 => .ok .rdRstbLo
  | 2 => .ok .rdRhold
  | 3 => .ok .rdSample
  | 4 => .ok .rdRstbHiLoop
  | _ => .error .noLaneSlot

/-- The WR lane's program, slot by slot (R117, R155 to R158). -/
def decodeWrSlot (k : BitVec 2) : Instr :=
  match k.toNat with
  | 0 => .wrGetdata
  | 1 => .wrWstbLo
  | 2 => .wrWhold
  | _ => .wrWstbHi

/-- The accessor a name stands for (R281). -/
def decodeIdField : IdField → Instr
  | .deviceClass => .idDeviceClass
  | .isAtapi => .idIsAtapi
  | .removable => .idRemovable
  | .responseIncomplete => .idResponseIncomplete
  | .packetSize => .idPacketSize
  | .serialNumber => .idSerialNumber
  | .firmwareRevision => .idFirmwareRevision
  | .modelNumber => .idModelNumber
  | .iordySupported => .idIordySupported
  | .iordyCanDisable => .idIordyCanDisable
  | .fieldsValid => .idFieldsValid
  | .capacitySectors => .idCapacitySectors
  | .advPioModes => .idAdvPioModes
  | .minPioCycleTime => .idMinPioCycleTime
  | .minPioCycleTimeIordy => .idMinPioCycleTimeIordy
  | .queueDepth => .idQueueDepth
  | .majorVersion => .idMajorVersion
  | .feature w b => .idFeature w b
  | .checksumValid => .idChecksumValid
  | .checksumSumOk => .idChecksumSumOk

/-- The instruction a code stands for, or the reason it stands for none. -/
def decode : Code → Except DecodeError Instr
  | .h64 cw cdb => decodeH64 (h64Opc cw) (h64Fields cw) cdb
  | .regAddr ra => .ok (decodeRegAddr ra)
  | .status b => decodeStatus b
  | .ataCmd b => decodeAtaCmd b
  | .cdb12 c => decodeCdb c
  | .rdSlot k => decodeRdSlot k
  | .wrSlot k => .ok (decodeWrSlot k)
  | .idField f => .ok (decodeIdField f)

/-! ### The words of the host's table questions -/

/-- Byte `k` of the 12-byte side operand that follows a 64-bit command word, numbered from bit 64 up (R100). -/
def tableCdbByte (w k : Nat) : Byte := BitVec.ofNat 8 (w >>> (64 + 8 * k))

/-- The side operand of a table word. -/
def tableCdb (w : Nat) : Cdb :=
  ⟨tableCdbByte w 0, ⟨tableCdbByte w 1, tableCdbByte w 2, tableCdbByte w 3, tableCdbByte w 4, tableCdbByte w 5,
    tableCdbByte w 6, tableCdbByte w 7, tableCdbByte w 8, tableCdbByte w 9, tableCdbByte w 10, tableCdbByte w 11⟩⟩

/-- The code a table word of `nbits` bits is read as. More than one byte is a command word. One byte could be a word of six
short formats that share their words and differ only in which unit reads them, so one is chosen for each word (DESIGN
CHOICE, log entry 15): below 16 a register address code, else an ATA command, else byte 0 of a CDB, else a status mask, and
a byte that is none of these is a command word. -/
def tableCode (nbits w : Nat) : Code :=
  if 8 < nbits then .h64 (BitVec.ofNat 64 w) (tableCdb w)
  else if w < 16 then .regAddr (BitVec.ofNat 4 w)
  else if (decodeAtaCmd (BitVec.ofNat 8 w)).isOk then .ataCmd (BitVec.ofNat 8 w)
  else if (decodeCdb ⟨BitVec.ofNat 8 w, CdbBody.zero⟩).isOk then .cdb12 ⟨BitVec.ofNat 8 w, CdbBody.zero⟩
  else if (decodeStatus (BitVec.ofNat 8 w)).isOk then .status (BitVec.ofNat 8 w)
  else .h64 (BitVec.ofNat 64 w) (tableCdb w)

/-- The instruction the decoder reads from a table word of `nbits` bits, bit 0 the least significant of the first word. -/
def decodeTableWord (nbits w : Nat) : Option Instr :=
  (decode (tableCode nbits w)).toOption

/-! ### The encoder -/

/-- The mask that names a status bit (R110). -/
def StatusBit.mask : StatusBit → Byte
  | .bsy => 0x80#8
  | .drdy => 0x40#8
  | .df => 0x20#8
  | .drq => 0x08#8
  | .err => 0x01#8

/-- A command word without a side operand. -/
def h64Code (opc : BitVec 4) (f : H64Fields) : Code := .h64 (h64Pack opc f) Cdb.zero

/-- The code of an instruction (30_encoding.md). -/
def encode : Instr → Code
  | .configure ct => h64Code 0x1#4 (.mk 0 0 0 0 0 ct)
  | .rdreg ra => h64Code 0x2#4 (.mk 0 ra 0 0 0 0)
  | .wrreg ra v => h64Code 0x3#4 (.mk 0 ra 0 0 v 0)
  | .hwreset => h64Code 0x4#4 (.mk 0 0 0 0 0 0)
  | .devreset dev => h64Code 0x5#4 (.mk dev 0 0 0 0 0)
  | .isready => h64Code 0x6#4 (.mk 0 0 0 0 0 0)
  | .pioread n => h64Code 0x7#4 (.mk 0 0 0 0 0 n)
  | .rdsect dev lba count => h64Code 0x8#4 (.mk dev 0 0 0 count lba)
  | .ident dev idc => h64Code 0x9#4 (.mk dev 0 idc 0 0 0)
  | .packet dev limit cdb => .h64 (h64Pack 0xA#4 (.mk dev 0 0 0 limit 0)) cdb
  | .reservedOpc0 f => h64Code 0x0#4 f
  | .reservedOpcB f => h64Code 0xB#4 f
  | .reservedOpcC f => h64Code 0xC#4 f
  | .reservedOpcD f => h64Code 0xD#4 f
  | .reservedOpcE f => h64Code 0xE#4 f
  | .reservedOpcF f => h64Code 0xF#4 f
  | .raData => .regAddr Config.raData
  | .raErrorFeatures => .regAddr Config.raError
  | .raSectorCount => .regAddr Config.raSectorCount
  | .raLbaLow => .regAddr Config.raLbaLow
  | .raLbaMid => .regAddr Config.raLbaMid
  | .raLbaHigh => .regAddr Config.raLbaHigh
  | .raDevice => .regAddr Config.raDevice
  | .raStatusCommand => .regAddr Config.raStatus
  | .raAltStatus => .regAddr Config.raAltStatus
  | .raReserved8 => .regAddr 0x8#4
  | .raReserved9 => .regAddr 0x9#4
  | .raReservedA => .regAddr 0xA#4
  | .raReservedB => .regAddr 0xB#4
  | .raReservedC => .regAddr 0xC#4
  | .raReservedD => .regAddr 0xD#4
  | .raReservedF => .regAddr 0xF#4
  | .stBsy => .status StatusBit.bsy.mask
  | .stDrdy => .status StatusBit.drdy.mask
  | .stDf => .status StatusBit.df.mask
  | .stDrq => .status StatusBit.drq.mask
  | .stErr => .status StatusBit.err.mask
  | .cmdDeviceReset => .ataCmd Config.cmdDeviceReset
  | .cmdReadSectors => .ataCmd Config.cmdReadSectors
  | .cmdPacket => .ataCmd Config.cmdPacket
  | .cmdIdentifyPacketDevice => .ataCmd Config.cmdIdentifyPacketDevice
  | .cmdIdentifyDevice => .ataCmd Config.cmdIdentifyDevice
  | .scsiTestUnitReady body => .cdb12 ⟨Config.scsiTestUnitReady, body⟩
  | .scsiInquiry body => .cdb12 ⟨Config.scsiInquiry, body⟩
  | .scsiRead10 body => .cdb12 ⟨Config.scsiRead10, body⟩
  | .rdGetcnt => .rdSlot 0#3
  | .rdRstbLo => .rdSlot 1#3
  | .rdRhold => .rdSlot 2#3
  | .rdSample => .rdSlot 3#3
  | .rdRstbHiLoop => .rdSlot 4#3
  | .wrGetdata => .wrSlot 0#2
  | .wrWstbLo => .wrSlot 1#2
  | .wrWhold => .wrSlot 2#2
  | .wrWstbHi => .wrSlot 3#2
  | .idDeviceClass => .idField .deviceClass
  | .idIsAtapi => .idField .isAtapi
  | .idRemovable => .idField .removable
  | .idResponseIncomplete => .idField .responseIncomplete
  | .idPacketSize => .idField .packetSize
  | .idSerialNumber => .idField .serialNumber
  | .idFirmwareRevision => .idField .firmwareRevision
  | .idModelNumber => .idField .modelNumber
  | .idIordySupported => .idField .iordySupported
  | .idIordyCanDisable => .idField .iordyCanDisable
  | .idFieldsValid => .idField .fieldsValid
  | .idCapacitySectors => .idField .capacitySectors
  | .idAdvPioModes => .idField .advPioModes
  | .idMinPioCycleTime => .idField .minPioCycleTime
  | .idMinPioCycleTimeIordy => .idField .minPioCycleTimeIordy
  | .idQueueDepth => .idField .queueDepth
  | .idMajorVersion => .idField .majorVersion
  | .idFeature w b => .idField (.feature w b)
  | .idChecksumValid => .idField .checksumValid
  | .idChecksumSumOk => .idField .checksumSumOk

end Sys2Proof
end

