-- ==== Sys2Proof/Machine/State.lean ====
section
/-! DEFINITION. The state of the engine as plain data: every field of R20, the sequencer's position, the environment's inputs
and the host's memories; what a step can stop with; the state after power-on reset. -/

namespace Sys2Proof.Machine

/-- The two lanes (R16). -/
inductive Lane where
  | rd
  | wr
  deriving DecidableEq, Repr

/-- Whose turn it is: one system clock cycle is a turn of each, in this order (log entry 4). -/
inductive Turn where
  | sequencer
  | rdLane
  | wrLane
  deriving DecidableEq, Repr

/-- A memory of the host's as (address, byte) pairs, addresses strictly rising and no entry equal to what an unlisted
address reads as. -/
abbrev Memory := List Host.Cell

/-- What an unlisted address of a host memory reads as (DESIGN CHOICE, log entry 9). -/
def Memory.unlisted : Byte := 0#8

/-- The canonical form of a memory: addresses strictly rising, no listed byte that an unlisted address would read as. -/
abbrev Memory.wf (m : Memory) : Prop :=
  m.Pairwise (fun p q => p.1 < q.1) ∧ ∀ c ∈ m, c.2 ≠ Memory.unlisted

/-- A bus event (R13). An address is recorded as the lines that carried it: the chip selects and the three address bits. -/
inductive BusEvent where
  /-- `ADDR(ra)`: the lines took this value. -/
  | addr (cs : BitVec 2) (da : BitVec 3)
  /-- `RD(ra, v)`: one read strobe pulse while the lines held `ra`; `v` was sampled. -/
  | rd (cs : BitVec 2) (da : BitVec 3) (v : BusWord)
  /-- `WR(ra, v)`: one write strobe pulse while the lines held `ra` and `v` was driven. -/
  | wr (cs : BitVec 2) (da : BitVec 3) (v : BusWord)
  /-- `RST(1)`, `RST(0)`. -/
  | rst (level : Bool)
  /-- `WAIT(ns)`: at least `ns` nanoseconds with no other event. -/
  | wait (ns : Nat)
  deriving DecidableEq, Repr

/-- The result codes of R331, in the order of their numbers 0 to 3. -/
inductive ResCode where
  | ok
  | fail
  | timeout
  | fatal
  deriving DecidableEq, Repr

/-- The two bits of `RES` (R331). -/
def ResCode.code : ResCode → BitVec 2
  | .ok => 0#2
  | .fail => 1#2
  | .timeout => 2#2
  | .fatal => 3#2

/-- The reasons of a precondition violation, the closed list of R334. -/
inductive Violation where
  | reservedEncoding
  | divisorRange
  | sectorCount
  | lbaRange
  | wordCount
  deriving DecidableEq, Repr

/-- The three polling loops (R206, R207, R209). -/
inductive PollLoop where
  | notBusy
  | ready
  | drq
  deriving DecidableEq, Repr

/-- The decisions the sequencer takes on the outcome of a status bit test: the branches of the three polling loops, the ERR
test of DEVRESET (R205) and the two tests of ISREADY (R208). -/
inductive Decision where
  /-- After BSY in a polling loop. -/
  | loopBsy (k : PollLoop)
  /-- After DRDY in `WaitReady`. -/
  | readyDrdy
  /-- After DRQ in `WaitDRQ`. -/
  | drqDrq
  /-- After ERR in `WaitDRQ`. -/
  | drqErr
  /-- After ERR in DEVRESET. -/
  | devResetErr
  /-- After BSY in ISREADY. -/
  | isReadyBsy
  /-- After DRDY in ISREADY. -/
  | isReadyDrdy
  deriving DecidableEq, Repr

/-- One line of an operation's pseudocode, as the sequencer runs it (R12, R16). -/
inductive SeqOp where
  /-- `SetAddr(ra)` (R180). -/
  | setAddr (ra : BitVec 4)
  /-- `push(INQ[RD], w)` (R75 step 1). -/
  | handRd (w : BitVec 32)
  /-- `push(INQ[WR], w)` (R75 step 1). -/
  | handWr (w : BusWord)
  /-- `STALLED[l] <- 0` (R75 step 2). -/
  | clearStalled (l : Lane)
  /-- `wait until STALLED[l] = 1` (R75 step 3). -/
  | await (l : Lane)
  /-- `v <- pop(RXQ)` of `MemRead` (R76). -/
  | take
  /-- The retrieval loop of `MemReadBurst`, emitting each word (R78, R232). -/
  | drain
  /-- `RVAL <- v` (R184). -/
  | setRval
  /-- `POLLCNT <- 0` at the head of `BoundedLoop` (R202). -/
  | pollStart (k : PollLoop)
  /-- The head of one turn of the loop: the limit test, the count, the poll (R202). -/
  | pollTop (k : PollLoop)
  /-- A test of one status bit of the sample just polled (R200). -/
  | test (b : StatusBit)
  /-- The branch on that test. -/
  | branch (d : Decision)
  /-- `RST <- level` (R204). -/
  | setRst (level : Bool)
  /-- `Delay(ns)` (R203). -/
  | delay (ns : Nat)
  /-- `IssueCommand(c)` (R212). -/
  | issue (c : Byte)
  /-- The packet of a PACKET operation (R262). -/
  | sendPacket (cdb : Cdb)
  /-- `SECT_REM <- n` (R236). -/
  | setSectRem (n : BitVec 9)
  /-- `while SECT_REM != 0` (R236). -/
  | sectTop
  /-- `SECT_REM <- SECT_REM - 1` (R236). -/
  | sectDec
  /-- The host keeps the emitted words as its identify array (R241). -/
  | capture
  deriving DecidableEq, Repr

/-- `OPSTATE` (R36). BUSY carries the sequencer's position: the lines of the running operation still to run; an operation
whose lines are used up ends with `return OK`. -/
inductive OpState where
  | idle
  | busy (code : List SeqOp)
  | faulted
  deriving DecidableEq, Repr

/-- Which access primitive the sequencer has under way (R74): none; address lines set but nothing handed over; a read or a
write handed to its lane. The model's own, part of the sequencer's position; it is what detects U1. -/
inductive Access where
  | none
  | addressed
  | reading
  | writing
  deriving DecidableEq, Repr

/-- The value an identify accessor gives (R280): a gated accessor whose gate is clear gives `absent`. -/
inductive IdValue where
  | absent
  | flag (b : Bool)
  | num (n : Nat)
  | text (bytes : List Byte)
  /-- `capacity() -> sector_count, sector_size` (R242). -/
  | capacity (sectorCount sectorSize : Nat)
  deriving DecidableEq, Repr

/-- What the host asks of the engine, one at a time (R90, R100, R280). -/
inductive HostReq where
  /-- A command word, with the side operand of PACKET (R100). -/
  | command (cw : BitVec 64) (cdb : Cdb)
  /-- An accessor of the identify decoder (R281). -/
  | accessor (f : IdField)
  /-- `is_ata` (R283), which is no row of the opcode table. -/
  | isAta
  /-- `max_pio_mode` (R298), which is no row of the opcode table. -/
  | maxPioMode
  /-- `capacity()` (R242). -/
  | capacity
  /-- The `n`-th flag of `FLAG_TABLE` (R305). -/
  | namedFlag (n : Nat)
  /-- RETIME (R320). -/
  | retime
  deriving DecidableEq, Repr

/-- Why the machine stops with a fault. -/
inductive Fault where
  /-- Raised by `step` in FAULTED, which is terminal until power-on reset; "a model treats FAULTED as a fault" (R333). Safe. -/
  | engineFaulted
  /-- Raised by the access primitives where an access would begin or end with a lane not idle, or two `SetAddr` would stand
  without a completed access between them: undefined, "a model faults" (R74, R183, U1). Safe. -/
  | overlappingAccess
  /-- Raised by CONFIGURE where a lane is not idle: undefined, "a model faults" (R144, U2). Safe. -/
  | reconfigureInFlight
  /-- Raised by a lane tick where `PC[RD]` is none of the five slots (R23: range 0 to 4). Safe. -/
  | noLaneSlot
  deriving DecidableEq, Repr

/-- Why an instruction is refused. -/
inductive Refusal where
  /-- Raised by `exec` for an instruction that has no meaning yet; no instruction is left so. Safe. -/
  | notModelled (mnemonic : String)
  /-- Raised by a host operation presented while `OPSTATE` is BUSY: "no command word is accepted" (R101). `step` never
  presents one then. Safe. -/
  | portBusy
  /-- Raised by the sequencer where a code of its own position decodes to no instruction; no operation's pseudocode holds
  such a code. Safe. -/
  | notDecoded (e : DecodeError)
  deriving DecidableEq, Repr

/-- The state. The fields from `div` to `pollCnt` are those of R20, under the spec's names. -/
structure State where
  /-- `DIV` (R21). -/
  div : BitVec 16
  /-- `EN[RD]` (R22). -/
  enRd : Bool
  /-- `EN[WR]` (R22). -/
  enWr : Bool
  /-- `PC[RD]` (R23). -/
  pcRd : BitVec 3
  /-- `PC[WR]` (R23). -/
  pcWr : BitVec 2
  /-- `X` (R24). -/
  x : BitVec 32
  /-- `OSR` (R25). -/
  osr : BusWord
  /-- `INQ[RD]`, head first (R26). -/
  inqRd : List (BitVec 32)
  /-- `INQ[WR]`, head first (R27). -/
  inqWr : List BusWord
  /-- `RXQ`, head first (R28). -/
  rxq : List BusWord
  /-- `STALLED[RD]` (R29). -/
  stalledRd : Bool
  /-- `STALLED[WR]` (R29). -/
  stalledWr : Bool
  /-- `PHASE[RD]` (R30). -/
  phaseRd : BitVec 16
  /-- `PHASE[WR]` (R30). -/
  phaseWr : BitVec 16
  /-- `CS` (R31). -/
  cs : BitVec 2
  /-- `DA` (R31). -/
  da : BitVec 3
  /-- `RD_STB` (R32). -/
  rdStb : Bool
  /-- `WR_STB` (R32). -/
  wrStb : Bool
  /-- `DD_OUT` (R34). -/
  ddOut : BusWord
  /-- `DD_OE` (R34). -/
  ddOe : Bool
  /-- `RST` (R35). -/
  rst : Bool
  /-- `OPSTATE` and, in BUSY, the sequencer's position (R36). -/
  opstate : OpState
  /-- `RES` (R36, R331). -/
  res : ResCode
  /-- `RVAL` (R36). -/
  rval : BusWord
  /-- `SECT_REM` (R38). -/
  sectRem : BitVec 9
  /-- `POLLCNT` (R38). -/
  pollCnt : Nat
  /-- The pseudocode's local variable: the last word popped for the sequencer (R76, R200); dead after its decision. -/
  smp : BusWord
  /-- The outcome of the last status bit test (R200). -/
  cond : Bool
  /-- The access primitive under way (R74). -/
  access : Access
  /-- The reason of the last precondition violation (R331, R334). -/
  reason : Option Violation
  /-- The bus events so far, oldest first (R13). -/
  trace : List BusEvent
  /-- How many words the running or last transfer has emitted (R232). -/
  emitted : Nat
  /-- The caller's buffer, words as little-endian byte pairs (R41, R80, R232). -/
  buf : Memory
  /-- The identify array the host holds (R41, R241). -/
  idArr : Memory
  /-- What the identify decoder last gave the host (R280). -/
  answer : IdValue
  /-- The script of values the environment will put on the data lines, next first (R90). -/
  samples : List BusWord
  /-- How many values have been sampled; the index of the next oracle value (R90). -/
  drawn : Nat
  /-- What the host will issue, next first (R90). -/
  port : List HostReq
  /-- Turns the environment gives to (`false`) or withholds from (`true`) the busy sequencer, next first; none are withheld
  once the list is used up (R16). -/
  pace : List Bool
  /-- A power-on reset is requested (R360). -/
  por : Bool
  /-- Whose turn it is (R16). -/
  turn : Turn
  /-- The parameters of R8. -/
  params : Config.Params
  deriving DecidableEq, Repr

/-- The machine right after power-on reset: the reset column of R20, R360; the fields that column leaves unspecified, and the
model's own fields, at the values of log entries 1 to 4, 6, 7, 9 to 11, 16 and 25. -/
def State.reset : State where
  div := 1#16
  enRd := false
  enWr := false
  pcRd := 0#3
  pcWr := 0#2
  x := 0#32
  osr := 0#16
  inqRd := []
  inqWr := []
  rxq := []
  stalledRd := false
  stalledWr := false
  phaseRd := 0#16
  phaseWr := 0#16
  cs := 0b00#2
  da := 0#3
  rdStb := false
  wrStb := false
  ddOut := 0#16
  ddOe := false
  rst := false
  opstate := .idle
  res := .ok
  rval := 0#16
  sectRem := 0#9
  pollCnt := 0
  smp := 0#16
  cond := false
  access := .none
  reason := none
  trace := []
  emitted := 0
  buf := []
  idArr := []
  answer := .absent
  samples := []
  drawn := 0
  port := []
  pace := []
  por := false
  turn := .sequencer
  params := Config.Params.default

end Sys2Proof.Machine
end

