-- ==== Sys2Proof/Machine/Flags.lean ====
section
/-! DEFINITION. The status byte: which bit each name is (R110), and the status byte of a sampled word (R73). -/

namespace Sys2Proof.Machine

/-- The position of a named bit in the status byte (R110, G2). -/
def statusPosition : StatusBit → Nat
  | .bsy => 7
  | .drdy => 6
  | .df => 5
  | .drq => 3
  | .err => 0

/-- The status byte of a sampled word: bits 7:0; the upper byte of an 8-bit register is ignored (R73, R200). -/
def statusByte (v : BusWord) : Byte := v.extractLsb' 0 8

/-- The named bit of the status byte of a sampled word (R110, R200). -/
def statusBit (b : StatusBit) (v : BusWord) : Bool := (statusByte v).getLsbD (statusPosition b)

/-- "`!BSY && DRDY`", the ready predicate (R207, R208). -/
def isReadySample (v : BusWord) : Bool := !statusBit .bsy v && statusBit .drdy v

/-- What one sample means to `WaitDRQ`: `none` to go on polling, else whether the device is ready (R209, R210). -/
def drqOutcome (v : BusWord) : Option Bool :=
  if statusBit .bsy v then none
  else if statusBit .drq v then some true
  else if statusBit .err v then some false
  else none

end Sys2Proof.Machine
end

