-- ==== Sys2Proof/Machine/Operands.lean ====
section
/-! DEFINITION. Operand assembly (R103): the Device register bytes (R111), the LBA split (R112), the sector count byte (R113),
the packet words (R115, R261), the lane hand-off (R116), the divisor (R141). -/

namespace Sys2Proof.Machine

/-- `zext_16(b)`: what the engine drives for a byte value (R73). -/
def zext16 (b : Byte) : BusWord := b.setWidth 16

/-- Bits 7 and 5 of every Device register byte (R111, U6). -/
def devFixedBits (p : Config.Params) : Byte := p.devFixed &&& Config.devFixedMask

/-- `DevByteSel(dev)` (R111): the Device byte of an operation that carries no LBA. -/
def devByteSel (p : Config.Params) (dev : BitVec 1) : Byte :=
  devFixedBits p ||| (dev.setWidth 8 <<< 4)

/-- `DevByteLBA(dev, lba)` (R111): LBA mode, the device index in bit 4, `lba[27:24]` in bits 3:0. -/
def devByteLba (p : Config.Params) (dev : BitVec 1) (lba : BitVec 32) : Byte :=
  devFixedBits p ||| 0x40#8 ||| (dev.setWidth 8 <<< 4) ||| (lba.extractLsb' 24 4).setWidth 8

/-- `lba[7:0]` (R112). -/
def lbaLow (lba : BitVec 32) : Byte := lba.extractLsb' 0 8
/-- `lba[15:8]` (R112). -/
def lbaMid (lba : BitVec 32) : Byte := lba.extractLsb' 8 8
/-- `lba[23:16]` (R112). -/
def lbaHigh (lba : BitVec 32) : Byte := lba.extractLsb' 16 8

/-- The Sector Count byte, `count mod 256`, so that 256 goes out as 0 (R113). -/
def sectorCountByte (count : BitVec 16) : Byte := count.setWidth 8

/-- The byte-count limit's low byte, for LBA_MID (R260). -/
def limitLow (limit : BitVec 16) : Byte := limit.extractLsb' 0 8
/-- The byte-count limit's high byte, for LBA_HIGH (R260). -/
def limitHigh (limit : BitVec 16) : Byte := limit.extractLsb' 8 8

/-- `PW[k] = CDB[2k] ++ CDB[2k+1]`: the even-indexed byte in bits 15:8 (R261). The one place that decides the packing (U9). -/
def packWord (even odd : Byte) : BusWord := even ++ odd

/-- The six packet words in the order they are sent (R115, R261). -/
def packetWords (c : Cdb) : List BusWord :=
  [ packWord c.op c.body.b1, packWord c.body.b2 c.body.b3, packWord c.body.b4 c.body.b5,
    packWord c.body.b6 c.body.b7, packWord c.body.b8 c.body.b9, packWord c.body.b10 c.body.b11 ]

/-- The RD lane's hand-off word for `n` words: `n - 1` (R116). -/
def handOff (n : BitVec 32) : BitVec 32 := n - 1#32

/-- `ceil(a / b)` for naturals (R141). -/
def ceilDiv (a b : Nat) : Nat := (a + b - 1) / b

/-- `Divisor(ct)` (R141): the least divisor whose bus cycle is not shorter than `ct` nanoseconds, at least 1. -/
def divisor (p : Config.Params) (ct : Nat) : Nat :=
  max 1 (ceilDiv (ct * p.fSysHz) (Config.ipl * 10 ^ 9))

/-- The command byte of IDENT: IDENTIFY DEVICE or IDENTIFY PACKET DEVICE (R240). -/
def identCommand (idc : BitVec 1) : Byte :=
  if idc = 0#1 then Config.cmdIdentifyDevice else Config.cmdIdentifyPacketDevice

/-- The chip selects of a register address code: that of its group asserted, the other negated (R108, R180). -/
def csOf (ra : BitVec 4) : BitVec 2 := if ra.getLsbD 3 then 0b10#2 else 0b01#2

/-- The address lines of a register address code: its offset (R108, R180). -/
def daOf (ra : BitVec 4) : BitVec 3 := ra.extractLsb' 0 3

/-- `ADDR(ra)` (R13). -/
def addrEvent (ra : BitVec 4) : BusEvent := .addr (csOf ra) (daOf ra)
/-- `RD(ra, v)` (R13). -/
def rdEvent (ra : BitVec 4) (v : BusWord) : BusEvent := .rd (csOf ra) (daOf ra) v
/-- `WR(ra, v)` (R13). -/
def wrEvent (ra : BitVec 4) (v : BusWord) : BusEvent := .wr (csOf ra) (daOf ra) v

end Sys2Proof.Machine
end

