-- ==== Sys2Proof/Machine/Ops.lean ====
section
/-! DEFINITION. The named operations over memory, FIFOs, pins and the sequencer's position: the access primitives of R74 to R79
as lines of pseudocode and what each line does, taking a precondition violation (R333), ending an operation (R331), and
power-on reset, the only way back from a violation (R340, R360). -/

namespace Sys2Proof.Machine

/-- The outcome of one step or meaning. -/
abbrev Result := Host.Outcome State Fault Refusal

/-! ### The host's memories (R41, R70, R80) -/

/-- The byte at an address. -/
def Memory.readByte (m : Memory) (a : Nat) : Byte :=
  match m with
  | [] => Memory.unlisted
  | (k, c) :: rest => if k = a then c else Memory.readByte rest a

/-- Writes a byte, keeping the canonical form. -/
def Memory.writeByte (m : Memory) (a : Nat) (b : Byte) : Memory :=
  match m with
  | [] => if b = Memory.unlisted then [] else [(a, b)]
  | (k, c) :: rest =>
    if k < a then (k, c) :: Memory.writeByte rest a b
    else if k = a then (if b = Memory.unlisted then rest else (a, b) :: rest)
    else if b = Memory.unlisted then (k, c) :: rest
    else (a, b) :: (k, c) :: rest

/-- Word `i`: byte `2i` is its low byte, byte `2i+1` its high byte (R80). -/
def Memory.readWord (m : Memory) (i : Nat) : BusWord := m.readByte (2 * i + 1) ++ m.readByte (2 * i)

/-- Stores word `i` (R80). -/
def Memory.writeWord (m : Memory) (i : Nat) (w : BusWord) : Memory :=
  (m.writeByte (2 * i) (w.extractLsb' 0 8)).writeByte (2 * i + 1) (w.extractLsb' 8 8)

/-- The 512 bytes of the first 256 words (R241). -/
def Memory.firstWords (m : Memory) (n : Nat) : Memory := m.filter fun c => decide (c.1 < 2 * n)

/-! ### FIFOs (R33) and the lane-idle predicates (R37) -/

/-- `full(Q)`: the FIFO holds `FIFO_DEPTH` entries (R33). -/
def isFull {α : Type} (p : Config.Params) (q : List α) : Bool := decide (p.fifoDepth ≤ q.length)

/-- `Idle(RD)` (R37). -/
def State.idleRd (s : State) : Bool := s.pcRd == 0#3 && s.inqRd.isEmpty && s.rxq.isEmpty && !s.rdStb

/-- `Idle(WR)` (R37). -/
def State.idleWr (s : State) : Bool := s.pcWr == 0#2 && s.inqWr.isEmpty && !s.wrStb && !s.ddOe

/-- Both lanes idle: what every access primitive requires and re-establishes (R74). -/
def State.lanesIdle (s : State) : Bool := s.idleRd && s.idleWr

/-- Records a bus event (R13). -/
def State.event (s : State) (e : BusEvent) : State := { s with trace := s.trace ++ [e] }

/-! ### Taking an exception, and ending an operation -/

/-- `raise PreconditionViolation(r)` (R333): `RES` FATAL, `OPSTATE` FAULTED, nothing else of the engine changes; the reason is
kept (R331). -/
def raiseViolation (r : Violation) (s : State) : Result :=
  .next { s with res := .fatal, opstate := .faulted, reason := some r }

/-- The end of an operation (R101, R331): `RES` set, `OPSTATE` IDLE. Every operation ends with both lanes idle (R37), so an
access still under way here is U1. `SECT_REM` and `POLLCNT`, unspecified between operations (R38), keep the values last written:
DESIGN CHOICE, unsafe (log entry 31). -/
def finish (r : ResCode) (s : State) : Result :=
  match s.access with
  | .none => .next { s with res := r, opstate := .idle }
  | _ => .fault .overlappingAccess

/-- Power-on reset (R360): every field of R20 at its reset value. It is no operation and touches neither the environment's
inputs nor the host's memories nor the record of bus events; it takes back the request. Taken while `RST` is 1 it puts `RST` to
0 and records no `RST(0)`: R360 and R361 name no event here, and recording none is a DESIGN CHOICE, unsafe (log entry 6). There
is no other return from FAULTED (R340). -/
def State.powerOnReset (s : State) : State :=
  { State.reset with
    trace := s.trace, emitted := s.emitted, buf := s.buf, idArr := s.idArr, answer := s.answer,
    samples := s.samples, drawn := s.drawn, port := s.port, pace := s.pace, params := s.params }

/-- The command port's handshake (R101): a command word is accepted only in IDLE. -/
def accept (s : State) (body : Result) : Result :=
  match s.opstate with
  | .idle => body
  | .busy _ => .refused .portBusy
  | .faulted => .fault .engineFaulted

/-- Acceptance of an operation with these lines of pseudocode: `OPSTATE` BUSY at the first of them (R101). -/
def State.begin (s : State) (code : List SeqOp) : State := { s with opstate := .busy code }

/-- Runs an internal procedure's lines before what is left of the running operation. Issued while IDLE the procedure is an
operation of its own, as `wrcmd` is (R119; log entry 14). -/
def callProc (code : List SeqOp) (s : State) : Result :=
  match s.opstate with
  | .idle => .next { s with opstate := .busy code }
  | .busy rest => .next { s with opstate := .busy (code ++ rest) }
  | .faulted => .fault .engineFaulted

/-! ### The access primitives as lines of pseudocode (R75 to R79) -/

/-- `MemRead(ra, 2)` (R76); the hand-off value of one word is 0. -/
def memRead (ra : BitVec 4) : List SeqOp :=
  [.setAddr ra, .handRd 0#32, .clearStalled .rd, .await .rd, .take]

/-- `MemWrite(ra, 2, v)` (R77). -/
def memWrite (ra : BitVec 4) (v : BusWord) : List SeqOp :=
  [.setAddr ra, .handWr v, .clearStalled .wr, .await .wr]

/-- `MemReadBurst(ra, n)` with its words emitted (R78, R230, R232). -/
def memReadBurst (ra : BitVec 4) (n : BitVec 32) : List SeqOp :=
  [.setAddr ra, .handRd (handOff n), .clearStalled .rd, .drain]

/-- `MemWriteBurst(ra, ws)` (R79). -/
def memWriteBurst (ra : BitVec 4) (ws : List BusWord) : List SeqOp :=
  .setAddr ra :: (ws.map .handWr ++ [.clearStalled .wr, .await .wr])

/-- `PioRead(n)` (R230): the data-request gate, then one burst from DATA. A false gate ends the operation with FAIL in the
branch itself. -/
def pioRead (n : BitVec 32) : List SeqOp := .pollStart .drq :: memReadBurst Config.raData n

/-- `SelectDevice(dev)` (R211). -/
def selectDevice (p : Config.Params) (dev : BitVec 1) : List SeqOp := memWrite Config.raDevice (zext16 (devByteSel p dev))

/-- `SelectDeviceLBA(dev, lba)` (R211). -/
def selectDeviceLba (p : Config.Params) (dev : BitVec 1) (lba : BitVec 32) : List SeqOp :=
  memWrite Config.raDevice (zext16 (devByteLba p dev lba))

/-- `IssueCommand(c)` (R212). -/
def issueCommand (c : Byte) : List SeqOp := memWrite Config.raStatus (zext16 c)

/-- `PacketSetup(dev, limit)` without its command write (R260). -/
def packetRegisters (p : Config.Params) (dev : BitVec 1) (limit : BitVec 16) : List SeqOp :=
  memWrite Config.raError 0#16 ++ memWrite Config.raLbaMid (zext16 (limitLow limit)) ++
    memWrite Config.raLbaHigh (zext16 (limitHigh limit)) ++ selectDevice p dev

/-! ### What a line does -/

/-- `SetAddr(ra)` (R180): both chip selects and the address lines together, event `ADDR(ra)`. It begins an access, so both
lanes must be idle and no other access under way (R74, R183). -/
def setAddr (ra : BitVec 4) (s : State) : Result :=
  if s.access = .none ∧ s.lanesIdle = true then
    .next { s with cs := csOf ra, da := daOf ra, access := .addressed, trace := s.trace ++ [addrEvent ra] }
  else .fault .overlappingAccess

/-- `push(INQ[RD], w)` of the access under way (R75, R76); its hand-off is made once, so the FIFO has room for it (R26). -/
def pushRd (w : BitVec 32) (s : State) : Result :=
  match s.access with
  | .addressed => .next { s with inqRd := s.inqRd ++ [w], access := .reading }
  | _ => .fault .overlappingAccess

/-- `push(INQ[WR], w)` of the access under way (R75, R77, R79). -/
def pushWr (w : BusWord) (s : State) : Result :=
  match s.access with
  | .addressed | .writing => .next { s with inqWr := s.inqWr ++ [w], access := .writing }
  | _ => .fault .overlappingAccess

/-- The return of an access primitive, which "re-establishes" that both lanes are idle (R74). -/
def endAccess (s : State) : Result :=
  if s.lanesIdle = true then .next { s with access := .none } else .fault .overlappingAccess

/-- `v <- pop(RXQ)` of a one-word read, and the return of the primitive (R76). -/
def takeSample (v : BusWord) (rest : List BusWord) (s : State) : Result :=
  match s.access with
  | .reading => endAccess { s with rxq := rest, smp := v }
  | _ => .fault .overlappingAccess

/-- `pop(RXQ)` of a burst and `emit` (R78, R232): the host stores the word at the stream position. R232 fixes the order of the
words and not the moment, and R78 returns them together: that a word is in the buffer at its pop and not only after the burst is
a DESIGN CHOICE, unsafe (log entry 29). -/
def emitWord (v : BusWord) (rest : List BusWord) (s : State) : State :=
  { s with rxq := rest, buf := s.buf.writeWord s.emitted v, emitted := s.emitted + 1 }

/-- One bus word drawn from the environment: the script's next, or the oracle's once the script is used up (R90). -/
def State.nextSample (s : State) : BusWord :=
  match s.samples with
  | v :: _ => v
  | [] => Config.deviceSample s.drawn

end Sys2Proof.Machine
end

