-- ==== Sys2Proof/Machine/Commands.lean ====
section
/-! DEFINITION. The ATA commands, `IssueCommand(c)` for each of the five bytes (R114, R212), and the SCSI commands of a packet,
forwarded as six words to the WR lane (R115, R262). -/

namespace Sys2Proof.Machine

/-- `IssueCommand(DEVICE_RESET)` (R205, R212). -/
def execCmdDeviceReset (s : State) : Result := callProc (issueCommand Config.cmdDeviceReset) s
/-- `IssueCommand(READ_SECTOR)` (R212, R236). -/
def execCmdReadSectors (s : State) : Result := callProc (issueCommand Config.cmdReadSectors) s
/-- `IssueCommand(PACKET)` (R212, R260). -/
def execCmdPacket (s : State) : Result := callProc (issueCommand Config.cmdPacket) s
/-- `IssueCommand(IDENTIFY PACKET DEVICE)` (R212, R240). -/
def execCmdIdentifyPacketDevice (s : State) : Result := callProc (issueCommand Config.cmdIdentifyPacketDevice) s
/-- `IssueCommand(IDENTIFY DEVICE)` (R212, R240). -/
def execCmdIdentifyDevice (s : State) : Result := callProc (issueCommand Config.cmdIdentifyDevice) s

/-- The packet of PACKET (R262): one `MemWriteBurst` of the six packet words to DATA. The engine interprets no byte of the
CDB, so this is what it does for any byte 0 (R115, R265). -/
def forwardPacket (cdb : Cdb) (s : State) : Result := callProc (memWriteBurst Config.raData (packetWords cdb)) s

/-- A packet whose byte 0 is TEST_UNIT_READY (R115). -/
def execScsiTestUnitReady (body : CdbBody) (s : State) : Result := forwardPacket ⟨Config.scsiTestUnitReady, body⟩ s
/-- A packet whose byte 0 is INQUIRY (R115). -/
def execScsiInquiry (body : CdbBody) (s : State) : Result := forwardPacket ⟨Config.scsiInquiry, body⟩ s
/-- A packet whose byte 0 is READ_10 (R115). -/
def execScsiRead10 (body : CdbBody) (s : State) : Result := forwardPacket ⟨Config.scsiRead10, body⟩ s

end Sys2Proof.Machine
end

