-- ==== Sys2Proof/Machine/Identify.lean ====
section
/-! DEFINITION. The identify decoder (R280 to R321): each accessor a pure function of the 256-word identify array, and the
instruction that gives its value to the host. -/

namespace Sys2Proof.Machine

/-- Bit `b` of word `i` of the identify array (R280: "a pure bit-level view"). -/
def idBit (id : Memory) (i b : Nat) : Bool := (id.readWord i).getLsbD b

/-- `device_class`, word 0 bits 15:14 (R282). -/
def deviceClass (id : Memory) : BitVec 2 := (id.readWord 0).extractLsb' 14 2

/-- `is_atapi` (R283, C3): the one definition of the class mapping, with `isAta`. -/
def isAtapi (id : Memory) : Bool := deviceClass id == 0b10#2

/-- `is_ata` (R283). -/
def isAta (id : Memory) : Bool := !idBit id 0 15

/-- `removable` (R284). -/
def removable (id : Memory) : Bool := idBit id 0 7

/-- `response_incomplete` (R285). -/
def responseIncomplete (id : Memory) : Bool := idBit id 0 2

/-- `packet_size` (R321). -/
def packetSize (id : Memory) : Option Nat :=
  match ((id.readWord 0).extractLsb' 0 2).toNat with
  | 0 => some 12
  | 1 => some 16
  | _ => none

/-- The characters of `nwords` words from `first`: the high byte of each word before its low byte (R290). -/
def stringBytes (id : Memory) (first : Nat) : Nat → List Byte
  | 0 => []
  | n + 1 => (id.readWord first).extractLsb' 8 8 :: (id.readWord first).extractLsb' 0 8 :: stringBytes id (first + 1) n

/-- `string(id, first, nwords)` (R290): the characters as they are, and the terminating NUL. -/
def idString (id : Memory) (first nwords : Nat) : List Byte := stringBytes id first nwords ++ [0#8]

/-- `serial_number` (R291). -/
def serialNumber (id : Memory) : List Byte := idString id 10 10
/-- `firmware_revision` (R292). -/
def firmwareRevision (id : Memory) : List Byte := idString id 23 4
/-- `model_number` (R293). -/
def modelNumber (id : Memory) : List Byte := idString id 27 20

/-- `fields_valid`, word 53 bits 2:0 (R295). -/
def fieldsValid (id : Memory) : BitVec 3 := (id.readWord 53).extractLsb' 0 3

/-- A value read from a word that word 53 bit 1 validates (R295, R296). -/
def gated53 {α : Type} (id : Memory) (v : α) : Option α := if idBit id 53 1 then some v else none

/-- `iordy_supported` (R297). -/
def iordySupported (id : Memory) : Bool := idBit id 49 11
/-- `iordy_can_disable` (R297). -/
def iordyCanDisable (id : Memory) : Bool := idBit id 49 10

/-- `adv_pio_modes` (R298). -/
def advPioModes (id : Memory) : Option (BitVec 2) := gated53 id ((id.readWord 64).extractLsb' 0 2)

/-- `max_pio_mode` (R298). -/
def maxPioMode (id : Memory) : Option Nat :=
  match advPioModes id with
  | none => none
  | some m => if m.getLsbD 1 then some 4 else if m.getLsbD 0 then some 3 else none

/-- `min_pio_cycle_time` (R299). -/
def minPioCycleTime (id : Memory) : Option BusWord := gated53 id (id.readWord 67)
/-- `min_pio_cycle_time_iordy` (R300). -/
def minPioCycleTimeIordy (id : Memory) : Option BusWord := gated53 id (id.readWord 68)

/-- `queue_depth`, `(word75 & 0x1F) + 1` (R301). -/
def queueDepth (id : Memory) : Nat := ((id.readWord 75).extractLsb' 0 5).toNat + 1

/-- The highest set bit below bit `n` of a word (R302). -/
def highestSetBit (w : BusWord) : Nat → Option Nat
  | 0 => none
  | n + 1 => if w.getLsbD n then some n else highestSetBit w n

/-- `major_version` (R302). -/
def majorVersion (id : Memory) : Option Nat := highestSetBit (id.readWord 80) 16

/-- The word index of a feature word (R305). -/
def featureIndex : FeatureWord → Nat
  | .w82 => 82
  | .w83 => 83
  | .w84 => 84
  | .w119 => 119

/-- Whether a feature word is valid: word 82 always, the others when bits 15:14 are 0b01 (R305). -/
def featureValid (id : Memory) (w : FeatureWord) : Bool :=
  match w with
  | .w82 => true
  | .w83 | .w84 | .w119 => (id.readWord (featureIndex w)).extractLsb' 14 2 == 0b01#2

/-- `feature(id, w, b)` (R305). -/
def feature (id : Memory) (w : FeatureWord) (b : BitVec 4) : Option Bool :=
  if featureValid id w then some (idBit id (featureIndex w) b.toNat) else none

/-- `checksum_valid`: word 255's low byte is the signature 0xA5 (R310). -/
def checksumValid (id : Memory) : Bool := (id.readWord 255).extractLsb' 0 8 == 0xA5#8

/-- The sum of both bytes of the first `n` words (R312). -/
def byteSumUpTo (id : Memory) : Nat → Nat
  | 0 => 0
  | n + 1 => byteSumUpTo id n + ((id.readWord n).extractLsb' 0 8).toNat + ((id.readWord n).extractLsb' 8 8).toNat

/-- `byte_sum` (R312). -/
def byteSum (id : Memory) : Nat := byteSumUpTo id Config.idWords % 256

/-- `checksum_sum_ok` (R312). -/
def checksumSumOk (id : Memory) : Option Bool := if checksumValid id then some (byteSum id == 0) else none

/-- `capacity_sectors`, word 61 above word 60 (R316): a view of the array whatever the device class, though only an ATA device's
sector count (U16; log entry 30). -/
def capacitySectors (id : Memory) : BitVec 32 := id.readWord 61 ++ id.readWord 60

/-- `sector_size`, the constant 2 x `SECTOR_WORDS` (R242). -/
def sectorSize : Nat := 2 * Config.sectorWords

/-- RETIME's condition and operand (R320): the cycle time CONFIGURE is given, word 68 verbatim, or none. -/
def retimeCycleTime (id : Memory) : Option (BitVec 32) :=
  if idBit id 53 1 && (id.readWord 64).extractLsb' 0 2 != 0#2 then some ((id.readWord 68).setWidth 32) else none

/-! ### The value an accessor gives the host -/

/-- A numeric accessor that may give none. -/
def IdValue.ofNat? : Option Nat → IdValue
  | none => .absent
  | some n => .num n

/-- A boolean accessor that may give none. -/
def IdValue.ofBool? : Option Bool → IdValue
  | none => .absent
  | some b => .flag b

/-- The decoder gives a value to the host and changes nothing else (R280). -/
def tell (v : IdValue) (s : State) : Result := .next { s with answer := v }

/-- `device_class` (R282). -/
def execIdDeviceClass (s : State) : Result := tell (.num (deviceClass s.idArr).toNat) s
/-- `is_atapi` (R283). -/
def execIdIsAtapi (s : State) : Result := tell (.flag (isAtapi s.idArr)) s
/-- `removable` (R284). -/
def execIdRemovable (s : State) : Result := tell (.flag (removable s.idArr)) s
/-- `response_incomplete` (R285). -/
def execIdResponseIncomplete (s : State) : Result := tell (.flag (responseIncomplete s.idArr)) s
/-- `packet_size` (R321). -/
def execIdPacketSize (s : State) : Result := tell (.ofNat? (packetSize s.idArr)) s
/-- `serial_number` (R291). -/
def execIdSerialNumber (s : State) : Result := tell (.text (serialNumber s.idArr)) s
/-- `firmware_revision` (R292). -/
def execIdFirmwareRevision (s : State) : Result := tell (.text (firmwareRevision s.idArr)) s
/-- `model_number` (R293). -/
def execIdModelNumber (s : State) : Result := tell (.text (modelNumber s.idArr)) s
/-- `iordy_supported` (R297). -/
def execIdIordySupported (s : State) : Result := tell (.flag (iordySupported s.idArr)) s
/-- `iordy_can_disable` (R297). -/
def execIdIordyCanDisable (s : State) : Result := tell (.flag (iordyCanDisable s.idArr)) s
/-- `fields_valid` (R295). -/
def execIdFieldsValid (s : State) : Result := tell (.num (fieldsValid s.idArr).toNat) s
/-- `capacity_sectors` (R316). -/
def execIdCapacitySectors (s : State) : Result := tell (.num (capacitySectors s.idArr).toNat) s
/-- `adv_pio_modes` (R298). -/
def execIdAdvPioModes (s : State) : Result := tell (.ofNat? ((advPioModes s.idArr).map BitVec.toNat)) s
/-- `min_pio_cycle_time` (R299). -/
def execIdMinPioCycleTime (s : State) : Result := tell (.ofNat? ((minPioCycleTime s.idArr).map BitVec.toNat)) s
/-- `min_pio_cycle_time_iordy` (R300). -/
def execIdMinPioCycleTimeIordy (s : State) : Result := tell (.ofNat? ((minPioCycleTimeIordy s.idArr).map BitVec.toNat)) s
/-- `queue_depth` (R301). -/
def execIdQueueDepth (s : State) : Result := tell (.num (queueDepth s.idArr)) s
/-- `major_version` (R302). -/
def execIdMajorVersion (s : State) : Result := tell (.ofNat? (majorVersion s.idArr)) s
/-- `feature(id, w, b)` (R305). -/
def execIdFeature (w : FeatureWord) (b : BitVec 4) (s : State) : Result := tell (.ofBool? (feature s.idArr w b)) s
/-- `checksum_valid` (R310). -/
def execIdChecksumValid (s : State) : Result := tell (.flag (checksumValid s.idArr)) s
/-- `checksum_sum_ok` (R312). -/
def execIdChecksumSumOk (s : State) : Result := tell (.ofBool? (checksumSumOk s.idArr)) s

/-! ### What the host asks for beside the rows of the table -/

/-- `is_ata` (R283). -/
def tellIsAta (s : State) : Result := tell (.flag (isAta s.idArr)) s
/-- `max_pio_mode` (R298). -/
def tellMaxPioMode (s : State) : Result := tell (.ofNat? (maxPioMode s.idArr)) s
/-- `sector_count` of `capacity()`: words 61:60 of an ATA device (R316). For ATAPI media U16 calls it not defined, and R316's words
are "meaningful for ATA devices only": there, and for the reserved class, the model answers a free value, DESIGN CHOICE, safe (log
entry 30). -/
def capacityCount (id : Memory) : Nat :=
  if isAta id then (capacitySectors id).toNat else Config.sectorCountNotAta id

/-- `capacity() -> sector_count, sector_size` (R242). The count for media that are not ATA is a free value (`capacityCount`). -/
def tellCapacity (s : State) : Result := tell (.capacity (capacityCount s.idArr) sectorSize) s
/-- The `n`-th entry of `FLAG_TABLE` (R305); beyond the table there is no flag to give. -/
def tellNamedFlag (n : Nat) (s : State) : Result :=
  match s.params.flagTable[n]? with
  | none => tell .absent s
  | some f => tell (.ofBool? (feature s.idArr f.word f.bit)) s

end Sys2Proof.Machine
end

