-- ==== Sys2Proof/Machine/Lanes.lean ====
section
/-! DEFINITION. The lane micro-instructions: the RD lane's five slots (R150 to R154) and the WR lane's four (R155 to R158), each
one atomic step at a lane tick (R147). -/

namespace Sys2Proof.Machine

/-- RD slot 0 `GETCNT` (R150). -/
def execRdGetcnt (s : State) : Result :=
  match s.inqRd with
  | [] => .next { s with stalledRd := true, pcRd := 0#3 }
  | w :: rest => .next { s with x := w, inqRd := rest, pcRd := 1#3 }

/-- RD slot 1 `RSTB_LO` (R151). -/
def execRdRstbLo (s : State) : Result := .next { s with rdStb := true, pcRd := 2#3 }

/-- RD slot 2 `RHOLD` (R152). -/
def execRdRhold (s : State) : Result := .next { s with pcRd := 3#3 }

/-- RD slot 3 `SAMPLE` (R153): a full `RXQ` stalls the lane with its strobe asserted; else the value on the data lines at this
tick is pushed, and is the value of the bus event `RD(ra, v)` (R13, R159). -/
def execRdSample (s : State) : Result :=
  if isFull s.params s.rxq then .next { s with pcRd := 3#3 }
  else .next { s with
    rxq := s.rxq ++ [s.nextSample], samples := s.samples.tail, drawn := s.drawn + 1, pcRd := 4#3,
    trace := s.trace ++ [.rd s.cs s.da s.nextSample] }

/-- RD slot 4 `RSTB_HI_LOOP` (R154). -/
def execRdRstbHiLoop (s : State) : Result :=
  if s.x = 0#32 then .next { s with rdStb := false, pcRd := 0#3 }
  else .next { s with rdStb := false, x := s.x - 1#32, pcRd := 1#3 }

/-- WR slot 0 `GETDATA` (R155). -/
def execWrGetdata (s : State) : Result :=
  match s.inqWr with
  | [] => .next { s with stalledWr := true, ddOe := false, pcWr := 0#2 }
  | w :: rest => .next { s with osr := w, inqWr := rest, ddOut := w, ddOe := true, pcWr := 1#2 }

/-- WR slot 1 `WSTB_LO` (R156). -/
def execWrWstbLo (s : State) : Result := .next { s with wrStb := true, pcWr := 2#2 }

/-- WR slot 2 `WHOLD` (R157). -/
def execWrWhold (s : State) : Result := .next { s with pcWr := 3#2 }

/-- WR slot 3 `WSTB_HI` (R158): negates the strobe, "ending the bus event `WR(ra, OSR)`"; `DD_OE` stays. -/
def execWrWstbHi (s : State) : Result :=
  .next { s with wrStb := false, pcWr := 0#2, trace := s.trace ++ [.wr s.cs s.da s.osr] }

end Sys2Proof.Machine
end

