-- ==== Sys2Proof/Machine/Operations.lean ====
section
/-! DEFINITION. The host operations (R100) and the reserved operation codes (R105): what accepting each one does. An accepted
operation's pseudocode becomes the sequencer's position, one line per `SeqOp`; CONFIGURE runs as one atomic step (R86). -/

namespace Sys2Proof.Machine

/-- CONFIGURE (R143): the operand check, the idle-lanes requirement (R144), then disable, divisor, phases, enable, OK. -/
def execConfigure (ct : BitVec 32) (s : State) : Result :=
  accept s <|
    if Config.divMax < divisor s.params ct.toNat then raiseViolation .divisorRange s
    else if s.lanesIdle = true then
      finish .ok { s with
        enRd := true, enWr := true, div := BitVec.ofNat 16 (divisor s.params ct.toNat)
        phaseRd := 0#16, phaseWr := 0#16 }
    else .fault .reconfigureInFlight

/-- RDREG (R184). -/
def execRdreg (ra : BitVec 4) (s : State) : Result :=
  accept s <|
    if isEnumerator ra then .next (s.begin (memRead ra ++ [.setRval]))
    else raiseViolation .reservedEncoding s

/-- WRREG (R185): the value goes out unmasked. -/
def execWrreg (ra : BitVec 4) (v : BusWord) (s : State) : Result :=
  accept s <|
    if isEnumerator ra then .next (s.begin (memWrite ra v))
    else raiseViolation .reservedEncoding s

/-- HWRESET (R204). -/
def execHwreset (s : State) : Result :=
  accept s <| .next (s.begin
    [ .setRst true, .delay s.params.tRstLowNs, .setRst false, .delay s.params.tRstSettleNs, .pollStart .notBusy ])

/-- DEVRESET (R205): ERR is taken from the sample in which BSY was found clear. -/
def execDevreset (dev : BitVec 1) (s : State) : Result :=
  accept s <| .next (s.begin
    (selectDevice s.params dev ++
      [ .issue Config.cmdDeviceReset, .pollStart .notBusy, .test .err, .branch .devResetErr ]))

/-- ISREADY (R208): one poll, no loop. -/
def execIsready (s : State) : Result :=
  accept s <| .next (s.begin (memRead Config.raStatus ++ [.test .bsy, .branch .isReadyBsy]))

/-- PIOREAD (R233). -/
def execPioread (n : BitVec 32) (s : State) : Result :=
  accept s <|
    if n = 0#32 then raiseViolation .wordCount s
    else .next { s.begin (pioRead n) with emitted := 0 }

/-- RDSECT (R236): the count is checked before the LBA (R338); the ready wait precedes the Device register write (R379). -/
def execRdsect (dev : BitVec 1) (lba : BitVec 32) (count : BitVec 16) (s : State) : Result :=
  accept s <|
    if count.toNat = 0 ∨ 256 < count.toNat then raiseViolation .sectorCount s
    else if 2 ^ 28 ≤ lba.toNat then raiseViolation .lbaRange s
    else .next { s.begin
        ([.pollStart .ready] ++ memWrite Config.raSectorCount (zext16 (sectorCountByte count)) ++
          memWrite Config.raLbaLow (zext16 (lbaLow lba)) ++ memWrite Config.raLbaMid (zext16 (lbaMid lba)) ++
          memWrite Config.raLbaHigh (zext16 (lbaHigh lba)) ++ selectDeviceLba s.params dev lba ++
          [.issue Config.cmdReadSectors, .setSectRem (count.setWidth 9), .sectTop]) with emitted := 0 }

/-- IDENT (R240): no readiness wait before the command. The 256 emitted words are the identify array (R241). -/
def execIdent (dev : BitVec 1) (idc : BitVec 1) (s : State) : Result :=
  accept s <| .next { s.begin
    (selectDevice s.params dev ++ [.issue (identCommand idc)] ++ pioRead 256#32 ++ [.capture]) with emitted := 0 }

/-- PACKET (R262): set-up, command, data-request gate, the packet, the dummy Alternate Status read (R263). -/
def execPacket (dev : BitVec 1) (limit : BitVec 16) (cdb : Cdb) (s : State) : Result :=
  accept s <| .next (s.begin
    (packetRegisters s.params dev limit ++
      [.issue Config.cmdPacket, .pollStart .drq, .sendPacket cdb] ++ memRead Config.raAltStatus))

/-- Reserved `OPC` 0x0 (R105). -/
def execReservedOpc0 (s : State) : Result := accept s <| raiseViolation .reservedEncoding s
/-- Reserved `OPC` 0xB (R105). -/
def execReservedOpcB (s : State) : Result := accept s <| raiseViolation .reservedEncoding s
/-- Reserved `OPC` 0xC (R105). -/
def execReservedOpcC (s : State) : Result := accept s <| raiseViolation .reservedEncoding s
/-- Reserved `OPC` 0xD (R105). -/
def execReservedOpcD (s : State) : Result := accept s <| raiseViolation .reservedEncoding s
/-- Reserved `OPC` 0xE (R105). -/
def execReservedOpcE (s : State) : Result := accept s <| raiseViolation .reservedEncoding s
/-- Reserved `OPC` 0xF (R105). -/
def execReservedOpcF (s : State) : Result := accept s <| raiseViolation .reservedEncoding s

end Sys2Proof.Machine
end

