-- ==== Sys2Proof/Machine/Registers.lean ====
section
/-! DEFINITION. The register address codes: each of the nine enumerators drives the chip-select and address lines (R180), each
of the seven other codes is a reserved encoding (R105, R109). -/

namespace Sys2Proof.Machine

/-- `SetAddr(DATA)` (R180). -/
def execRaData (s : State) : Result := setAddr Config.raData s
/-- `SetAddr(ERROR)`, `SetAddr(FEATURES)` (R180). -/
def execRaErrorFeatures (s : State) : Result := setAddr Config.raError s
/-- `SetAddr(SECTOR_COUNT)` (R180). -/
def execRaSectorCount (s : State) : Result := setAddr Config.raSectorCount s
/-- `SetAddr(LBA_LOW)` (R180). -/
def execRaLbaLow (s : State) : Result := setAddr Config.raLbaLow s
/-- `SetAddr(LBA_MID)` (R180). -/
def execRaLbaMid (s : State) : Result := setAddr Config.raLbaMid s
/-- `SetAddr(LBA_HIGH)` (R180). -/
def execRaLbaHigh (s : State) : Result := setAddr Config.raLbaHigh s
/-- `SetAddr(DEVICE)` (R180). -/
def execRaDevice (s : State) : Result := setAddr Config.raDevice s
/-- `SetAddr(STATUS)`, `SetAddr(COMMAND)` (R180). -/
def execRaStatusCommand (s : State) : Result := setAddr Config.raStatus s
/-- `SetAddr(ALT_STATUS)` (R180). -/
def execRaAltStatus (s : State) : Result := setAddr Config.raAltStatus s

/-- `RA` 0x8 names no enumerator (R109). -/
def execRaReserved8 (s : State) : Result := raiseViolation .reservedEncoding s
/-- `RA` 0x9 names no enumerator (R109). -/
def execRaReserved9 (s : State) : Result := raiseViolation .reservedEncoding s
/-- `RA` 0xA names no enumerator (R109). -/
def execRaReservedA (s : State) : Result := raiseViolation .reservedEncoding s
/-- `RA` 0xB names no enumerator (R109). -/
def execRaReservedB (s : State) : Result := raiseViolation .reservedEncoding s
/-- `RA` 0xC names no enumerator (R109). -/
def execRaReservedC (s : State) : Result := raiseViolation .reservedEncoding s
/-- `RA` 0xD names no enumerator (R109). -/
def execRaReservedD (s : State) : Result := raiseViolation .reservedEncoding s
/-- `RA` 0xF names no enumerator (R109). -/
def execRaReservedF (s : State) : Result := raiseViolation .reservedEncoding s

end Sys2Proof.Machine
end

