-- ==== Sys2Proof/Machine/Status.lean ====
section
/-! DEFINITION. The status bits: the test of one named bit of the sample just polled (R110, R200). The branch that follows the
test is the sequencer's (R206 to R209). -/

namespace Sys2Proof.Machine

/-- Tests a named bit of the sequencer's sample (R200). -/
def testStatus (b : StatusBit) (s : State) : Result := .next { s with cond := statusBit b s.smp }

/-- The BSY test, the first of every polling rule (R110). -/
def execStBsy (s : State) : Result := testStatus .bsy s
/-- The DRDY test of ISREADY and `WaitReady` (R110). -/
def execStDrdy (s : State) : Result := testStatus .drdy s
/-- DF is a named bit that no rule tests (R39, R213): the test exists, and no operation's pseudocode holds it. -/
def execStDf (s : State) : Result := testStatus .df s
/-- The DRQ test of `WaitDRQ` (R110). -/
def execStDrq (s : State) : Result := testStatus .drq s
/-- The ERR test of `WaitDRQ` and DEVRESET (R110). -/
def execStErr (s : State) : Result := testStatus .err s

end Sys2Proof.Machine
end

