-- ==== Sys2Proof/Machine/Dispatch.lean ====
section
/-! DEFINITION. The dispatch: one arm per constructor of Instr, each one direct call of the instruction's own meaning. -/

namespace Sys2Proof.Machine

/-- What an instruction does. -/
def exec (i : Instr) (s : State) : Host.Outcome State Fault Refusal :=
  match i with
  | .configure ct => Sys2Proof.Machine.execConfigure ct s
  | .rdreg ra => Sys2Proof.Machine.execRdreg ra s
  | .wrreg ra v => Sys2Proof.Machine.execWrreg ra v s
  | .hwreset => Sys2Proof.Machine.execHwreset s
  | .devreset dev => Sys2Proof.Machine.execDevreset dev s
  | .isready => Sys2Proof.Machine.execIsready s
  | .pioread n => Sys2Proof.Machine.execPioread n s
  | .rdsect dev lba count => Sys2Proof.Machine.execRdsect dev lba count s
  | .ident dev idc => Sys2Proof.Machine.execIdent dev idc s
  | .packet dev limit cdb => Sys2Proof.Machine.execPacket dev limit cdb s
  | .reservedOpc0 _ => Sys2Proof.Machine.execReservedOpc0 s
  | .reservedOpcB _ => Sys2Proof.Machine.execReservedOpcB s
  | .reservedOpcC _ => Sys2Proof.Machine.execReservedOpcC s
  | .reservedOpcD _ => Sys2Proof.Machine.execReservedOpcD s
  | .reservedOpcE _ => Sys2Proof.Machine.execReservedOpcE s
  | .reservedOpcF _ => Sys2Proof.Machine.execReservedOpcF s
  | .raData => Sys2Proof.Machine.execRaData s
  | .raErrorFeatures => Sys2Proof.Machine.execRaErrorFeatures s
  | .raSectorCount => Sys2Proof.Machine.execRaSectorCount s
  | .raLbaLow => Sys2Proof.Machine.execRaLbaLow s
  | .raLbaMid => Sys2Proof.Machine.execRaLbaMid s
  | .raLbaHigh => Sys2Proof.Machine.execRaLbaHigh s
  | .raDevice => Sys2Proof.Machine.execRaDevice s
  | .raStatusCommand => Sys2Proof.Machine.execRaStatusCommand s
  | .raAltStatus => Sys2Proof.Machine.execRaAltStatus s
  | .raReserved8 => Sys2Proof.Machine.execRaReserved8 s
  | .raReserved9 => Sys2Proof.Machine.execRaReserved9 s
  | .raReservedA => Sys2Proof.Machine.execRaReservedA s
  | .raReservedB => Sys2Proof.Machine.execRaReservedB s
  | .raReservedC => Sys2Proof.Machine.execRaReservedC s
  | .raReservedD => Sys2Proof.Machine.execRaReservedD s
  | .raReservedF => Sys2Proof.Machine.execRaReservedF s
  | .stBsy => Sys2Proof.Machine.execStBsy s
  | .stDrdy => Sys2Proof.Machine.execStDrdy s
  | .stDf => Sys2Proof.Machine.execStDf s
  | .stDrq => Sys2Proof.Machine.execStDrq s
  | .stErr => Sys2Proof.Machine.execStErr s
  | .cmdDeviceReset => Sys2Proof.Machine.execCmdDeviceReset s
  | .cmdReadSectors => Sys2Proof.Machine.execCmdReadSectors s
  | .cmdPacket => Sys2Proof.Machine.execCmdPacket s
  | .cmdIdentifyPacketDevice => Sys2Proof.Machine.execCmdIdentifyPacketDevice s
  | .cmdIdentifyDevice => Sys2Proof.Machine.execCmdIdentifyDevice s
  | .scsiTestUnitReady body => Sys2Proof.Machine.execScsiTestUnitReady body s
  | .scsiInquiry body => Sys2Proof.Machine.execScsiInquiry body s
  | .scsiRead10 body => Sys2Proof.Machine.execScsiRead10 body s
  | .rdGetcnt => Sys2Proof.Machine.execRdGetcnt s
  | .rdRstbLo => Sys2Proof.Machine.execRdRstbLo s
  | .rdRhold => Sys2Proof.Machine.execRdRhold s
  | .rdSample => Sys2Proof.Machine.execRdSample s
  | .rdRstbHiLoop => Sys2Proof.Machine.execRdRstbHiLoop s
  | .wrGetdata => Sys2Proof.Machine.execWrGetdata s
  | .wrWstbLo => Sys2Proof.Machine.execWrWstbLo s
  | .wrWhold => Sys2Proof.Machine.execWrWhold s
  | .wrWstbHi => Sys2Proof.Machine.execWrWstbHi s
  | .idDeviceClass => Sys2Proof.Machine.execIdDeviceClass s
  | .idIsAtapi => Sys2Proof.Machine.execIdIsAtapi s
  | .idRemovable => Sys2Proof.Machine.execIdRemovable s
  | .idResponseIncomplete => Sys2Proof.Machine.execIdResponseIncomplete s
  | .idPacketSize => Sys2Proof.Machine.execIdPacketSize s
  | .idSerialNumber => Sys2Proof.Machine.execIdSerialNumber s
  | .idFirmwareRevision => Sys2Proof.Machine.execIdFirmwareRevision s
  | .idModelNumber => Sys2Proof.Machine.execIdModelNumber s
  | .idIordySupported => Sys2Proof.Machine.execIdIordySupported s
  | .idIordyCanDisable => Sys2Proof.Machine.execIdIordyCanDisable s
  | .idFieldsValid => Sys2Proof.Machine.execIdFieldsValid s
  | .idCapacitySectors => Sys2Proof.Machine.execIdCapacitySectors s
  | .idAdvPioModes => Sys2Proof.Machine.execIdAdvPioModes s
  | .idMinPioCycleTime => Sys2Proof.Machine.execIdMinPioCycleTime s
  | .idMinPioCycleTimeIordy => Sys2Proof.Machine.execIdMinPioCycleTimeIordy s
  | .idQueueDepth => Sys2Proof.Machine.execIdQueueDepth s
  | .idMajorVersion => Sys2Proof.Machine.execIdMajorVersion s
  | .idFeature w b => Sys2Proof.Machine.execIdFeature w b s
  | .idChecksumValid => Sys2Proof.Machine.execIdChecksumValid s
  | .idChecksumSumOk => Sys2Proof.Machine.execIdChecksumSumOk s

end Sys2Proof.Machine
end

