-- ==== Sys2Proof/Machine/Sequencer.lean ====
section
/-! DEFINITION. The agents' turns: the sequencer's line of pseudocode (R12, R200 to R212, R230, R236), a lane's clock and tick
(R30, R147), the host's request (R90, R101), and where each agent fetches its next instruction. -/

namespace Sys2Proof.Machine

/-- Runs the instruction a code stands for. A command word that decodes to none is a reserved encoding (R105); a lane slot
that decodes to none is outside the lane's program (R23). -/
def runCode (c : Code) (s : State) : Result :=
  match decode c with
  | .ok i => exec i s
  | .error .reservedField => accept s <| raiseViolation .reservedEncoding s
  | .error .noLaneSlot => .fault .noLaneSlot
  | .error e => .refused (.notDecoded e)

/-- The packet of PACKET: the CDB's instruction where its byte 0 is one in scope, and the same forwarding for any other
byte 0, which the engine does not interpret (R115, R265). -/
def runPacket (cdb : Cdb) (s : State) : Result :=
  match decode (.cdb12 cdb) with
  | .ok i => exec i s
  | .error _ => forwardPacket cdb s

/-- One turn of a polling loop: the limit is tested before the poll, then the poll is counted and made (R202, R338). -/
def pollTurn (k : PollLoop) (rest : List SeqOp) (s : State) : Result :=
  if s.params.pollLimit = some s.pollCnt then finish .timeout s
  else .next { s with
    pollCnt := s.pollCnt + 1
    opstate := .busy (memRead Config.raStatus ++ [.test .bsy, .branch (.loopBsy k)] ++ rest) }

/-- The branch after a status bit test, `s.cond` being its outcome. "BSY masks everything; then DRQ; then ERR" (R209, R338). -/
def takeBranch (d : Decision) (rest : List SeqOp) (s : State) : Result :=
  match d with
  | .loopBsy k =>
    if s.cond then .next { s with opstate := .busy (.pollTop k :: rest) }
    else match k with
      | .notBusy => .next { s with opstate := .busy rest }
      | .ready => .next { s with opstate := .busy (.test .drdy :: .branch .readyDrdy :: rest) }
      | .drq => .next { s with opstate := .busy (.test .drq :: .branch .drqDrq :: rest) }
  | .readyDrdy =>
    if s.cond then .next { s with opstate := .busy rest }
    else .next { s with opstate := .busy (.pollTop .ready :: rest) }
  | .drqDrq =>
    if s.cond then .next { s with opstate := .busy rest }
    else .next { s with opstate := .busy (.test .err :: .branch .drqErr :: rest) }
  | .drqErr =>
    if s.cond then finish .fail s
    else .next { s with opstate := .busy (.pollTop .drq :: rest) }
  | .devResetErr => finish (if s.cond then .fail else .ok) s
  | .isReadyBsy =>
    if s.cond then .next { s with rval := 0#16, opstate := .busy rest }
    else .next { s with opstate := .busy (.test .drdy :: .branch .isReadyDrdy :: rest) }
  | .isReadyDrdy => .next { s with rval := if s.cond then 1#16 else 0#16, opstate := .busy rest }

/-- The state in which the sequencer keeps waiting at a line. -/
def State.stayAt (s : State) (op : SeqOp) (rest : List SeqOp) : State := { s with opstate := .busy (op :: rest) }

/-- One line of pseudocode. `s` is the state with that line taken off its position; `rest` is what is left. A line that has
to wait is put back (R33: an agent whose next step is disabled has no step). -/
def runLine (op : SeqOp) (rest : List SeqOp) (s : State) : Result :=
  match op with
  | .setAddr ra => runCode (.regAddr ra) s
  | .handRd w => if isFull s.params s.inqRd then .next (s.stayAt op rest) else pushRd w s
  | .handWr w => if isFull s.params s.inqWr then .next (s.stayAt op rest) else pushWr w s
  | .clearStalled .rd => .next { s with stalledRd := false }
  | .clearStalled .wr => .next { s with stalledWr := false }
  | .await .rd => if s.stalledRd then .next s else .next (s.stayAt op rest)
  | .await .wr => if s.stalledWr then endAccess s else .next (s.stayAt op rest)
  | .take =>
    match s.rxq with
    | v :: more => takeSample v more s
    | [] => .next (s.stayAt op rest)
  | .drain =>
    match s.rxq with
    | v :: more => .next ((emitWord v more s).stayAt op rest)
    | [] => if s.stalledRd then endAccess s else .next (s.stayAt op rest)
  | .setRval => .next { s with rval := s.smp }
  | .pollStart k => .next { s with pollCnt := 0, opstate := .busy (.pollTop k :: rest) }
  | .pollTop k => pollTurn k rest s
  | .test b => runCode (.status b.mask) s
  | .branch d => takeBranch d rest s
  | .setRst level => .next { s with rst := level, trace := s.trace ++ [.rst level] }
  | .delay ns => .next (s.event (.wait ns))
  | .issue c => runCode (.ataCmd c) s
  | .sendPacket cdb => runPacket cdb s
  | .setSectRem n => .next { s with sectRem := n }
  | .sectTop =>
    if s.sectRem = 0#9 then .next s
    else .next { s with opstate := .busy (pioRead (BitVec.ofNat 32 Config.sectorWords) ++ .sectDec :: .sectTop :: rest) }
  | .sectDec => .next { s with sectRem := s.sectRem - 1#9 }
  | .capture => .next { s with idArr := s.buf.firstWords Config.idWords }

/-- The host's request while IDLE. `s` is the state with the request taken off the port. -/
def runRequest (r : HostReq) (s : State) : Result :=
  match r with
  | .command cw cdb => runCode (.h64 cw cdb) s
  | .accessor f => runCode (.idField f) s
  | .isAta => tellIsAta s
  | .maxPioMode => tellMaxPioMode s
  | .capacity => tellCapacity s
  | .namedFlag n => tellNamedFlag n s
  | .retime =>
    match retimeCycleTime s.idArr with
    | some ct => exec (.configure ct) s
    | none => .next s

/-- The sequencer's turn: while BUSY one line of its position, unless the environment withholds the turn; the end of the
position is `return OK`; while IDLE the host's next request, if it has one. -/
def sequencerTurn (s : State) : Result :=
  match s.opstate with
  | .faulted => .fault .engineFaulted
  | .idle =>
    match s.port with
    | [] => .next s
    | r :: more => runRequest r { s with port := more }
  | .busy code =>
    match s.pace with
    | true :: more => .next { s with pace := more }
    | pace =>
      match code with
      | [] => finish .ok { s with pace := pace.tail }
      | op :: rest => runLine op rest { s with pace := pace.tail, opstate := .busy rest }

/-- Whether the RD lane ticks in this clock cycle (R30). -/
def State.rdTicks (s : State) : Bool := s.enRd && s.phaseRd == s.div - 1#16

/-- Whether the WR lane ticks in this clock cycle (R30). -/
def State.wrTicks (s : State) : Bool := s.enWr && s.phaseWr == s.div - 1#16

/-- One system clock cycle of the RD lane: at a tick it executes the micro-instruction at slot `PC[RD]` (R30, R147). -/
def rdLaneTurn (s : State) : Result :=
  if s.rdTicks then runCode (.rdSlot s.pcRd) { s with phaseRd := 0#16 }
  else if s.enRd then .next { s with phaseRd := s.phaseRd + 1#16 }
  else .next s

/-- One system clock cycle of the WR lane (R30, R147). -/
def wrLaneTurn (s : State) : Result :=
  if s.wrTicks then runCode (.wrSlot s.pcWr) { s with phaseWr := 0#16 }
  else if s.enWr then .next { s with phaseWr := s.phaseWr + 1#16 }
  else .next s

/-- One agent's turn. FAULTED is terminal; power-on reset comes before everything (R333, R360). -/
def agentTurn (s : State) : Result :=
  if s.por then .next s.powerOnReset
  else match s.opstate with
    | .faulted => .fault .engineFaulted
    | _ => match s.turn with
      | .sequencer => sequencerTurn { s with turn := .rdLane }
      | .rdLane => rdLaneTurn { s with turn := .wrLane }
      | .wrLane => wrLaneTurn { s with turn := .sequencer }

/-! ### Where a code is fetched from -/

/-- The state whose next step fetches this code: at the head of the port for what the host issues, at the head of the
sequencer's position for what the sequencer runs, in a lane's program counter at a tick for a lane's slot (log entry 16). -/
def State.withCode (s : State) (c : Code) : State :=
  match c with
  | .h64 cw cdb =>
    { s with por := false, turn := .sequencer, opstate := .idle, port := .command cw cdb :: s.port }
  | .idField f => { s with por := false, turn := .sequencer, opstate := .idle, port := .accessor f :: s.port }
  | .regAddr ra => { s with por := false, turn := .sequencer, pace := [], opstate := .busy (memRead ra) }
  | .status b =>
    { s with
      por := false, turn := .sequencer, pace := []
      opstate := .busy [.test (match decodeStatus b with
        | .ok .stDrdy => .drdy
        | .ok .stDf => .df
        | .ok .stDrq => .drq
        | .ok .stErr => .err
        | _ => .bsy)] }
  | .ataCmd b => { s with por := false, turn := .sequencer, pace := [], opstate := .busy [.issue b] }
  | .cdb12 cdb => { s with por := false, turn := .sequencer, pace := [], opstate := .busy [.sendPacket cdb] }
  | .rdSlot k =>
    { s with por := false, turn := .rdLane, opstate := .idle, enRd := true, pcRd := k, phaseRd := s.div - 1#16 }
  | .wrSlot k =>
    { s with por := false, turn := .wrLane, opstate := .idle, enWr := true, pcWr := k, phaseWr := s.div - 1#16 }

/-- The state in which exec runs the fetched instruction: the fetched code is used up and it is the next agent's turn. -/
def State.fetched (s : State) (c : Code) : State :=
  match c with
  | .h64 _ _ | .idField _ => { s with por := false, turn := .rdLane, opstate := .idle }
  | .regAddr ra => { s with por := false, turn := .rdLane, pace := [], opstate := .busy (memRead ra).tail }
  | .status _ | .ataCmd _ | .cdb12 _ => { s with por := false, turn := .rdLane, pace := [], opstate := .busy [] }
  | .rdSlot k => { s with por := false, turn := .wrLane, opstate := .idle, enRd := true, pcRd := k, phaseRd := 0#16 }
  | .wrSlot k => { s with por := false, turn := .sequencer, opstate := .idle, enWr := true, pcWr := k, phaseWr := 0#16 }

end Sys2Proof.Machine
end

