-- ==== Sys2Proof/Machine/Step.lean ====
section
/-! DEFINITION. One step of the machine, one agent's turn, and the state whose next step runs a given table word. -/

namespace Sys2Proof.Machine

/-- One step: one agent's turn (R16; log entry 4). -/
def step (s : State) : Host.Outcome State Fault Refusal := agentTurn s

/-- `s` with the instruction of a table word where the step fetches its next instruction. -/
def State.withFetchWord (s : State) (nbits w : Nat) : State := s.withCode (tableCode nbits w)

end Sys2Proof.Machine
end

