-- ==== Sys2Proof/Machine/Assembler.lean ====
section
/-! DEFINITION. The text form of the host operations (R118) and the pseudo-operations (R119): a line of text is the host's
requests it stands for. Host side only; no engine behaviour is added. -/

namespace Sys2Proof.Machine

/-- A line of a host program: an operation of the command port, or a pseudo-operation (R119). -/
inductive AsmLine where
  | op (i : Instr)
  | wrcmd (c : Byte)
  | rdstatus
  | rdalt
  | tur (dev : BitVec 1)
  | inquiry (dev : BitVec 1) (len : Byte)
  | read10 (dev : BitVec 1) (lba : BitVec 32) (blocks limit : BitVec 16)
  | retime
  deriving DecidableEq, Repr

/-- The request that issues an instruction, for the instructions a host can issue. -/
def requestOf (i : Instr) : List HostReq :=
  match encode i with
  | .h64 cw cdb => [.command cw cdb]
  | .idField f => [.accessor f]
  | _ => []

/-- The 12-byte INQUIRY CDB of R119. -/
def inquiryCdb (len : Byte) : Cdb := ⟨Config.scsiInquiry, ⟨0, 0, 0, len, 0, 0, 0, 0, 0, 0, 0⟩⟩

/-- The 12-byte READ_10 CDB of R119: block address in bytes 2 to 5 and block count in bytes 7 and 8, both big-endian. -/
def read10Cdb (lba : BitVec 32) (blocks : BitVec 16) : Cdb :=
  ⟨Config.scsiRead10, ⟨0, lba.extractLsb' 24 8, lba.extractLsb' 16 8, lba.extractLsb' 8 8, lba.extractLsb' 0 8, 0,
    blocks.extractLsb' 8 8, blocks.extractLsb' 0 8, 0, 0, 0⟩⟩

/-- The expansion of a line (R119). -/
def AsmLine.expand : AsmLine → List HostReq
  | .op i => requestOf i
  | .wrcmd c => requestOf (.wrreg Config.raStatus (zext16 c))
  | .rdstatus => requestOf (.rdreg Config.raStatus)
  | .rdalt => requestOf (.rdreg Config.raAltStatus)
  | .tur dev => requestOf (.packet dev 0#16 Cdb.zero)
  | .inquiry dev len =>
    requestOf (.packet dev (zext16 len) (inquiryCdb len)) ++ requestOf (.pioread (BitVec.ofNat 32 ((len.toNat + 1) / 2)))
  | .read10 dev lba blocks limit => requestOf (.packet dev limit (read10Cdb lba blocks))
  | .retime => [.retime]

/-! ### Reading a line of text -/

/-- Splits a line at spaces, tabs and commas, and ends it at `;` (R118). -/
def tokens : List Char → List Char → List (List Char)
  | [], [] => []
  | [], cur => [cur.reverse]
  | c :: cs, cur =>
    if c = ';' then (if cur = [] then [] else [cur.reverse])
    else if c = ' ' ∨ c = ',' ∨ c = '\t' then (if cur = [] then tokens cs [] else cur.reverse :: tokens cs [])
    else tokens cs (c :: cur)

/-- The value of a digit in a base up to 16. -/
def digitValue (base : Nat) (c : Char) : Option Nat :=
  let v :=
    if '0' ≤ c ∧ c ≤ '9' then c.toNat - '0'.toNat
    else if 'a' ≤ c ∧ c ≤ 'f' then c.toNat - 'a'.toNat + 10
    else if 'A' ≤ c ∧ c ≤ 'F' then c.toNat - 'A'.toNat + 10
    else base
  if v < base then some v else none

/-- The number a string of digits stands for. -/
def digits (base : Nat) : List Char → Nat → Option Nat
  | [], acc => some acc
  | c :: cs, acc =>
    match digitValue base c with
    | some v => digits base cs (acc * base + v)
    | none => none

/-- A number, decimal or with `0x` hexadecimal, that fits `w` bits (R118). -/
def number (w : Nat) (tok : List Char) : Option (BitVec w) :=
  let value := match tok with
    | [] => none
    | '0' :: 'x' :: rest => if rest = [] then none else digits 16 rest 0
    | _ => digits 10 tok 0
  match value with
  | some n => if n < 2 ^ w then some (BitVec.ofNat w n) else none
  | none => none

/-- A register operand: an enumerator name of R71 or its alias. -/
def registerName (tok : List Char) : Option (BitVec 4) :=
  if tok = "DATA".toList then some Config.raData
  else if tok = "ERROR".toList ∨ tok = "FEATURES".toList then some Config.raError
  else if tok = "SECTOR_COUNT".toList then some Config.raSectorCount
  else if tok = "LBA_LOW".toList then some Config.raLbaLow
  else if tok = "LBA_MID".toList then some Config.raLbaMid
  else if tok = "LBA_HIGH".toList then some Config.raLbaHigh
  else if tok = "DEVICE".toList then some Config.raDevice
  else if tok = "STATUS".toList ∨ tok = "COMMAND".toList then some Config.raStatus
  else if tok = "ALT_STATUS".toList then some Config.raAltStatus
  else none

/-- The twelve bytes of a `packet` line. -/
def cdbOf : List (List Char) → Option Cdb
  | [t0, t1, t2, t3, t4, t5, t6, t7, t8, t9, t10, t11] => do
    let b0 ← number 8 t0
    let b1 ← number 8 t1
    let b2 ← number 8 t2
    let b3 ← number 8 t3
    let b4 ← number 8 t4
    let b5 ← number 8 t5
    let b6 ← number 8 t6
    let b7 ← number 8 t7
    let b8 ← number 8 t8
    let b9 ← number 8 t9
    let b10 ← number 8 t10
    let b11 ← number 8 t11
    return ⟨b0, ⟨b1, b2, b3, b4, b5, b6, b7, b8, b9, b10, b11⟩⟩
  | _ => none

/-- A line with no operand. -/
def line0 (m : List Char) : Option AsmLine :=
  if m = "hwreset".toList then some (.op .hwreset)
  else if m = "isready".toList then some (.op .isready)
  else if m = "rdstatus".toList then some .rdstatus
  else if m = "rdalt".toList then some .rdalt
  else none

/-- A line with one operand. -/
def line1 (m a : List Char) : Option AsmLine :=
  if m = "configure".toList then (number 32 a).map fun ct => .op (.configure ct)
  else if m = "rdreg".toList then (registerName a).map fun ra => .op (.rdreg ra)
  else if m = "devreset".toList then (number 1 a).map fun dev => .op (.devreset dev)
  else if m = "pioread".toList then (number 32 a).map fun n => .op (.pioread n)
  else if m = "wrcmd".toList then (number 8 a).map .wrcmd
  else if m = "tur".toList then (number 1 a).map .tur
  else if m = "retime".toList then some .retime
  else none

/-- A line with two operands. -/
def line2 (m a b : List Char) : Option AsmLine :=
  if m = "wrreg".toList then do
    let ra ← registerName a
    let v ← number 16 b
    return .op (.wrreg ra v)
  else if m = "ident".toList then do
    let dev ← number 1 a
    if b = "ata".toList then return .op (.ident dev 0#1)
    else if b = "packet".toList then return .op (.ident dev 1#1)
    else none
  else if m = "inquiry".toList then do
    let dev ← number 1 a
    let len ← number 8 b
    return .inquiry dev len
  else none

/-- One line of a host program (R118); `none` where it is not in the text form, an empty list where it holds nothing. -/
def parseLine (text : List Char) : Option (List AsmLine) :=
  match tokens text [] with
  | [] => some []
  | [m] => (line0 m).map fun l => [l]
  | [m, a] => (line1 m a).map fun l => [l]
  | [m, a, b] => (line2 m a b).map fun l => [l]
  | [m, a, b, c] =>
    if m = "rdsect".toList then do
      let dev ← number 1 a
      let lba ← number 32 b
      let count ← number 16 c
      return [.op (.rdsect dev lba count)]
    else none
  | m :: a :: b :: rest =>
    if m = "packet".toList then do
      let dev ← number 1 a
      let limit ← number 16 b
      let cdb ← cdbOf rest
      return [.op (.packet dev limit cdb)]
    else if m = "read10".toList then
      match rest with
      | [c, d] => do
        let dev ← number 1 a
        let lba ← number 32 b
        let blocks ← number 16 c
        let limit ← number 16 d
        return [.read10 dev lba blocks limit]
      | _ => none
    else none

/-- The requests a line of text stands for. -/
def assembleLine (text : String) : Option (List HostReq) :=
  (parseLine text.toList).map fun ls => ls.flatMap AsmLine.expand

end Sys2Proof.Machine
end

