-- ==== Sys2Proof/Safety.lean ====
section
/-! DEFINITION. What statements about the machine are stated in: the invariant of R44 in a form every step keeps, the states in
which a host operation can run, and when one state is reached from another. -/

namespace Sys2Proof.Machine

/-- The parameters have the values R8 allows. -/
structure ParamsLegal (p : Config.Params) : Prop where
  clock : 0 < p.fSysHz
  depth : 0 < p.fifoDepth
  limit : p.pollLimit ≠ some 0

/-- R44 and the ranges of R20, in a form that holds in every state a step can give from a state in which it holds. -/
structure State.Inv (s : State) : Prop where
  /-- `DIV >= 1` (R21, R44 (i)). -/
  divPositive : 1 ≤ s.div.toNat
  /-- `EN[RD] = EN[WR]` (R44 (ii)). -/
  enablesAgree : s.enRd = s.enWr
  /-- At most one chip select is asserted (R44 (iii)). -/
  oneSelect : s.cs ≠ 0b11#2
  /-- `PC[RD]` is one of the five slots (R23). -/
  rdSlot : s.pcRd.toNat ≤ 4
  /-- The read strobe is asserted in slots 2 to 4 and only there (R151, R154). -/
  rdStrobe : s.rdStb = decide (2 ≤ s.pcRd.toNat)
  /-- The write strobe is asserted in slots 2 and 3 and only there (R156, R158). -/
  wrStrobe : s.wrStb = decide (2 ≤ s.pcWr.toNat)
  /-- The engine drives the data bus whenever the WR lane has left slot 0 (R155). -/
  wrDrives : s.pcWr ≠ 0#2 → s.ddOe = true
  /-- The RD lane is idle unless a read is under way (R74). -/
  rdIdle : s.access ≠ .reading → s.idleRd = true
  /-- The WR lane is idle unless a write is under way (R74). -/
  wrIdle : s.access ≠ .writing → s.idleWr = true
  /-- `INQ[RD]` holds at most one entry (R44 (vii)). -/
  inqRdOne : s.inqRd.length ≤ 1
  /-- `INQ[WR]` and `RXQ` hold at most `FIFO_DEPTH` entries (R33). -/
  inqWrDepth : s.inqWr.length ≤ s.params.fifoDepth
  rxqDepth : s.rxq.length ≤ s.params.fifoDepth
  /-- While IDLE no access is under way (R44 (viii)). -/
  idleNoAccess : s.opstate = .idle → s.access = .none
  /-- `PHASE[l]` is below `DIV` (R20). -/
  phaseRdRange : s.phaseRd.toNat < s.div.toNat
  phaseWrRange : s.phaseWr.toNat < s.div.toNat
  /-- The host's memories are in canonical form. -/
  bufCanonical : s.buf.wf
  idCanonical : s.idArr.wf

/-- The reset column of R20, as R360 lists it: every field to which it gives a value. -/
structure State.AtReset (s : State) : Prop where
  div : s.div = 1#16
  enables : s.enRd = false ∧ s.enWr = false
  counters : s.pcRd = 0#3 ∧ s.pcWr = 0#2
  fifos : s.inqRd = [] ∧ s.inqWr = [] ∧ s.rxq = []
  flags : s.stalledRd = false ∧ s.stalledWr = false
  phases : s.phaseRd = 0#16 ∧ s.phaseWr = 0#16
  address : s.cs = 0b00#2 ∧ s.da = 0#3
  strobes : s.rdStb = false ∧ s.wrStb = false
  released : s.ddOe = false ∧ s.rst = false
  idle : s.opstate = .idle
  result : s.res.code = 0#2

/-- No strobe conflict and no bus contention (R44 (iv), (v), R182): not both strobes, and no drive during a read strobe. -/
def State.BusSafe (s : State) : Prop :=
  ¬(s.rdStb = true ∧ s.wrStb = true) ∧ (s.ddOe = true → s.rdStb = false)

/-- `t` is reached from `s` in some number of steps. -/
def Reaches (s t : State) : Prop := ∃ n, Host.Core.run Sys2Proof.core n s = .next t

/-- The engine has been configured and runs on from here: both lanes enabled, phases below the divisor, FIFOs of at least one
entry, no power-on reset requested. Nothing is asked of the turns the environment withholds from the sequencer. -/
structure State.Live (s : State) : Prop where
  enRd : s.enRd = true
  enWr : s.enWr = true
  phaseRdRange : s.phaseRd.toNat < s.div.toNat
  phaseWrRange : s.phaseWr.toNat < s.div.toNat
  depth : 1 ≤ s.params.fifoDepth
  running : s.por = false

/-- A live engine at the sequencer's turn between two accesses: both lanes idle and no access under way (R74). -/
structure State.Between (s : State) : Prop where
  live : s.Live
  turn : s.turn = .sequencer
  lanesIdle : s.lanesIdle = true
  noAccess : s.access = .none

/-- A configured engine with an idle bus that will take the host's next command (R37, R101), whoever's turn it is. -/
structure State.Waiting (s : State) : Prop where
  live : s.Live
  lanesIdle : s.lanesIdle = true
  noAccess : s.access = .none
  idle : s.opstate = .idle

/-- The next step may write `DIV` and the enables and restart both phases: a requested power-on reset, or the host's CONFIGURE or
RETIME at the port of an idle engine (R21, R22, R320). -/
def State.Reconfigures (s : State) : Prop :=
  s.por = true ∨
  s.turn = .sequencer ∧ s.opstate = .idle ∧ ∃ more,
    s.port = .retime :: more ∨
    ∃ cw cdb ct, s.port = .command cw cdb :: more ∧ decode (.h64 cw cdb) = .ok (.configure ct)

/-! ### Which command words are refused -/

/-- The bits of a command word that an operation code uses, its own four among them (R100, R102). -/
def usedBits (opc : Nat) : BitVec 64 :=
  match opc with
  | 0x1 => 0xFFFFFFFF0000000F#64
  | 0x2 => 0x00000000000001EF#64
  | 0x3 => 0x00000000FFFF01EF#64
  | 0x4 => 0x000000000000000F#64
  | 0x5 => 0x000000000000001F#64
  | 0x6 => 0x000000000000000F#64
  | 0x7 => 0xFFFFFFFF0000000F#64
  | 0x8 => 0xFFFFFFFFFFFF001F#64
  | 0x9 => 0x000000000000021F#64
  | 0xA => 0x00000000FFFF001F#64
  | _ => 0xFFFFFFFFFFFFFFFF#64

/-- A reserved encoding (R105): a reserved operation code, a bit set that the operation does not use, or, in RDREG and WRREG,
a register address code that names no enumerator. -/
def ReservedWord (cw : BitVec 64) : Prop :=
  (cw.toNat % 16 = 0 ∨ 0xB ≤ cw.toNat % 16) ∨
  cw &&& ~~~(usedBits (cw.toNat % 16)) ≠ 0#64 ∨
  (cw.toNat % 16 = 2 ∨ cw.toNat % 16 = 3) ∧ isEnumerator (cw.extractLsb' 5 4) = false

/-- A host operation that makes a bus access, and whose operands are legal (R104, R366). -/
def accessesBus (i : Instr) : Bool :=
  wellFormed i && match i with
  | .rdreg _ | .wrreg _ _ | .hwreset | .devreset _ | .isready | .pioread _ | .rdsect _ _ _ | .ident _ _
  | .packet _ _ _ => true
  | _ => false

/-- The first polling loop of a host operation, if it has one. -/
def firstLoop (i : Instr) : Option PollLoop :=
  match i with
  | .hwreset | .devreset _ => some .notBusy
  | .rdsect _ _ _ => some .ready
  | .pioread _ | .ident _ _ | .packet _ _ _ => some .drq
  | _ => none

/-- A bus event that is no strobe pulse. -/
def BusEvent.isStrobe : BusEvent → Bool
  | .rd _ _ _ | .wr _ _ _ => true
  | .addr _ _ | .rst _ | .wait _ => false

/-! ### The environment's answers -/

/-- The `i`-th value the environment will put on the data lines from state `s` on (R90). -/
def State.sampleAt (s : State) (i : Nat) : BusWord :=
  match s.samples[i]? with
  | some v => v
  | none => Config.deviceSample (s.drawn + i)

/-- The first `n` values the environment will put on the data lines. -/
def State.firstSamples (s : State) (n : Nat) : List BusWord := (List.range n).map s.sampleAt

/-- What one status sample means to a polling loop: `none` to go on polling, else whether the loop ends well (R206, R207,
R209). -/
def pollOutcome (k : PollLoop) (v : BusWord) : Option Bool :=
  match k with
  | .notBusy => if statusBit .bsy v then none else some true
  | .ready => if isReadySample v then some true else none
  | .drq => drqOutcome v

/-- From state `s` on, a polling loop discards `n` samples and the next one ends it with outcome `ok`, within the poll limit
if there is one (R202, R338). -/
structure State.PollEnds (s : State) (k : PollLoop) (n : Nat) (ok : Bool) : Prop where
  discarded : ∀ i, i < n → pollOutcome k (s.sampleAt i) = none
  decided : pollOutcome k (s.sampleAt n) = some ok
  within : ∀ limit, s.params.pollLimit = some limit → n < limit

/-- From state `s` on, a polling loop runs into its limit: the next `limit` samples, at least one, decide nothing (R202). -/
structure State.PollTimesOut (s : State) (k : PollLoop) (limit : Nat) : Prop where
  limited : s.params.pollLimit = some limit
  positive : 0 < limit
  discarded : ∀ i, i < limit → pollOutcome k (s.sampleAt i) = none

/-! ### What the primitives leave, each as one atomic description (R159)

The four primitives and the polling loop, described without lanes or clock. What they do not fix are the lanes' completion
flags and phases, the sequencer's two scratch fields and the withheld turns still to come (`Loose`). -/

/-- The fields an operation's end does not fix: the completion flags and phases of idle lanes, the sequencer's dead locals, and
how many of the turns the environment withholds are used up. `SECT_REM` and `POLLCNT` are not among them: R38 leaves their values
between operations unspecified, and that they keep what was last written is the model's choice (log entry 31). -/
structure Loose where
  stalledRd : Bool
  stalledWr : Bool
  phaseRd : BitVec 16
  phaseWr : BitVec 16
  smp : BusWord
  cond : Bool
  pace : List Bool
  deriving DecidableEq, Repr

/-- `s` with the loose fields at these values. -/
def State.withLoose (s : State) (f : Loose) : State :=
  { s with
    stalledRd := f.stalledRd, stalledWr := f.stalledWr, phaseRd := f.phaseRd, phaseWr := f.phaseWr
    smp := f.smp, cond := f.cond, pace := f.pace }

/-- The words `ws` stored from word index `i` on, in order: what emitting them leaves in the caller's buffer (R232). -/
def Memory.writeWords (m : Memory) (i : Nat) : List BusWord → Memory
  | [] => m
  | w :: ws => Memory.writeWords (m.writeWord i w) (i + 1) ws

/-- `MemRead(ra, 2)` (R76): one `ADDR` and one `RD` event, the RD lane's counter run down. -/
def State.didRead (s : State) (ra : BitVec 4) : State :=
  { s with
    cs := csOf ra, da := daOf ra, x := 0#32, samples := s.samples.drop 1, drawn := s.drawn + 1
    trace := s.trace ++ [addrEvent ra, rdEvent ra (s.sampleAt 0)] }

/-- `MemWriteBurst(ra, ws)` (R77, R79): one `ADDR` event and one `WR` event a word. -/
def State.didWrite (s : State) (ra : BitVec 4) (ws : List BusWord) : State :=
  { s with
    cs := csOf ra, da := daOf ra, osr := ws.getLastD s.osr, ddOut := ws.getLastD s.ddOut
    trace := s.trace ++ addrEvent ra :: ws.map (wrEvent ra) }

/-- `MemReadBurst(ra, n)` with its words emitted (R78, R232): one `ADDR` event, `n` `RD` events, `n` words stored at the
stream position. -/
def State.didBurst (s : State) (ra : BitVec 4) (n : Nat) : State :=
  { s with
    cs := csOf ra, da := daOf ra, x := 0#32, samples := s.samples.drop n, drawn := s.drawn + n
    emitted := s.emitted + n, buf := s.buf.writeWords s.emitted (s.firstSamples n)
    trace := s.trace ++ addrEvent ra :: (s.firstSamples n).map (rdEvent ra) }

/-- `n` polls of one loop, `n` at least 1 (R200, R202): an `ADDR` and an `RD` event each, the polls counted. That the count stands
in `POLLCNT` when the operation has ended too is the model's choice (R38; log entry 31). -/
def State.didPolls (s : State) (n : Nat) : State :=
  { s with
    cs := csOf Config.raStatus, da := daOf Config.raStatus, x := 0#32, samples := s.samples.drop n, drawn := s.drawn + n
    pollCnt := n
    trace := s.trace ++
      (s.firstSamples n).flatMap fun v => [addrEvent Config.raStatus, rdEvent Config.raStatus v] }

/-- A gated sector of RDSECT after `n` discarded polls (R230, R236): the gate, one burst of 256 words, one sector less. That
`SECT_REM` keeps this value when the operation has ended is the model's choice (R38; log entry 31). -/
def State.didSector (s : State) (n : Nat) : State :=
  { (s.didPolls (n + 1)).didBurst Config.raData Config.sectorWords with sectRem := s.sectRem - 1#9 }

/-- Sectors one after the other, each with its number of discarded polls. -/
def State.didSectors (s : State) : List Nat → State
  | [] => s
  | n :: ns => (s.didSector n).didSectors ns

/-- The gates of those sectors end well. -/
def State.SectorsReady (s : State) : List Nat → Prop
  | [] => True
  | n :: ns => s.PollEnds .drq n true ∧ (s.didSector n).SectorsReady ns

/-- The end of an operation (R101, R331): `RES` set, `OPSTATE` IDLE, in the sequencer's turn; `SECT_REM` and `POLLCNT` kept (log
entry 31). -/
def State.ended (s : State) (r : ResCode) : State := { s with res := r, opstate := .idle, turn := .rdLane }

/-- Issuing `i` in `s` is accepted, and the run from there ends in `u`, but for the loose fields. -/
def EndsAs (i : Instr) (s u : State) : Prop :=
  ∃ t, exec i s = .next t ∧ ∃ f, Reaches t (u.withLoose f)

/-! ### What an operation has done before its polling loop -/

/-- HWRESET up to its polling loop: the reset line pulsed, the two delays (R204). -/
def State.didReset (s : State) : State :=
  { s with
    rst := false
    trace := s.trace ++
      [.rst true, .wait s.params.tRstLowNs, .rst false, .wait s.params.tRstSettleNs] }

/-- DEVRESET up to its polling loop (R205). -/
def State.didDevResetSetup (s : State) (dev : BitVec 1) : State :=
  (s.didWrite Config.raDevice [zext16 (devByteSel s.params dev)]).didWrite Config.raStatus [zext16 Config.cmdDeviceReset]

/-- RDSECT's six task-file writes, in their normative order (R238), and `SECT_REM <- count`. -/
def State.didSectorSetup (s : State) (dev : BitVec 1) (lba : BitVec 32) (count : BitVec 16) : State :=
  { ((((((s.didWrite Config.raSectorCount [zext16 (sectorCountByte count)]).didWrite Config.raLbaLow
      [zext16 (lbaLow lba)]).didWrite Config.raLbaMid [zext16 (lbaMid lba)]).didWrite Config.raLbaHigh
      [zext16 (lbaHigh lba)]).didWrite Config.raDevice [zext16 (devByteLba s.params dev lba)]).didWrite Config.raStatus
      [zext16 Config.cmdReadSectors]) with sectRem := count.setWidth 9 }

/-- IDENT up to its gate (R240). -/
def State.didIdentSetup (s : State) (dev : BitVec 1) (idc : BitVec 1) : State :=
  (s.didWrite Config.raDevice [zext16 (devByteSel s.params dev)]).didWrite Config.raStatus [zext16 (identCommand idc)]

/-- PACKET up to its gate (R260). -/
def State.didPacketSetup (s : State) (dev : BitVec 1) (limit : BitVec 16) : State :=
  ((((s.didWrite Config.raError [0#16]).didWrite Config.raLbaMid [zext16 (limitLow limit)]).didWrite Config.raLbaHigh
    [zext16 (limitHigh limit)]).didWrite Config.raDevice [zext16 (devByteSel s.params dev)]).didWrite Config.raStatus
    [zext16 Config.cmdPacket]

/-- The word stream restarted, as an operation that emits does when it is accepted (R107). -/
def State.restarted (s : State) : State := { s with emitted := 0 }

end Sys2Proof.Machine
end

