-- ==== Sys2Proof/Certificates/Slice0/Obligations.lean ====
section
/-! DEFINITION. The statements for the provers, each an `Obligations.<Name> : Prop`, in the order of OBLIGATIONS.json. -/

open Sys2Proof Sys2Proof.Machine

/-! ## Encoding -/

/-- Decoding an encoding gives the instruction back, with every operand at every value (R100 to R117, R120). -/
def Obligations.DecodeEncode : Prop := ∀ i : Instr, decode (encode i) = .ok i

/-- A command word that decodes is the one word of its instruction: no bit of it is ignored (R102, R105). -/
def Obligations.CommandWordUnique : Prop :=
  ∀ (cw : BitVec 64) (cdb : Cdb) (i : Instr), decode (.h64 cw cdb) = .ok i →
    ∃ c, encode i = .h64 cw c ∧ (∀ dev limit body, i = .packet dev limit body → c = cdb ∧ body = cdb)

/-- A table word runs as the instruction the table decoder reads from it. -/
def Obligations.WordsDecode : Prop :=
  decode (.h64 0x0000025800000001#64 Cdb.zero) = .ok (.configure 600#32) ∧
  decode (.h64 0x00000000000000E2#64 Cdb.zero) = .ok (.rdreg 0x7#4) ∧
  decode (.h64 0x0000000000EC00E3#64 Cdb.zero) = .ok (.wrreg 0x7#4 0x00EC#16) ∧
  decode (.h64 0x0123456700010018#64 Cdb.zero) = .ok (.rdsect 1#1 0x01234567#32 1#16) ∧
  decode (.h64 0x0000000000000209#64 Cdb.zero) = .ok (.ident 0#1 1#1) ∧
  decode (.regAddr 0xE#4) = .ok .raAltStatus ∧ decode (.status 0x08#8) = .ok .stDrq ∧
  decode (.ataCmd 0xA1#8) = .ok .cmdIdentifyPacketDevice ∧
  decode (.cdb12 ⟨0x28#8, CdbBody.zero⟩) = .ok (.scsiRead10 CdbBody.zero) ∧
  decode (.rdSlot 3#3) = .ok .rdSample ∧ decode (.wrSlot 0#2) = .ok .wrGetdata ∧
  decode (.idField (.feature .w83 10#4)) = .ok (.idFeature .w83 10#4)

/-! ## A step runs the decoded instruction -/

/-- Where a code is placed for the next step, that step is the meaning of its instruction. -/
def Obligations.StepRunsPlaced : Prop :=
  (∀ (s : State) (c : Code) (i : Instr), decode c = .ok i → step (s.withCode c) = exec i (s.fetched c)) ∧
  (∀ (s : State) (nbits w : Nat) (i : Instr), decodeTableWord nbits w = some i →
    step (s.withFetchWord nbits w) = exec i (s.fetched (tableCode nbits w)))

/-- While IDLE, the sequencer's turn runs the host's next command word (R101). That an accessor is asked for through the port
too, and while IDLE, is the model's choice (log entry 11). -/
def Obligations.StepRunsRequest : Prop :=
  (∀ (s : State) (cw : BitVec 64) (cdb : Cdb) (more : List HostReq) (i : Instr),
    s.por = false → s.turn = .sequencer → s.opstate = .idle → s.port = .command cw cdb :: more →
    decode (.h64 cw cdb) = .ok i → step s = exec i { s with turn := .rdLane, port := more }) ∧
  (∀ (s : State) (f : IdField) (more : List HostReq),
    s.por = false → s.turn = .sequencer → s.opstate = .idle → s.port = .accessor f :: more →
    step s = exec (decodeIdField f) { s with turn := .rdLane, port := more })

/-- While BUSY, the sequencer's turn runs the instruction its next line stands for. -/
def Obligations.StepRunsLine : Prop :=
  ∀ (s : State) (op : SeqOp) (rest : List SeqOp) (c : Code) (i : Instr),
    s.por = false → s.turn = .sequencer → s.pace.head? ≠ some true → s.opstate = .busy (op :: rest) →
    ((∃ ra, op = .setAddr ra ∧ c = .regAddr ra) ∨ (∃ b, op = .test b ∧ c = .status b.mask) ∨
      (∃ b, op = .issue b ∧ c = .ataCmd b) ∨ (∃ cdb, op = .sendPacket cdb ∧ c = .cdb12 cdb)) →
    decode c = .ok i →
    step s = exec i { s with turn := .rdLane, pace := s.pace.tail, opstate := .busy rest }

/-- An enabled lane counts `DIV` clock cycles and at the last of them runs the micro-instruction at its slot; a disabled
lane does nothing (R22, R30, R147). -/
def Obligations.LaneTicks : Prop :=
  (∀ (s : State) (i : Instr), s.por = false → s.opstate ≠ .faulted → s.turn = .rdLane →
    (s.enRd = false → step s = .next { s with turn := .wrLane }) ∧
    (s.enRd = true → s.phaseRd ≠ s.div - 1#16 →
      step s = .next { s with turn := .wrLane, phaseRd := s.phaseRd + 1#16 }) ∧
    (s.enRd = true → s.phaseRd = s.div - 1#16 → decode (.rdSlot s.pcRd) = .ok i →
      step s = exec i { s with turn := .wrLane, phaseRd := 0#16 })) ∧
  (∀ (s : State) (i : Instr), s.por = false → s.opstate ≠ .faulted → s.turn = .wrLane →
    (s.enWr = false → step s = .next { s with turn := .sequencer }) ∧
    (s.enWr = true → s.phaseWr ≠ s.div - 1#16 →
      step s = .next { s with turn := .sequencer, phaseWr := s.phaseWr + 1#16 }) ∧
    (s.enWr = true → s.phaseWr = s.div - 1#16 → decode (.wrSlot s.pcWr) = .ok i →
      step s = exec i { s with turn := .sequencer, phaseWr := 0#16 }))

/-- A reserved encoding presented at the port is a precondition violation, whatever else the word holds (R105). -/
def Obligations.ReservedWordRefused : Prop :=
  ∀ (s : State) (cw : BitVec 64) (cdb : Cdb) (more : List HostReq),
    s.por = false → s.turn = .sequencer → s.opstate = .idle → s.port = .command cw cdb :: more → ReservedWord cw →
    step s = .next { s with
      turn := .rdLane, port := more, res := .fatal, opstate := .faulted, reason := some .reservedEncoding }

/-- A command word is accepted only in IDLE: while the engine is BUSY a step leaves the port alone (R101). Presented to `exec`
in BUSY all the same, every word is turned away by the name `portBusy`, and so is every instruction a command word stands for,
CONFIGURE, the reserved operation codes and illegal operands among them: that refusal is the model's (log entry 24). -/
def Obligations.PortClosedWhileBusy : Prop :=
  (∀ (s t : State) (code : List SeqOp), s.opstate = .busy code → step s = .next t → t.port = s.port) ∧
  (∀ (s : State) (code : List SeqOp) (cw : BitVec 64) (cdb : Cdb), s.opstate = .busy code →
    runCode (.h64 cw cdb) s = .refused .portBusy ∧
    ∀ i, decode (.h64 cw cdb) = .ok i → exec i s = .refused .portBusy)

/-! ## Invariants -/

/-- Every step keeps the invariant. -/
def Obligations.StepKeepsInv : Prop := ∀ s t : State, s.Inv → step s = .next t → t.Inv

/-- The machine after reset satisfies the invariant, and its parameters are legal. -/
def Obligations.ResetInv : Prop := State.reset.Inv ∧ ParamsLegal State.reset.params

/-- The invariant has the eight clauses of R44. -/
def Obligations.InvGivesBusRules : Prop :=
  ∀ s : State, s.Inv →
    (1 ≤ s.div.toNat ∧ s.div.toNat ≤ 65535) ∧ s.enRd = s.enWr ∧
    ¬(s.cs.getLsbD 0 = true ∧ s.cs.getLsbD 1 = true) ∧ ¬(s.rdStb = true ∧ s.wrStb = true) ∧
    (s.ddOe = true → s.rdStb = false) ∧ (s.idleRd = true ∨ s.idleWr = true) ∧ s.inqRd.length ≤ 1 ∧
    (s.opstate = .idle → s.idleRd = true ∧ s.idleWr = true)

/-- During a strobe the address lines stand still, and during a write strobe the data the engine drives (R83). -/
def Obligations.LinesHoldInStrobe : Prop :=
  ∀ s t : State, s.por = false → step s = .next t →
    (s.rdStb = true ∨ s.wrStb = true → t.cs = s.cs ∧ t.da = s.da) ∧
    (s.Inv → s.wrStb = true → t.ddOut = s.ddOut ∧ t.ddOe = s.ddOe)

/-! ## Who writes what -/

/-- What the sequencer's turn can change: nothing of the lanes' registers and pins, no sample is taken (R20). -/
def Obligations.SequencerOwns : Prop :=
  ∀ s t : State, s.por = false → s.turn = .sequencer → step s = .next t →
    t = { s with
      turn := .rdLane, div := t.div, enRd := t.enRd, enWr := t.enWr, inqRd := t.inqRd, inqWr := t.inqWr, rxq := t.rxq
      stalledRd := t.stalledRd, stalledWr := t.stalledWr, phaseRd := t.phaseRd, phaseWr := t.phaseWr, cs := t.cs
      da := t.da, rst := t.rst, opstate := t.opstate, res := t.res, rval := t.rval, sectRem := t.sectRem
      pollCnt := t.pollCnt, smp := t.smp, cond := t.cond, access := t.access, reason := t.reason, trace := t.trace
      emitted := t.emitted, buf := t.buf, idArr := t.idArr, answer := t.answer, port := t.port, pace := t.pace }

/-- What a lane's turn can change: its own registers, FIFOs, flag, phase and pins, and the record of events (R20). -/
def Obligations.LanesOwn : Prop :=
  (∀ s t : State, s.por = false → s.turn = .rdLane → step s = .next t →
    t = { s with
      turn := .wrLane, pcRd := t.pcRd, x := t.x, inqRd := t.inqRd, rxq := t.rxq, stalledRd := t.stalledRd
      phaseRd := t.phaseRd, rdStb := t.rdStb, samples := t.samples, drawn := t.drawn, trace := t.trace }) ∧
  (∀ s t : State, s.por = false → s.turn = .wrLane → step s = .next t →
    t = { s with
      turn := .sequencer, pcWr := t.pcWr, osr := t.osr, inqWr := t.inqWr, stalledWr := t.stalledWr
      phaseWr := t.phaseWr, wrStb := t.wrStb, ddOut := t.ddOut, ddOe := t.ddOe, trace := t.trace })

/-- A step that changes `DIV` or an enable is power-on reset, or takes from the port a CONFIGURE or a RETIME; a step that changes
a phase is one of those too, or the lane's own clock cycle, which counts it up or, at the lane's tick, restarts it (R21, R22,
R30). -/
def Obligations.DivisorOnlyByConfigure : Prop :=
  ∀ s t : State, step s = .next t →
    (t.div ≠ s.div ∨ t.enRd ≠ s.enRd ∨ t.enWr ≠ s.enWr → s.Reconfigures) ∧
    (t.phaseRd ≠ s.phaseRd → s.Reconfigures ∨ s.turn = .rdLane ∧ s.enRd = true ∧
      t.phaseRd = if s.phaseRd = s.div - 1#16 then 0#16 else s.phaseRd + 1#16) ∧
    (t.phaseWr ≠ s.phaseWr → s.Reconfigures ∨ s.turn = .wrLane ∧ s.enWr = true ∧
      t.phaseWr = if s.phaseWr = s.div - 1#16 then 0#16 else s.phaseWr + 1#16)

/-- The completion flag is set by its lane alone, at slot 0 with nothing queued, and cleared by the sequencer alone, in the
hand-off protocol (R29). -/
def Obligations.StalledFlagOwners : Prop :=
  ∀ s t : State, s.por = false → step s = .next t →
    (s.stalledRd = false → t.stalledRd = true → s.turn = .rdLane ∧ s.pcRd = 0#3 ∧ s.inqRd = []) ∧
    (s.stalledWr = false → t.stalledWr = true → s.turn = .wrLane ∧ s.pcWr = 0#2 ∧ s.inqWr = []) ∧
    (s.stalledRd = true → t.stalledRd = false →
      s.turn = .sequencer ∧ ∃ rest, s.opstate = .busy (.clearStalled .rd :: rest)) ∧
    (s.stalledWr = true → t.stalledWr = false →
      s.turn = .sequencer ∧ ∃ rest, s.opstate = .busy (.clearStalled .wr :: rest))

/-- The address lines change at `SetAddr` alone and the reset line at a reset-line assignment alone, and HWRESET alone brings such
an assignment into the sequencer's position (R31, R35). -/
def Obligations.PinOwners : Prop :=
  ∀ s t : State, s.por = false → step s = .next t →
    (t.cs ≠ s.cs ∨ t.da ≠ s.da → ∃ ra rest, s.opstate = .busy (.setAddr ra :: rest) ∧ t.cs = csOf ra ∧ t.da = daOf ra) ∧
    (t.rst ≠ s.rst → ∃ rest, s.opstate = .busy (.setRst t.rst :: rest)) ∧
    (∀ code level, t.opstate = .busy code → .setRst level ∈ code →
      (∃ code', s.opstate = .busy code' ∧ .setRst level ∈ code') ∨
      s.turn = .sequencer ∧ s.opstate = .idle ∧ ∃ cw cdb more,
        s.port = .command cw cdb :: more ∧ decode (.h64 cw cdb) = .ok .hwreset)

/-- No step takes back or rewrites a bus event, no step makes two, and no step changes a parameter (R8, R82). -/
def Obligations.EventsOnlyAdded : Prop :=
  ∀ s t : State, step s = .next t →
    t.params = s.params ∧ ∃ extra, t.trace = s.trace ++ extra ∧ extra.length ≤ 1

/-! ## Reset, violations -/

/-- Power-on reset puts every field of the engine at the value of R360, in the machine after reset and whenever it is requested,
and nothing else leaves FAULTED. -/
def Obligations.ResetValues : Prop :=
  State.reset.AtReset ∧ (∀ s : State, s.por = true → ∃ t, step s = .next t ∧ t.AtReset) ∧
  ∀ s t : State, s.opstate = .faulted → step s = .next t → s.por = true

/-- FAULTED without a requested power-on reset is the fault of R333. A requested one restores the model's whole reset state but the
record of events, the host's memories and the environment's inputs: that these are kept, and that the reset line's release is no
bus event, is the model's choice (log entry 6), and so are the zeros it puts into `X`, `OSR`, `DD_OUT`, `RVAL`, `SECT_REM` and
`POLLCNT`, which R360 leaves unspecified (log entry 3), and the values of the model's own fields (log entry 25). -/
def Obligations.FaultedUntilPowerOn : Prop :=
  (∀ s : State, s.opstate = .faulted → s.por = false → step s = .fault .engineFaulted) ∧
  (∀ s : State, s.por = true → step s = .next { State.reset with
    trace := s.trace, emitted := s.emitted, buf := s.buf, idArr := s.idArr, answer := s.answer, samples := s.samples
    drawn := s.drawn, port := s.port, pace := s.pace, params := s.params })

/-- The six reserved operation codes take the precondition violation (R105): `RES` FATAL, `OPSTATE` FAULTED, the reason, and
nothing else changes (R333). That a bare reserved register address code, as an instruction of its own, takes it too, and in any
state, is the model's reading (log entry 12): R105 and R109 speak of such a code inside RDREG and WRREG. -/
def Obligations.ReservedRaise : Prop :=
  ∀ s : State,
    (∀ i f, s.opstate = .idle →
      i = .reservedOpc0 f ∨ i = .reservedOpcB f ∨ i = .reservedOpcC f ∨ i = .reservedOpcD f ∨ i = .reservedOpcE f ∨
        i = .reservedOpcF f →
      exec i s = .next { s with res := .fatal, opstate := .faulted, reason := some .reservedEncoding }) ∧
    (∀ i, i = .raReserved8 ∨ i = .raReserved9 ∨ i = .raReservedA ∨ i = .raReservedB ∨ i = .raReservedC ∨
        i = .raReservedD ∨ i = .raReservedF →
      exec i s = .next { s with res := .fatal, opstate := .faulted, reason := some .reservedEncoding })

/-- An operand outside its legal range takes the precondition violation with its own reason, before anything else changes;
RDSECT checks its count before its LBA (R104, R334, R338). -/
def Obligations.OperandViolations : Prop :=
  ∀ s : State, s.opstate = .idle →
    (∀ ra v, isEnumerator ra = false →
      exec (.rdreg ra) s = .next { s with res := .fatal, opstate := .faulted, reason := some .reservedEncoding } ∧
      exec (.wrreg ra v) s = .next { s with res := .fatal, opstate := .faulted, reason := some .reservedEncoding }) ∧
    (∀ ct : BitVec 32, 65535 < divisor s.params ct.toNat →
      exec (.configure ct) s = .next { s with res := .fatal, opstate := .faulted, reason := some .divisorRange }) ∧
    exec (.pioread 0#32) s = .next { s with res := .fatal, opstate := .faulted, reason := some .wordCount } ∧
    (∀ dev (lba : BitVec 32) (count : BitVec 16), count.toNat = 0 ∨ 256 < count.toNat →
      exec (.rdsect dev lba count) s =
        .next { s with res := .fatal, opstate := .faulted, reason := some .sectorCount }) ∧
    (∀ dev (lba : BitVec 32) (count : BitVec 16), 1 ≤ count.toNat → count.toNat ≤ 256 → 2 ^ 28 ≤ lba.toNat →
      exec (.rdsect dev lba count) s = .next { s with res := .fatal, opstate := .faulted, reason := some .lbaRange })

/-! ## CONFIGURE and the divisor -/

/-- CONFIGURE: its command word; a divisor out of range is refused and changes nothing of the engine but `RES` and `OPSTATE`;
with idle lanes and a divisor in range it installs it on both lanes, enables both, restarts both phases, ends OK, and changes
nothing else (R143). -/
def Obligations.ConfigureInstalls : Prop :=
  (∀ (ct : BitVec 32) (cdb : Cdb), decode (.h64 (ct ++ 0x00000001#32) cdb) = .ok (.configure ct)) ∧
  (∀ (s : State) (ct : BitVec 32), s.opstate = .idle → 65535 < divisor s.params ct.toNat →
    exec (.configure ct) s = .next { s with res := .fatal, opstate := .faulted, reason := some .divisorRange }) ∧
  ∀ (s : State) (ct : BitVec 32), s.opstate = .idle → s.lanesIdle = true → s.access = .none →
    divisor s.params ct.toNat ≤ 65535 →
    ∃ d : BitVec 16, d.toNat = divisor s.params ct.toNat ∧
      exec (.configure ct) s = .next { s with
        div := d, enRd := true, enWr := true, phaseRd := 0#16, phaseWr := 0#16, res := .ok }

/-- CONFIGURE with a lane at work is undefined, and the model faults (R144). -/
def Obligations.ConfigureNeedsIdle : Prop :=
  ∀ (s : State) (ct : BitVec 32), s.opstate = .idle → s.lanesIdle = false → divisor s.params ct.toNat ≤ 65535 →
    exec (.configure ct) s = .fault .reconfigureInFlight

/-- The divisor is at least 1, its bus cycle is never shorter than asked, and it is monotone (R145). -/
def Obligations.DivisorBounds : Prop :=
  ∀ (p : Config.Params) (ct : Nat),
    1 ≤ divisor p ct ∧ ct * p.fSysHz ≤ divisor p ct * Config.ipl * 10 ^ 9 ∧
    ∀ ct', ct ≤ ct' → divisor p ct ≤ divisor p ct'

/-- No smaller divisor would do (R145, derived there), and the largest legal cycle time is the one R142 gives. -/
def Obligations.DivisorLeast : Prop :=
  (∀ (p : Config.Params) (ct d : Nat), 1 ≤ d → ct * p.fSysHz ≤ d * Config.ipl * 10 ^ 9 → divisor p ct ≤ d) ∧
  (∀ (p : Config.Params) (ct : Nat), 65535 < divisor p ct ↔ 65535 * Config.ipl * 10 ^ 9 < ct * p.fSysHz)

/-! ## The host operations, from acceptance to their end

What these statements say of `SECT_REM` and `POLLCNT` at an operation's end is the model's choice (log entry 31): R38 leaves the
two unspecified between operations, and the model keeps the values last written. -/

/-- RDREG: a register address that is no enumerator is refused; else one access, the sampled word in `RVAL` (R184). `SECT_REM`
and `POLLCNT` after it: log entry 31. -/
def Obligations.RdregRuns : Prop :=
  ∀ (s : State) (ra : BitVec 4), s.Waiting →
    (isEnumerator ra = false →
      exec (.rdreg ra) s = .next { s with res := .fatal, opstate := .faulted, reason := some .reservedEncoding }) ∧
    (isEnumerator ra = true → EndsAs (.rdreg ra) s ({ s.didRead ra with rval := s.sampleAt 0 }.ended .ok))

/-- WRREG: its command word; a register address that is no enumerator is refused; else one access, the value unmasked on the
lines (R185). `SECT_REM` and `POLLCNT` after it: log entry 31. -/
def Obligations.WrregRuns : Prop :=
  (∀ (ra : BitVec 4) (v : BusWord) (cdb : Cdb),
    decode (.h64 (0#32 ++ (v ++ (0#6 ++ (0#1 ++ (ra ++ (0#1 ++ 0x3#4)))))) cdb) = .ok (.wrreg ra v)) ∧
  ∀ (s : State) (ra : BitVec 4) (v : BusWord), s.Waiting →
    (isEnumerator ra = false →
      exec (.wrreg ra v) s = .next { s with res := .fatal, opstate := .faulted, reason := some .reservedEncoding }) ∧
    (isEnumerator ra = true → EndsAs (.wrreg ra v) s ((s.didWrite ra [v]).ended .ok))

/-- HWRESET: its command word; the reset pulse, the two delays, polls until BSY clears, ERR not examined; under a poll limit
that the polls use up, TIMEOUT (R202, R204). `SECT_REM` and `POLLCNT` after it: log entry 31. -/
def Obligations.HwresetRuns : Prop :=
  (∀ cdb, decode (.h64 0x0000000000000004#64 cdb) = .ok .hwreset) ∧
  ∀ (s : State), s.Waiting →
    (∀ n, s.PollEnds .notBusy n true → EndsAs .hwreset s ((s.didReset.didPolls (n + 1)).ended .ok)) ∧
    (∀ limit, s.PollTimesOut .notBusy limit → EndsAs .hwreset s ((s.didReset.didPolls limit).ended .timeout))

/-- DEVRESET: its command word; device selector, DEVICE_RESET, polls until BSY clears; OK exactly if ERR is clear in that same
sample; TIMEOUT under a poll limit (R202, R205). `SECT_REM` and `POLLCNT` after it: log entry 31. -/
def Obligations.DevresetRuns : Prop :=
  (∀ (dev : BitVec 1) (cdb : Cdb),
    decode (.h64 (0#32 ++ (0#16 ++ (0#6 ++ (0#1 ++ (0#4 ++ (dev ++ 0x5#4)))))) cdb) = .ok (.devreset dev)) ∧
  ∀ (s : State) (dev : BitVec 1), s.Waiting →
    (∀ n, s.PollEnds .notBusy n true →
      EndsAs (.devreset dev) s
        (((s.didDevResetSetup dev).didPolls (n + 1)).ended (if (s.sampleAt n).getLsbD 0 then .fail else .ok))) ∧
    (∀ limit, s.PollTimesOut .notBusy limit →
      EndsAs (.devreset dev) s (((s.didDevResetSetup dev).didPolls limit).ended .timeout))

/-- ISREADY: its command word; one poll, no limit; `RVAL` is 1 exactly if BSY is clear and DRDY set (R208). `SECT_REM` and
`POLLCNT` after it: log entry 31. -/
def Obligations.IsreadyRuns : Prop :=
  (∀ cdb, decode (.h64 0x0000000000000006#64 cdb) = .ok .isready) ∧
  ∀ s : State, s.Waiting →
    EndsAs .isready s
      ({ s.didRead Config.raStatus with
        rval := if (s.sampleAt 0).getLsbD 7 = false ∧ (s.sampleAt 0).getLsbD 6 = true then 1#16 else 0#16 }.ended .ok)

/-- PIOREAD: its command word; zero words are refused; else the gate, then one burst of exactly `n` words into the caller's
buffer; a device error at the gate ends it with FAIL and nothing read, a poll limit with TIMEOUT (R202, R230, R233).
`SECT_REM` and `POLLCNT` after it: log entry 31. -/
def Obligations.PioreadRuns : Prop :=
  (∀ (n : BitVec 32) (cdb : Cdb), decode (.h64 (n ++ 0x00000007#32) cdb) = .ok (.pioread n)) ∧
  ∀ (s : State) (n : BitVec 32), s.Waiting →
    (n = 0#32 →
      exec (.pioread n) s = .next { s with res := .fatal, opstate := .faulted, reason := some .wordCount }) ∧
    (∀ k, n ≠ 0#32 → s.PollEnds .drq k true →
      EndsAs (.pioread n) s (((s.restarted.didPolls (k + 1)).didBurst Config.raData n.toNat).ended .ok)) ∧
    (∀ k, n ≠ 0#32 → s.PollEnds .drq k false →
      EndsAs (.pioread n) s ((s.restarted.didPolls (k + 1)).ended .fail)) ∧
    (∀ limit, n ≠ 0#32 → s.PollTimesOut .drq limit →
      EndsAs (.pioread n) s ((s.restarted.didPolls limit).ended .timeout))

/-- RDSECT with every gate ending well: the ready wait, the six writes in their order, `count` gated bursts of 256 words,
`SECT_REM` run down to 0 (R236, R238). `SECT_REM` and `POLLCNT` after it: log entry 31. -/
def Obligations.RdsectRuns : Prop :=
  ∀ (s : State) (dev : BitVec 1) (lba : BitVec 32) (count : BitVec 16) (k : Nat) (gates : List Nat), s.Waiting →
    wellFormed (.rdsect dev lba count) = true → s.PollEnds .ready k true →
    ((s.restarted.didPolls (k + 1)).didSectorSetup dev lba count).SectorsReady gates → gates.length = count.toNat →
    EndsAs (.rdsect dev lba count) s
      ((((s.restarted.didPolls (k + 1)).didSectorSetup dev lba count).didSectors gates).ended .ok)

/-- RDSECT that does not come to its end: with a device error at the gate of some sector FAIL, with a poll limit used up there
TIMEOUT, the sectors before it read and no other; with the limit used up in the ready wait TIMEOUT, and nothing written (R202,
R231, R236). `SECT_REM` and `POLLCNT` after it: log entry 31. -/
def Obligations.RdsectFails : Prop :=
  ∀ (s : State) (dev : BitVec 1) (lba : BitVec 32) (count : BitVec 16), s.Waiting →
    wellFormed (.rdsect dev lba count) = true →
    (∀ limit, s.PollTimesOut .ready limit →
      EndsAs (.rdsect dev lba count) s ((s.restarted.didPolls limit).ended .timeout)) ∧
    ∀ (k : Nat) (gates : List Nat), s.PollEnds .ready k true →
      ((s.restarted.didPolls (k + 1)).didSectorSetup dev lba count).SectorsReady gates → gates.length < count.toNat →
      ∀ u, u = ((s.restarted.didPolls (k + 1)).didSectorSetup dev lba count).didSectors gates →
        (∀ m, u.PollEnds .drq m false → EndsAs (.rdsect dev lba count) s ((u.didPolls (m + 1)).ended .fail)) ∧
        (∀ limit, u.PollTimesOut .drq limit → EndsAs (.rdsect dev lba count) s ((u.didPolls limit).ended .timeout))

/-- IDENT: its command word; device selector, the command byte `IDC` selects, the gate, one burst of 256 words (R240). That
IDENT itself makes those words the host's identify array is the model's choice (log entry 10). A device error at the gate is
FAIL, a poll limit used up there TIMEOUT (R202). `SECT_REM` and `POLLCNT` after it: log entry 31. -/
def Obligations.IdentRuns : Prop :=
  (∀ (dev idc : BitVec 1) (cdb : Cdb),
    decode (.h64 (0#32 ++ (0#16 ++ (0#6 ++ (idc ++ (0#4 ++ (dev ++ 0x9#4)))))) cdb) = .ok (.ident dev idc)) ∧
  ∀ (s : State) (dev idc : BitVec 1), s.Waiting →
    (∀ k, s.PollEnds .drq k true →
      EndsAs (.ident dev idc) s
        ({ ((s.restarted.didIdentSetup dev idc).didPolls (k + 1)).didBurst Config.raData 256 with
          idArr := (((s.restarted.didIdentSetup dev idc).didPolls (k + 1)).didBurst Config.raData 256).buf.firstWords
            256 }.ended .ok)) ∧
    (∀ k, s.PollEnds .drq k false →
      EndsAs (.ident dev idc) s (((s.restarted.didIdentSetup dev idc).didPolls (k + 1)).ended .fail)) ∧
    (∀ limit, s.PollTimesOut .drq limit →
      EndsAs (.ident dev idc) s (((s.restarted.didIdentSetup dev idc).didPolls limit).ended .timeout))

/-- PACKET: its command word; the set-up, the gate, the six packet words, the dummy Alternate Status read; a device error at
the gate is FAIL with no packet, a poll limit used up there TIMEOUT (R202, R260, R262, R263). `SECT_REM` and `POLLCNT` after
it: log entry 31. -/
def Obligations.PacketRuns : Prop :=
  (∀ (dev : BitVec 1) (limit : BitVec 16) (cdb : Cdb),
    decode (.h64 (0#32 ++ (limit ++ (0#6 ++ (0#1 ++ (0#4 ++ (dev ++ 0xA#4)))))) cdb) = .ok (.packet dev limit cdb)) ∧
  ∀ (s : State) (dev : BitVec 1) (limit : BitVec 16) (cdb : Cdb), s.Waiting →
    (∀ k, s.PollEnds .drq k true →
      EndsAs (.packet dev limit cdb) s
        (((((s.didPacketSetup dev limit).didPolls (k + 1)).didWrite Config.raData (packetWords cdb)).didRead
          Config.raAltStatus).ended .ok)) ∧
    (∀ k, s.PollEnds .drq k false →
      EndsAs (.packet dev limit cdb) s (((s.didPacketSetup dev limit).didPolls (k + 1)).ended .fail)) ∧
    (∀ polls, s.PollTimesOut .drq polls →
      EndsAs (.packet dev limit cdb) s (((s.didPacketSetup dev limit).didPolls polls).ended .timeout))

/-- What the set-ups write, register by register and byte by byte, in the order of the writes: DEVRESET, RDSECT, IDENT, PACKET
(R111, R112, R113, R205, R238, R240, R260). -/
def Obligations.SetupWrites : Prop :=
  ∀ (s : State) (dev idc : BitVec 1) (lba : BitVec 32) (count limit : BitVec 16), s.params.devFixed = 0#8 →
    1 ≤ count.toNat → count.toNat ≤ 256 → lba.toNat < 2 ^ 28 →
    ∃ sel seln : BusWord, sel.toNat = 16 * dev.toNat ∧ seln.toNat = 64 + 16 * dev.toNat + lba.toNat / 2 ^ 24 ∧
    ∃ cnt low mid high : BusWord, cnt.toNat = count.toNat % 256 ∧ low.toNat = lba.toNat % 2 ^ 8 ∧
      mid.toNat = lba.toNat / 2 ^ 8 % 2 ^ 8 ∧ high.toNat = lba.toNat / 2 ^ 16 % 2 ^ 8 ∧
    ∃ ll lh : BusWord, ll.toNat = limit.toNat % 256 ∧ lh.toNat = limit.toNat / 256 ∧
      s.didDevResetSetup dev = (s.didWrite 0x6#4 [sel]).didWrite 0x7#4 [0x0008#16] ∧
      s.didSectorSetup dev lba count =
        { ((((((s.didWrite 0x2#4 [cnt]).didWrite 0x3#4 [low]).didWrite 0x4#4 [mid]).didWrite 0x5#4 [high]).didWrite
          0x6#4 [seln]).didWrite 0x7#4 [0x0020#16]) with sectRem := count.setWidth 9 } ∧
      s.didIdentSetup dev idc =
        (s.didWrite 0x6#4 [sel]).didWrite 0x7#4 [if idc = 0#1 then 0x00EC#16 else 0x00A1#16] ∧
      s.didPacketSetup dev limit =
        ((((s.didWrite 0x1#4 [0#16]).didWrite 0x4#4 [ll]).didWrite 0x5#4 [lh]).didWrite 0x6#4 [sel]).didWrite 0x7#4
          [0x00A0#16]

/-- Without a poll limit, an operation whose first polling loop is given no exit sample is accepted and does not end: as long as the
samples of a run decide nothing the engine stays BUSY, however long the run (R214, R335). -/
def Obligations.UnboundedLoopHangs : Prop :=
  ∀ (s : State) (i : Instr) (k : PollLoop), s.Waiting → s.params.pollLimit = none →
    wellFormed i = true → firstLoop i = some k →
    ∃ t, exec i s = .next t ∧
      ∀ n, (∀ j, j < n → pollOutcome k (s.sampleAt j) = none) →
        ∃ u code, Host.Core.run Sys2Proof.core n t = .next u ∧ u.opstate = .busy code

/-- The same at a later loop, which RDSECT alone has: without a poll limit, at the gate of any of its sectors, after every number of
polls that decide nothing the operation has not ended (R214, R230, R236). -/
def Obligations.SectorGateHangs : Prop :=
  ∀ (s : State) (dev : BitVec 1) (lba : BitVec 32) (count : BitVec 16) (k : Nat) (gates : List Nat), s.Waiting →
    s.params.pollLimit = none → wellFormed (.rdsect dev lba count) = true → s.PollEnds .ready k true →
    ((s.restarted.didPolls (k + 1)).didSectorSetup dev lba count).SectorsReady gates → gates.length < count.toNat →
    ∀ u, u = ((s.restarted.didPolls (k + 1)).didSectorSetup dev lba count).didSectors gates →
      ∃ t, exec (.rdsect dev lba count) s = .next t ∧
        ∀ n, 1 ≤ n → (∀ j, j < n → pollOutcome .drq (u.sampleAt j) = none) →
          ∃ code f, Reaches t ({ u.didPolls n with opstate := .busy code, turn := .sequencer }.withLoose f)

/-- Before the first CONFIGURE every operation that makes an access is accepted and hangs at its first one: BUSY after every
number of steps, and no strobe pulse ever (R366). -/
def Obligations.UnconfiguredHangs : Prop :=
  ∀ (s : State) (i : Instr), s.opstate = .idle → s.lanesIdle = true → s.access = .none → s.enRd = false →
    s.enWr = false → s.por = false → s.params.pollLimit ≠ some 0 → accessesBus i = true →
    ∃ t, exec i s = .next t ∧
      ∀ n, ∃ u code extra, Host.Core.run Sys2Proof.core n t = .next u ∧ u.opstate = .busy code ∧
        u.trace = s.trace ++ extra ∧ ∀ e ∈ extra, e.isStrobe = false

/-- What a burst leaves in the caller's buffer: the `i`-th emitted word at index `i` of the stream position, every other word
and every other byte as before, the memory in canonical form (R107, R232). -/
def Obligations.BurstFillsBuffer : Prop :=
  ∀ (s : State) (ra : BitVec 4) (n : Nat), s.buf.wf →
    (∀ i, i < n → (s.didBurst ra n).buf.readWord (s.emitted + i) = s.sampleAt i) ∧
    (∀ a, a < 2 * s.emitted ∨ 2 * (s.emitted + n) ≤ a → (s.didBurst ra n).buf.readByte a = s.buf.readByte a) ∧
    (s.didBurst ra n).buf.wf

/-- What RDSECT leaves: sector `k` at words `256k` to `256k+255` of the buffer, `256 * count` words in the stream, `SECT_REM`
zero (R237). -/
def Obligations.SectorsFillBuffer : Prop :=
  ∀ (s : State) (gates : List Nat), s.buf.wf → s.emitted = 0 → s.sectRem.toNat = gates.length →
    (s.didSectors gates).emitted = 256 * gates.length ∧ (s.didSectors gates).sectRem = 0#9 ∧
    ∀ k i, k < gates.length → i < 256 →
      (s.didSectors gates).buf.readWord (256 * k + i) = s.sampleAt ((gates.take (k + 1)).sum + (k + 1) + 256 * k + i)

/-! ## The sequencer's instructions -/

/-- The nine enumerators: `SetAddr` drives the chip select of the code's group and the code's offset, in one step, as one
`ADDR` event (R180). That a register address code is an instruction, and that instruction this `SetAddr`, is the model's reading
of the opcode table (log entry 12). -/
def Obligations.SetAddrDrives : Prop :=
  ∀ s : State, s.access = .none → s.lanesIdle = true →
    ∀ i cs da, (i, cs, da) ∈
      [ (Instr.raData, 0b01#2, 0#3), (.raErrorFeatures, 0b01#2, 1#3), (.raSectorCount, 0b01#2, 2#3),
        (.raLbaLow, 0b01#2, 3#3), (.raLbaMid, 0b01#2, 4#3), (.raLbaHigh, 0b01#2, 5#3), (.raDevice, 0b01#2, 6#3),
        (.raStatusCommand, 0b01#2, 7#3), (.raAltStatus, 0b10#2, 6#3) ] →
      exec i s = .next { s with cs := cs, da := da, access := .addressed, trace := s.trace ++ [.addr cs da] }

/-- An access begun while another is under way or a lane is at work is undefined, and the model faults (R74, R183); the
instructions are the register address codes, read as `SetAddr` (log entry 12). -/
def Obligations.OverlapFaults : Prop :=
  ∀ (s : State) (i : Instr), s.access ≠ .none ∨ s.lanesIdle = false →
    i = .raData ∨ i = .raErrorFeatures ∨ i = .raSectorCount ∨ i = .raLbaLow ∨ i = .raLbaMid ∨ i = .raLbaHigh ∨
      i = .raDevice ∨ i = .raStatusCommand ∨ i = .raAltStatus →
    exec i s = .fault .overlappingAccess

/-- The five status bit tests read their bit of the low byte of the word just polled and nothing else (R110). -/
def Obligations.StatusBitTests : Prop :=
  ∀ s : State, ∀ i n, (i, n) ∈ [(Instr.stBsy, 7), (.stDrdy, 6), (.stDf, 5), (.stDrq, 3), (.stErr, 0)] →
    exec i s = .next { s with cond := s.smp.getLsbD n }

/-- The decision on one sample of the data-request gate, and the position each branch of it leaves the sequencer at: BSY
discards, then DRQ succeeds, then ERR fails, else the loop goes on (R209, R210). -/
def Obligations.GateBranches : Prop :=
  (∀ v : BusWord,
    (v.getLsbD 7 = true → drqOutcome v = none) ∧
    (v.getLsbD 7 = false → v.getLsbD 3 = true → drqOutcome v = some true) ∧
    (v.getLsbD 7 = false → v.getLsbD 3 = false → v.getLsbD 0 = true → drqOutcome v = some false) ∧
    (v.getLsbD 7 = false → v.getLsbD 3 = false → v.getLsbD 0 = false → drqOutcome v = none)) ∧
  (∀ (s : State) (rest : List SeqOp), s.access = .none →
    (s.cond = true → takeBranch (.loopBsy .drq) rest s = .next { s with opstate := .busy (.pollTop .drq :: rest) }) ∧
    (s.cond = false → takeBranch (.loopBsy .drq) rest s =
      .next { s with opstate := .busy (.test .drq :: .branch .drqDrq :: rest) }) ∧
    (s.cond = true → takeBranch .drqDrq rest s = .next { s with opstate := .busy rest }) ∧
    (s.cond = false → takeBranch .drqDrq rest s =
      .next { s with opstate := .busy (.test .err :: .branch .drqErr :: rest) }) ∧
    (s.cond = true → takeBranch .drqErr rest s = .next { s with res := .fail, opstate := .idle }) ∧
    (s.cond = false → takeBranch .drqErr rest s = .next { s with opstate := .busy (.pollTop .drq :: rest) }))

/-- The five commands: from an idle bus, one write of the command byte to the Command register, and the sequencer goes on
with what was left; issued while IDLE the write is the whole operation (R114, R212; the second is log entry 14, and `SECT_REM` and
`POLLCNT` after it log entry 31). -/
def Obligations.CommandsIssued : Prop :=
  ∀ (s : State) (i : Instr) (byte : BusWord), s.Live → s.lanesIdle = true → s.access = .none →
    (i, byte) ∈ [(Instr.cmdDeviceReset, 0x0008#16), (.cmdReadSectors, 0x0020#16), (.cmdPacket, 0x00A0#16),
      (.cmdIdentifyPacketDevice, 0x00A1#16), (.cmdIdentifyDevice, 0x00EC#16)] →
    (∀ rest, s.opstate = .busy rest →
      ∃ t, exec i s = .next t ∧
        ∃ f, Reaches t ({ s.didWrite 0x7#4 [byte] with turn := .sequencer }.withLoose f)) ∧
    (s.opstate = .idle → EndsAs i s ((s.didWrite 0x7#4 [byte]).ended .ok))

/-- The three SCSI commands: from an idle bus, the twelve bytes go out as six words to the Data register, the even-indexed
byte in the high half, and the sequencer goes on with what was left; issued while IDLE they are the whole operation (R115,
R261; the second is log entry 14, and `SECT_REM` and `POLLCNT` after it log entry 31). -/
def Obligations.PacketForwarded : Prop :=
  ∀ (s : State) (i : Instr) (op : Byte) (b : CdbBody), s.Live → s.lanesIdle = true → s.access = .none →
    (i, op) ∈ [(Instr.scsiTestUnitReady b, 0x00#8), (.scsiInquiry b, 0x12#8), (.scsiRead10 b, 0x28#8)] →
    (∀ rest, s.opstate = .busy rest →
      ∃ t, exec i s = .next t ∧
        ∃ f, Reaches t ({ s.didWrite 0x0#4
          [op ++ b.b1, b.b2 ++ b.b3, b.b4 ++ b.b5, b.b6 ++ b.b7, b.b8 ++ b.b9, b.b10 ++ b.b11] with
          turn := .sequencer }.withLoose f)) ∧
    (s.opstate = .idle → EndsAs i s ((s.didWrite 0x0#4
      [op ++ b.b1, b.b2 ++ b.b3, b.b4 ++ b.b5, b.b6 ++ b.b7, b.b8 ++ b.b9, b.b10 ++ b.b11]).ended .ok))

/-! ## The lanes' micro-instructions -/

/-- The micro-instructions of both lanes but the two that end or begin a bus event, each at its slot (R150 to R152, R154 to
R157). -/
def Obligations.LaneSlots : Prop :=
  (decode (.rdSlot 0#3) = .ok .rdGetcnt ∧ decode (.rdSlot 1#3) = .ok .rdRstbLo ∧ decode (.rdSlot 2#3) = .ok .rdRhold ∧
    decode (.rdSlot 4#3) = .ok .rdRstbHiLoop ∧ decode (.wrSlot 0#2) = .ok .wrGetdata ∧
    decode (.wrSlot 1#2) = .ok .wrWstbLo ∧ decode (.wrSlot 2#2) = .ok .wrWhold) ∧
  ∀ s : State,
    (s.inqRd = [] → exec .rdGetcnt s = .next { s with stalledRd := true, pcRd := 0#3 }) ∧
    (∀ w rest, s.inqRd = w :: rest → exec .rdGetcnt s = .next { s with x := w, inqRd := rest, pcRd := 1#3 }) ∧
    exec .rdRstbLo s = .next { s with rdStb := true, pcRd := 2#3 } ∧
    exec .rdRhold s = .next { s with pcRd := 3#3 } ∧
    (s.x = 0#32 → exec .rdRstbHiLoop s = .next { s with rdStb := false, pcRd := 0#3 }) ∧
    (s.x ≠ 0#32 → exec .rdRstbHiLoop s = .next { s with rdStb := false, x := s.x - 1#32, pcRd := 1#3 }) ∧
    (s.inqWr = [] → exec .wrGetdata s = .next { s with stalledWr := true, ddOe := false, pcWr := 0#2 }) ∧
    (∀ w rest, s.inqWr = w :: rest → exec .wrGetdata s = .next { s with
      osr := w, inqWr := rest, ddOut := w, ddOe := true, pcWr := 1#2 }) ∧
    exec .wrWstbLo s = .next { s with wrStb := true, pcWr := 2#2 } ∧
    exec .wrWhold s = .next { s with pcWr := 3#2 }

/-- SAMPLE and WSTB_HI: a full `RXQ` stalls the first with its strobe asserted (R153); else it pushes the next value the
environment puts on the lines. The bus event is recorded at SAMPLE for a read and at WSTB_HI for a write, which is the model's
choice (log entry 8). -/
def Obligations.LaneEvents : Prop :=
  decode (.rdSlot 3#3) = .ok .rdSample ∧ decode (.wrSlot 3#2) = .ok .wrWstbHi ∧
  ∀ s : State,
    (s.params.fifoDepth ≤ s.rxq.length → exec .rdSample s = .next { s with pcRd := 3#3 }) ∧
    (s.rxq.length < s.params.fifoDepth → exec .rdSample s = .next { s with
      rxq := s.rxq ++ [s.sampleAt 0], pcRd := 4#3, samples := s.samples.drop 1, drawn := s.drawn + 1
      trace := s.trace ++ [.rd s.cs s.da (s.sampleAt 0)] }) ∧
    exec .wrWstbHi s = .next { s with wrStb := false, pcWr := 0#2, trace := s.trace ++ [.wr s.cs s.da s.osr] }

/-! ## The identify decoder -/

/-- The accessors of word 0, and the capacity in words 60 and 61 (R282 to R285, R316, R321). -/
def Obligations.IdentifyWordZero : Prop :=
  ∀ s : State, ∀ w, w = (s.idArr.readWord 0).toNat →
    exec .idDeviceClass s = .next { s with answer := .num (w / 2 ^ 14) } ∧
    exec .idIsAtapi s = .next { s with answer := .flag (decide (w / 2 ^ 14 = 2)) } ∧
    exec .idRemovable s = .next { s with answer := .flag (decide (w / 2 ^ 7 % 2 = 1)) } ∧
    exec .idResponseIncomplete s = .next { s with answer := .flag (decide (w / 2 ^ 2 % 2 = 1)) } ∧
    exec .idPacketSize s = .next { s with
      answer := if w % 4 = 0 then .num 12 else if w % 4 = 1 then .num 16 else .absent } ∧
    exec .idCapacitySectors s = .next { s with
      answer := .num ((s.idArr.readWord 61).toNat * 65536 + (s.idArr.readWord 60).toNat) }

/-- The three strings: twice as many characters as words and a NUL, character `2k` the high byte of word `k`, character
`2k+1` its low byte, nothing trimmed (R290 to R293). -/
def Obligations.IdentifyStrings : Prop :=
  ∀ s : State, ∀ i first n, (i, first, n) ∈
      [(Instr.idSerialNumber, 10, 10), (.idFirmwareRevision, 23, 4), (.idModelNumber, 27, 20)] →
    ∃ str, exec i s = .next { s with answer := .text str } ∧ str.length = 2 * n + 1 ∧ str[2 * n]? = some 0#8 ∧
      ∀ k, k < n → str[2 * k]? = some (s.idArr.readByte (2 * (first + k) + 1)) ∧
        str[2 * k + 1]? = some (s.idArr.readByte (2 * (first + k)))

/-- The timing accessors: the validity bits raw, and words 64, 67 and 68 only where word 53 bit 1 validates them (R295 to
R300). -/
def Obligations.IdentifyTiming : Prop :=
  ∀ s : State,
    exec .idFieldsValid s = .next { s with answer := .num ((s.idArr.readWord 53).toNat % 8) } ∧
    exec .idIordySupported s = .next { s with answer := .flag ((s.idArr.readWord 49).getLsbD 11) } ∧
    exec .idIordyCanDisable s = .next { s with answer := .flag ((s.idArr.readWord 49).getLsbD 10) } ∧
    ((s.idArr.readWord 53).getLsbD 1 = true →
      exec .idAdvPioModes s = .next { s with answer := .num ((s.idArr.readWord 64).toNat % 4) } ∧
      exec .idMinPioCycleTime s = .next { s with answer := .num (s.idArr.readWord 67).toNat } ∧
      exec .idMinPioCycleTimeIordy s = .next { s with answer := .num (s.idArr.readWord 68).toNat }) ∧
    ((s.idArr.readWord 53).getLsbD 1 = false →
      exec .idAdvPioModes s = .next { s with answer := .absent } ∧
      exec .idMinPioCycleTime s = .next { s with answer := .absent } ∧
      exec .idMinPioCycleTimeIordy s = .next { s with answer := .absent })

/-- Queue depth and major version: `word75[4:0] + 1`; the highest set bit of word 80, none if it has none (R301, R302). -/
def Obligations.IdentifyNumbers : Prop :=
  ∀ s : State,
    exec .idQueueDepth s = .next { s with answer := .num ((s.idArr.readWord 75).toNat % 32 + 1) } ∧
    (s.idArr.readWord 80 = 0#16 → exec .idMajorVersion s = .next { s with answer := .absent }) ∧
    (∀ i, (s.idArr.readWord 80).getLsbD i = true → (∀ j, i < j → (s.idArr.readWord 80).getLsbD j = false) →
      exec .idMajorVersion s = .next { s with answer := .num i })

/-- A feature flag is the raw bit, and words 83, 84 and 119 give none unless their bits 15:14 are 0b01 (R305). -/
def Obligations.IdentifyFeature : Prop :=
  ∀ (s : State) (w : FeatureWord) (b : BitVec 4) (n : Nat), (w, n) ∈
      [(FeatureWord.w82, 82), (.w83, 83), (.w84, 84), (.w119, 119)] →
    (n = 82 ∨ ((s.idArr.readWord n).getLsbD 15 = false ∧ (s.idArr.readWord n).getLsbD 14 = true) →
      exec (.idFeature w b) s = .next { s with answer := .flag ((s.idArr.readWord n).getLsbD b.toNat) }) ∧
    (n ≠ 82 → ¬((s.idArr.readWord n).getLsbD 15 = false ∧ (s.idArr.readWord n).getLsbD 14 = true) →
      exec (.idFeature w b) s = .next { s with answer := .absent })

/-- The checksum accessors: the signature in the low byte of word 255; the sum of all 512 bytes modulo 256, given only where
the signature stands (R310, R312). -/
def Obligations.IdentifyChecksum : Prop :=
  ∀ s : State,
    exec .idChecksumValid s = .next { s with answer := .flag (decide (s.idArr.readByte 510 = 0xA5#8)) } ∧
    (s.idArr.readByte 510 ≠ 0xA5#8 → exec .idChecksumSumOk s = .next { s with answer := .absent }) ∧
    (s.idArr.readByte 510 = 0xA5#8 → exec .idChecksumSumOk s = .next { s with
      answer := .flag (decide (((List.range 512).map fun a => (s.idArr.readByte a).toNat).sum % 256 = 0)) })

/-- Flipping any single bit outside the signature makes a passing sum check fail (R312). -/
def Obligations.ChecksumSeesEveryBit : Prop :=
  ∀ (id : Memory) (i b : Nat), id.wf → checksumSumOk id = some true → i < 256 → b < 16 → ¬(i = 255 ∧ b < 8) →
    checksumSumOk (id.writeWord i (id.readWord i ^^^ (1#16 <<< b))) = some false

/-- RETIME: with the timing words valid and an advanced mode supported it is CONFIGURE of word 68 as it stands, the checksum
not consulted; otherwise it is no operation (R313, R320). -/
def Obligations.RetimeRuns : Prop :=
  ∀ (s : State) (more : List HostReq), s.por = false → s.turn = .sequencer → s.opstate = .idle →
    s.port = .retime :: more →
    ((s.idArr.readWord 53).getLsbD 1 = true → (s.idArr.readWord 64).toNat % 4 ≠ 0 →
      ∃ ct : BitVec 32, ct.toNat = (s.idArr.readWord 68).toNat ∧
        step s = exec (.configure ct) { s with turn := .rdLane, port := more }) ∧
    ((s.idArr.readWord 53).getLsbD 1 = false ∨ (s.idArr.readWord 64).toNat % 4 = 0 →
      step s = .next { s with turn := .rdLane, port := more })

/-! ## The text form -/

/-- The pseudo-operations stand for the command words of R119. -/
def Obligations.PseudoOperations : Prop :=
  (∀ c : Byte, (AsmLine.wrcmd c).expand = (AsmLine.op (.wrreg 0x7#4 (0x00#8 ++ c))).expand) ∧
  AsmLine.rdstatus.expand = [.command 0x00000000000000E2#64 Cdb.zero] ∧
  AsmLine.rdalt.expand = [.command 0x00000000000001C2#64 Cdb.zero] ∧
  (∀ dev, (AsmLine.tur dev).expand = (AsmLine.op (.packet dev 0#16 Cdb.zero)).expand) ∧
  (∀ dev len, (AsmLine.inquiry dev len).expand =
    (AsmLine.op (.packet dev (0x00#8 ++ len) ⟨0x12#8, ⟨0, 0, 0, len, 0, 0, 0, 0, 0, 0, 0⟩⟩)).expand ++
      (AsmLine.op (.pioread (BitVec.ofNat 32 ((len.toNat + 1) / 2)))).expand) ∧
  (∀ dev b3 b2 b1 b0 n1 n0 limit, (AsmLine.read10 dev (b3 ++ b2 ++ b1 ++ b0) (n1 ++ n0) limit).expand =
    (AsmLine.op (.packet dev limit ⟨0x28#8, ⟨0, b3, b2, b1, b0, 0, n1, n0, 0, 0, 0⟩⟩)).expand) ∧
  AsmLine.retime.expand = [.retime]
end

