-- ==== Sys2Proof/Laws/Decode.lean ====
section
/-! SUPPORT. The laws of the command word's fields: packing and taking apart are inverse, so no bit is dropped or read twice. -/

namespace Sys2Proof

@[simp] theorem h64Opc_pack (opc : BitVec 4) (f : H64Fields) : h64Opc (h64Pack opc f) = opc := by
  unfold h64Opc h64Pack
  ext i hi
  simp [BitVec.getElem_extractLsb']
  grind

@[simp] theorem h64Fields_pack (opc : BitVec 4) (f : H64Fields) : h64Fields (h64Pack opc f) = f := by
  obtain ⟨dev, ra, idc, rsv, imm16, w32⟩ := f
  simp only [h64Fields, h64Pack, H64Fields.mk.injEq]
  refine ⟨?_, ?_, ?_, ?_, ?_, ?_⟩ <;>
  · ext i hi
    simp [BitVec.getElem_extractLsb']
    grind

theorem h64Pack_fields (cw : BitVec 64) : h64Pack (h64Opc cw) (h64Fields cw) = cw := by
  unfold h64Opc h64Pack h64Fields
  ext i hi
  simp
  grind

end Sys2Proof
end

