-- ==== Sys2Proof/Laws/Memory.lean ====
section
/-! SUPPORT. The laws of the host memories: a read after a write, and that every operation keeps the canonical form. -/

namespace Sys2Proof.Machine

@[simp] theorem Memory.readByte_nil (a : Nat) : Memory.readByte [] a = Memory.unlisted := rfl

/-- Below every listed address a memory reads as an unlisted address does. -/
theorem Memory.readByte_below (m : Memory) (a : Nat) (h : ∀ c ∈ m, a < c.1) : m.readByte a = Memory.unlisted := by
  induction m with
  | nil => rfl
  | cons c rest ih =>
    have hc := h c (by simp)
    simp only [Memory.readByte]
    rw [if_neg (by omega)]
    exact ih fun d hd => h d (by simp [hd])

/-- What `writeByte` lists: the written address or an address listed before. -/
theorem Memory.mem_writeByte (m : Memory) (a : Nat) (b : Byte) (c : Host.Cell) (h : c ∈ m.writeByte a b) :
    c = (a, b) ∧ b ≠ Memory.unlisted ∨ c ∈ m := by
  induction m with
  | nil =>
    simp only [Memory.writeByte] at h
    split at h <;> simp_all
  | cons d rest ih =>
    obtain ⟨k, e⟩ := d
    simp only [Memory.writeByte] at h
    split at h
    · rcases List.mem_cons.mp h with h | h
      · exact .inr (by simp [h])
      · rcases ih h with h | h
        · exact .inl h
        · exact .inr (by simp [h])
    · split at h
      · split at h
        · exact .inr (by simp [h])
        · rcases List.mem_cons.mp h with h | h
          · exact .inl ⟨h, by assumption⟩
          · exact .inr (by simp [h])
      · split at h
        · exact .inr h
        · rcases List.mem_cons.mp h with h | h
          · exact .inl ⟨h, by assumption⟩
          · exact .inr h

/-- `writeByte` keeps the canonical form. -/
theorem Memory.wf_writeByte (m : Memory) (a : Nat) (b : Byte) (h : m.wf) : (m.writeByte a b).wf := by
  refine ⟨?_, fun c hc => ?_⟩
  · obtain ⟨hp, -⟩ := h
    induction m with
    | nil => simp only [Memory.writeByte]; split <;> simp
    | cons d rest ih =>
      obtain ⟨k, e⟩ := d
      obtain ⟨hk, hr⟩ := List.pairwise_cons.mp hp
      simp only [Memory.writeByte]
      split
      · refine List.pairwise_cons.mpr ⟨fun c hc => ?_, ih hr⟩
        rcases Memory.mem_writeByte rest a b c hc with ⟨rfl, -⟩ | hc
        · assumption
        · exact hk c hc
      · split
        · subst k
          split
          · exact hr
          · exact List.pairwise_cons.mpr ⟨hk, hr⟩
        · split
          · exact hp
          · refine List.pairwise_cons.mpr ⟨fun c hc => ?_, hp⟩
            rcases List.mem_cons.mp hc with rfl | hc
            · simp; omega
            · have := hk c hc; simp at this ⊢; omega
  · rcases Memory.mem_writeByte m a b c hc with ⟨rfl, hb⟩ | hm
    · exact hb
    · exact h.2 c hm

/-- A byte reads as it was last written. -/
theorem Memory.readByte_writeByte_same (m : Memory) (a : Nat) (b : Byte) (h : m.wf) : (m.writeByte a b).readByte a = b := by
  obtain ⟨hp, -⟩ := h
  induction m with
  | nil =>
    simp only [Memory.writeByte]
    split
    · simp_all
    · simp [Memory.readByte]
  | cons d rest ih =>
    obtain ⟨k, e⟩ := d
    obtain ⟨hk, hr⟩ := List.pairwise_cons.mp hp
    simp only [Memory.writeByte]
    split
    · simp only [Memory.readByte]
      rw [if_neg (by omega)]
      exact ih hr
    · split
      · subst k
        split
        · rw [Memory.readByte_below rest a hk]; simp_all
        · simp [Memory.readByte]
      · split
        · rw [Memory.readByte_below]
          · simp_all
          · intro c hc
            rcases List.mem_cons.mp hc with rfl | hc
            · simp; omega
            · have := hk c hc; simp at this; omega
        · simp [Memory.readByte]

/-- A write leaves every other byte alone. -/
theorem Memory.readByte_writeByte_other (m : Memory) (a a' : Nat) (b : Byte) (h : a' ≠ a) (hm : m.wf) :
    (m.writeByte a b).readByte a' = m.readByte a' := by
  obtain ⟨hp, -⟩ := hm
  induction m with
  | nil =>
    simp only [Memory.writeByte]
    split
    · rfl
    · simp only [Memory.readByte]; rw [if_neg (by omega)]
  | cons d rest ih =>
    obtain ⟨k, e⟩ := d
    obtain ⟨hk, hr⟩ := List.pairwise_cons.mp hp
    simp only [Memory.writeByte]
    split
    · simp only [Memory.readByte]; rw [ih hr]
    · split
      · subst k
        split
        · simp only [Memory.readByte]; rw [if_neg (by omega)]
        · simp only [Memory.readByte]; rw [if_neg (by omega), if_neg (by omega)]
      · split
        · rfl
        · simp only [Memory.readByte]; rw [if_neg (by omega)]

/-- `writeWord` keeps the canonical form. -/
theorem Memory.wf_writeWord (m : Memory) (i : Nat) (w : BusWord) (h : m.wf) : (m.writeWord i w).wf :=
  Memory.wf_writeByte _ _ _ (Memory.wf_writeByte _ _ _ h)

/-- A word reads as it was last written. -/
theorem Memory.readWord_writeWord_same (m : Memory) (i : Nat) (w : BusWord) (h : m.wf) : (m.writeWord i w).readWord i = w := by
  have h' := Memory.wf_writeByte m (2 * i) (w.extractLsb' 0 8) h
  unfold Memory.readWord Memory.writeWord
  rw [Memory.readByte_writeByte_same _ _ _ h', Memory.readByte_writeByte_other _ _ _ _ (by omega) h',
    Memory.readByte_writeByte_same _ _ _ h]
  ext j hj
  simp only [BitVec.getElem_append, BitVec.getElem_extractLsb']
  split
  · simp [BitVec.getLsbD_eq_getElem hj]
  · have : 8 + (j - 8) = j := by omega
    simp [this, BitVec.getLsbD_eq_getElem hj]

/-- A word write leaves every byte outside the word alone. -/
theorem Memory.readByte_writeWord_other (m : Memory) (i a : Nat) (w : BusWord) (h0 : a ≠ 2 * i) (h1 : a ≠ 2 * i + 1)
    (h : m.wf) : (m.writeWord i w).readByte a = m.readByte a := by
  unfold Memory.writeWord
  rw [Memory.readByte_writeByte_other _ _ _ _ h1 (Memory.wf_writeByte _ _ _ h), Memory.readByte_writeByte_other _ _ _ _ h0 h]

/-- A word write leaves every other word alone. -/
theorem Memory.readWord_writeWord_other (m : Memory) (i j : Nat) (w : BusWord) (hij : j ≠ i) (h : m.wf) :
    (m.writeWord i w).readWord j = m.readWord j := by
  unfold Memory.readWord
  rw [Memory.readByte_writeWord_other _ _ _ _ (by omega) (by omega) h,
    Memory.readByte_writeWord_other _ _ _ _ (by omega) (by omega) h]

/-- The first words of a memory in canonical form are in canonical form. -/
theorem Memory.wf_firstWords (m : Memory) (n : Nat) (h : m.wf) : (m.firstWords n).wf :=
  ⟨h.1.filter _, fun c hc => h.2 c (List.mem_filter.mp hc).1⟩

/-- The first words of a memory read as they did; beyond them nothing is listed. -/
theorem Memory.readByte_firstWords (m : Memory) (n a : Nat) (h : m.wf) :
    (m.firstWords n).readByte a = if a < 2 * n then m.readByte a else Memory.unlisted := by
  obtain ⟨hp, -⟩ := h
  induction m with
  | nil => simp [Memory.firstWords]
  | cons d rest ih =>
    obtain ⟨k, e⟩ := d
    obtain ⟨hk, hr⟩ := List.pairwise_cons.mp hp
    have ih := ih hr
    simp only [Memory.firstWords, List.filter_cons] at ih ⊢
    split
    · rename_i hd
      simp only [decide_eq_true_eq] at hd
      simp only [Memory.readByte, ih]
      split
      · subst k; simp [hd]
      · rfl
    · rename_i hd
      simp only [decide_eq_true_eq] at hd
      rw [ih]
      split
      · simp only [Memory.readByte]; rw [if_neg (by omega)]
      · rfl

/-- The first 256 words of a memory read as they did. -/
theorem Memory.readWord_firstWords (m : Memory) (n i : Nat) (hi : i < n) (h : m.wf) :
    (m.firstWords n).readWord i = m.readWord i := by
  unfold Memory.readWord
  rw [Memory.readByte_firstWords _ _ _ h, Memory.readByte_firstWords _ _ _ h, if_pos (by omega), if_pos (by omega)]

end Sys2Proof.Machine
end

