-- ==== Sys2Proof/Laws/State.lean ====
section
/-! SUPPORT. One lemma per field for each named update of State, so that no later proof unfolds an update. -/

namespace Sys2Proof.Machine

@[simp] theorem State.event_div (s : State) (e : BusEvent) : (s.event e).div = s.div := rfl
@[simp] theorem State.event_enRd (s : State) (e : BusEvent) : (s.event e).enRd = s.enRd := rfl
@[simp] theorem State.event_enWr (s : State) (e : BusEvent) : (s.event e).enWr = s.enWr := rfl
@[simp] theorem State.event_pcRd (s : State) (e : BusEvent) : (s.event e).pcRd = s.pcRd := rfl
@[simp] theorem State.event_pcWr (s : State) (e : BusEvent) : (s.event e).pcWr = s.pcWr := rfl
@[simp] theorem State.event_x (s : State) (e : BusEvent) : (s.event e).x = s.x := rfl
@[simp] theorem State.event_osr (s : State) (e : BusEvent) : (s.event e).osr = s.osr := rfl
@[simp] theorem State.event_inqRd (s : State) (e : BusEvent) : (s.event e).inqRd = s.inqRd := rfl
@[simp] theorem State.event_inqWr (s : State) (e : BusEvent) : (s.event e).inqWr = s.inqWr := rfl
@[simp] theorem State.event_rxq (s : State) (e : BusEvent) : (s.event e).rxq = s.rxq := rfl
@[simp] theorem State.event_stalledRd (s : State) (e : BusEvent) : (s.event e).stalledRd = s.stalledRd := rfl
@[simp] theorem State.event_stalledWr (s : State) (e : BusEvent) : (s.event e).stalledWr = s.stalledWr := rfl
@[simp] theorem State.event_phaseRd (s : State) (e : BusEvent) : (s.event e).phaseRd = s.phaseRd := rfl
@[simp] theorem State.event_phaseWr (s : State) (e : BusEvent) : (s.event e).phaseWr = s.phaseWr := rfl
@[simp] theorem State.event_cs (s : State) (e : BusEvent) : (s.event e).cs = s.cs := rfl
@[simp] theorem State.event_da (s : State) (e : BusEvent) : (s.event e).da = s.da := rfl
@[simp] theorem State.event_rdStb (s : State) (e : BusEvent) : (s.event e).rdStb = s.rdStb := rfl
@[simp] theorem State.event_wrStb (s : State) (e : BusEvent) : (s.event e).wrStb = s.wrStb := rfl
@[simp] theorem State.event_ddOut (s : State) (e : BusEvent) : (s.event e).ddOut = s.ddOut := rfl
@[simp] theorem State.event_ddOe (s : State) (e : BusEvent) : (s.event e).ddOe = s.ddOe := rfl
@[simp] theorem State.event_rst (s : State) (e : BusEvent) : (s.event e).rst = s.rst := rfl
@[simp] theorem State.event_opstate (s : State) (e : BusEvent) : (s.event e).opstate = s.opstate := rfl
@[simp] theorem State.event_res (s : State) (e : BusEvent) : (s.event e).res = s.res := rfl
@[simp] theorem State.event_rval (s : State) (e : BusEvent) : (s.event e).rval = s.rval := rfl
@[simp] theorem State.event_sectRem (s : State) (e : BusEvent) : (s.event e).sectRem = s.sectRem := rfl
@[simp] theorem State.event_pollCnt (s : State) (e : BusEvent) : (s.event e).pollCnt = s.pollCnt := rfl
@[simp] theorem State.event_smp (s : State) (e : BusEvent) : (s.event e).smp = s.smp := rfl
@[simp] theorem State.event_cond (s : State) (e : BusEvent) : (s.event e).cond = s.cond := rfl
@[simp] theorem State.event_access (s : State) (e : BusEvent) : (s.event e).access = s.access := rfl
@[simp] theorem State.event_reason (s : State) (e : BusEvent) : (s.event e).reason = s.reason := rfl
@[simp] theorem State.event_trace (s : State) (e : BusEvent) : (s.event e).trace = s.trace ++ [e] := rfl
@[simp] theorem State.event_emitted (s : State) (e : BusEvent) : (s.event e).emitted = s.emitted := rfl
@[simp] theorem State.event_buf (s : State) (e : BusEvent) : (s.event e).buf = s.buf := rfl
@[simp] theorem State.event_idArr (s : State) (e : BusEvent) : (s.event e).idArr = s.idArr := rfl
@[simp] theorem State.event_answer (s : State) (e : BusEvent) : (s.event e).answer = s.answer := rfl
@[simp] theorem State.event_samples (s : State) (e : BusEvent) : (s.event e).samples = s.samples := rfl
@[simp] theorem State.event_drawn (s : State) (e : BusEvent) : (s.event e).drawn = s.drawn := rfl
@[simp] theorem State.event_port (s : State) (e : BusEvent) : (s.event e).port = s.port := rfl
@[simp] theorem State.event_pace (s : State) (e : BusEvent) : (s.event e).pace = s.pace := rfl
@[simp] theorem State.event_por (s : State) (e : BusEvent) : (s.event e).por = s.por := rfl
@[simp] theorem State.event_turn (s : State) (e : BusEvent) : (s.event e).turn = s.turn := rfl
@[simp] theorem State.event_params (s : State) (e : BusEvent) : (s.event e).params = s.params := rfl

@[simp] theorem State.begin_div (s : State) (code : List SeqOp) : (s.begin code).div = s.div := rfl
@[simp] theorem State.begin_enRd (s : State) (code : List SeqOp) : (s.begin code).enRd = s.enRd := rfl
@[simp] theorem State.begin_enWr (s : State) (code : List SeqOp) : (s.begin code).enWr = s.enWr := rfl
@[simp] theorem State.begin_pcRd (s : State) (code : List SeqOp) : (s.begin code).pcRd = s.pcRd := rfl
@[simp] theorem State.begin_pcWr (s : State) (code : List SeqOp) : (s.begin code).pcWr = s.pcWr := rfl
@[simp] theorem State.begin_x (s : State) (code : List SeqOp) : (s.begin code).x = s.x := rfl
@[simp] theorem State.begin_osr (s : State) (code : List SeqOp) : (s.begin code).osr = s.osr := rfl
@[simp] theorem State.begin_inqRd (s : State) (code : List SeqOp) : (s.begin code).inqRd = s.inqRd := rfl
@[simp] theorem State.begin_inqWr (s : State) (code : List SeqOp) : (s.begin code).inqWr = s.inqWr := rfl
@[simp] theorem State.begin_rxq (s : State) (code : List SeqOp) : (s.begin code).rxq = s.rxq := rfl
@[simp] theorem State.begin_stalledRd (s : State) (code : List SeqOp) : (s.begin code).stalledRd = s.stalledRd := rfl
@[simp] theorem State.begin_stalledWr (s : State) (code : List SeqOp) : (s.begin code).stalledWr = s.stalledWr := rfl
@[simp] theorem State.begin_phaseRd (s : State) (code : List SeqOp) : (s.begin code).phaseRd = s.phaseRd := rfl
@[simp] theorem State.begin_phaseWr (s : State) (code : List SeqOp) : (s.begin code).phaseWr = s.phaseWr := rfl
@[simp] theorem State.begin_cs (s : State) (code : List SeqOp) : (s.begin code).cs = s.cs := rfl
@[simp] theorem State.begin_da (s : State) (code : List SeqOp) : (s.begin code).da = s.da := rfl
@[simp] theorem State.begin_rdStb (s : State) (code : List SeqOp) : (s.begin code).rdStb = s.rdStb := rfl
@[simp] theorem State.begin_wrStb (s : State) (code : List SeqOp) : (s.begin code).wrStb = s.wrStb := rfl
@[simp] theorem State.begin_ddOut (s : State) (code : List SeqOp) : (s.begin code).ddOut = s.ddOut := rfl
@[simp] theorem State.begin_ddOe (s : State) (code : List SeqOp) : (s.begin code).ddOe = s.ddOe := rfl
@[simp] theorem State.begin_rst (s : State) (code : List SeqOp) : (s.begin code).rst = s.rst := rfl
@[simp] theorem State.begin_opstate (s : State) (code : List SeqOp) : (s.begin code).opstate = .busy code := rfl
@[simp] theorem State.begin_res (s : State) (code : List SeqOp) : (s.begin code).res = s.res := rfl
@[simp] theorem State.begin_rval (s : State) (code : List SeqOp) : (s.begin code).rval = s.rval := rfl
@[simp] theorem State.begin_sectRem (s : State) (code : List SeqOp) : (s.begin code).sectRem = s.sectRem := rfl
@[simp] theorem State.begin_pollCnt (s : State) (code : List SeqOp) : (s.begin code).pollCnt = s.pollCnt := rfl
@[simp] theorem State.begin_smp (s : State) (code : List SeqOp) : (s.begin code).smp = s.smp := rfl
@[simp] theorem State.begin_cond (s : State) (code : List SeqOp) : (s.begin code).cond = s.cond := rfl
@[simp] theorem State.begin_access (s : State) (code : List SeqOp) : (s.begin code).access = s.access := rfl
@[simp] theorem State.begin_reason (s : State) (code : List SeqOp) : (s.begin code).reason = s.reason := rfl
@[simp] theorem State.begin_trace (s : State) (code : List SeqOp) : (s.begin code).trace = s.trace := rfl
@[simp] theorem State.begin_emitted (s : State) (code : List SeqOp) : (s.begin code).emitted = s.emitted := rfl
@[simp] theorem State.begin_buf (s : State) (code : List SeqOp) : (s.begin code).buf = s.buf := rfl
@[simp] theorem State.begin_idArr (s : State) (code : List SeqOp) : (s.begin code).idArr = s.idArr := rfl
@[simp] theorem State.begin_answer (s : State) (code : List SeqOp) : (s.begin code).answer = s.answer := rfl
@[simp] theorem State.begin_samples (s : State) (code : List SeqOp) : (s.begin code).samples = s.samples := rfl
@[simp] theorem State.begin_drawn (s : State) (code : List SeqOp) : (s.begin code).drawn = s.drawn := rfl
@[simp] theorem State.begin_port (s : State) (code : List SeqOp) : (s.begin code).port = s.port := rfl
@[simp] theorem State.begin_pace (s : State) (code : List SeqOp) : (s.begin code).pace = s.pace := rfl
@[simp] theorem State.begin_por (s : State) (code : List SeqOp) : (s.begin code).por = s.por := rfl
@[simp] theorem State.begin_turn (s : State) (code : List SeqOp) : (s.begin code).turn = s.turn := rfl
@[simp] theorem State.begin_params (s : State) (code : List SeqOp) : (s.begin code).params = s.params := rfl

@[simp] theorem State.stayAt_div (s : State) (op : SeqOp) (rest : List SeqOp) : (s.stayAt op rest).div = s.div := rfl
@[simp] theorem State.stayAt_enRd (s : State) (op : SeqOp) (rest : List SeqOp) : (s.stayAt op rest).enRd = s.enRd := rfl
@[simp] theorem State.stayAt_enWr (s : State) (op : SeqOp) (rest : List SeqOp) : (s.stayAt op rest).enWr = s.enWr := rfl
@[simp] theorem State.stayAt_pcRd (s : State) (op : SeqOp) (rest : List SeqOp) : (s.stayAt op rest).pcRd = s.pcRd := rfl
@[simp] theorem State.stayAt_pcWr (s : State) (op : SeqOp) (rest : List SeqOp) : (s.stayAt op rest).pcWr = s.pcWr := rfl
@[simp] theorem State.stayAt_x (s : State) (op : SeqOp) (rest : List SeqOp) : (s.stayAt op rest).x = s.x := rfl
@[simp] theorem State.stayAt_osr (s : State) (op : SeqOp) (rest : List SeqOp) : (s.stayAt op rest).osr = s.osr := rfl
@[simp] theorem State.stayAt_inqRd (s : State) (op : SeqOp) (rest : List SeqOp) : (s.stayAt op rest).inqRd = s.inqRd := rfl
@[simp] theorem State.stayAt_inqWr (s : State) (op : SeqOp) (rest : List SeqOp) : (s.stayAt op rest).inqWr = s.inqWr := rfl
@[simp] theorem State.stayAt_rxq (s : State) (op : SeqOp) (rest : List SeqOp) : (s.stayAt op rest).rxq = s.rxq := rfl
@[simp] theorem State.stayAt_stalledRd (s : State) (op : SeqOp) (rest : List SeqOp) : (s.stayAt op rest).stalledRd = s.stalledRd := rfl
@[simp] theorem State.stayAt_stalledWr (s : State) (op : SeqOp) (rest : List SeqOp) : (s.stayAt op rest).stalledWr = s.stalledWr := rfl
@[simp] theorem State.stayAt_phaseRd (s : State) (op : SeqOp) (rest : List SeqOp) : (s.stayAt op rest).phaseRd = s.phaseRd := rfl
@[simp] theorem State.stayAt_phaseWr (s : State) (op : SeqOp) (rest : List SeqOp) : (s.stayAt op rest).phaseWr = s.phaseWr := rfl
@[simp] theorem State.stayAt_cs (s : State) (op : SeqOp) (rest : List SeqOp) : (s.stayAt op rest).cs = s.cs := rfl
@[simp] theorem State.stayAt_da (s : State) (op : SeqOp) (rest : List SeqOp) : (s.stayAt op rest).da = s.da := rfl
@[simp] theorem State.stayAt_rdStb (s : State) (op : SeqOp) (rest : List SeqOp) : (s.stayAt op rest).rdStb = s.rdStb := rfl
@[simp] theorem State.stayAt_wrStb (s : State) (op : SeqOp) (rest : List SeqOp) : (s.stayAt op rest).wrStb = s.wrStb := rfl
@[simp] theorem State.stayAt_ddOut (s : State) (op : SeqOp) (rest : List SeqOp) : (s.stayAt op rest).ddOut = s.ddOut := rfl
@[simp] theorem State.stayAt_ddOe (s : State) (op : SeqOp) (rest : List SeqOp) : (s.stayAt op rest).ddOe = s.ddOe := rfl
@[simp] theorem State.stayAt_rst (s : State) (op : SeqOp) (rest : List SeqOp) : (s.stayAt op rest).rst = s.rst := rfl
@[simp] theorem State.stayAt_opstate (s : State) (op : SeqOp) (rest : List SeqOp) : (s.stayAt op rest).opstate = .busy (op :: rest) := rfl
@[simp] theorem State.stayAt_res (s : State) (op : SeqOp) (rest : List SeqOp) : (s.stayAt op rest).res = s.res := rfl
@[simp] theorem State.stayAt_rval (s : State) (op : SeqOp) (rest : List SeqOp) : (s.stayAt op rest).rval = s.rval := rfl
@[simp] theorem State.stayAt_sectRem (s : State) (op : SeqOp) (rest : List SeqOp) : (s.stayAt op rest).sectRem = s.sectRem := rfl
@[simp] theorem State.stayAt_pollCnt (s : State) (op : SeqOp) (rest : List SeqOp) : (s.stayAt op rest).pollCnt = s.pollCnt := rfl
@[simp] theorem State.stayAt_smp (s : State) (op : SeqOp) (rest : List SeqOp) : (s.stayAt op rest).smp = s.smp := rfl
@[simp] theorem State.stayAt_cond (s : State) (op : SeqOp) (rest : List SeqOp) : (s.stayAt op rest).cond = s.cond := rfl
@[simp] theorem State.stayAt_access (s : State) (op : SeqOp) (rest : List SeqOp) : (s.stayAt op rest).access = s.access := rfl
@[simp] theorem State.stayAt_reason (s : State) (op : SeqOp) (rest : List SeqOp) : (s.stayAt op rest).reason = s.reason := rfl
@[simp] theorem State.stayAt_trace (s : State) (op : SeqOp) (rest : List SeqOp) : (s.stayAt op rest).trace = s.trace := rfl
@[simp] theorem State.stayAt_emitted (s : State) (op : SeqOp) (rest : List SeqOp) : (s.stayAt op rest).emitted = s.emitted := rfl
@[simp] theorem State.stayAt_buf (s : State) (op : SeqOp) (rest : List SeqOp) : (s.stayAt op rest).buf = s.buf := rfl
@[simp] theorem State.stayAt_idArr (s : State) (op : SeqOp) (rest : List SeqOp) : (s.stayAt op rest).idArr = s.idArr := rfl
@[simp] theorem State.stayAt_answer (s : State) (op : SeqOp) (rest : List SeqOp) : (s.stayAt op rest).answer = s.answer := rfl
@[simp] theorem State.stayAt_samples (s : State) (op : SeqOp) (rest : List SeqOp) : (s.stayAt op rest).samples = s.samples := rfl
@[simp] theorem State.stayAt_drawn (s : State) (op : SeqOp) (rest : List SeqOp) : (s.stayAt op rest).drawn = s.drawn := rfl
@[simp] theorem State.stayAt_port (s : State) (op : SeqOp) (rest : List SeqOp) : (s.stayAt op rest).port = s.port := rfl
@[simp] theorem State.stayAt_pace (s : State) (op : SeqOp) (rest : List SeqOp) : (s.stayAt op rest).pace = s.pace := rfl
@[simp] theorem State.stayAt_por (s : State) (op : SeqOp) (rest : List SeqOp) : (s.stayAt op rest).por = s.por := rfl
@[simp] theorem State.stayAt_turn (s : State) (op : SeqOp) (rest : List SeqOp) : (s.stayAt op rest).turn = s.turn := rfl
@[simp] theorem State.stayAt_params (s : State) (op : SeqOp) (rest : List SeqOp) : (s.stayAt op rest).params = s.params := rfl

@[simp] theorem State.powerOnReset_div (s : State) : (s.powerOnReset).div = State.reset.div := rfl
@[simp] theorem State.powerOnReset_enRd (s : State) : (s.powerOnReset).enRd = State.reset.enRd := rfl
@[simp] theorem State.powerOnReset_enWr (s : State) : (s.powerOnReset).enWr = State.reset.enWr := rfl
@[simp] theorem State.powerOnReset_pcRd (s : State) : (s.powerOnReset).pcRd = State.reset.pcRd := rfl
@[simp] theorem State.powerOnReset_pcWr (s : State) : (s.powerOnReset).pcWr = State.reset.pcWr := rfl
@[simp] theorem State.powerOnReset_x (s : State) : (s.powerOnReset).x = State.reset.x := rfl
@[simp] theorem State.powerOnReset_osr (s : State) : (s.powerOnReset).osr = State.reset.osr := rfl
@[simp] theorem State.powerOnReset_inqRd (s : State) : (s.powerOnReset).inqRd = State.reset.inqRd := rfl
@[simp] theorem State.powerOnReset_inqWr (s : State) : (s.powerOnReset).inqWr = State.reset.inqWr := rfl
@[simp] theorem State.powerOnReset_rxq (s : State) : (s.powerOnReset).rxq = State.reset.rxq := rfl
@[simp] theorem State.powerOnReset_stalledRd (s : State) : (s.powerOnReset).stalledRd = State.reset.stalledRd := rfl
@[simp] theorem State.powerOnReset_stalledWr (s : State) : (s.powerOnReset).stalledWr = State.reset.stalledWr := rfl
@[simp] theorem State.powerOnReset_phaseRd (s : State) : (s.powerOnReset).phaseRd = State.reset.phaseRd := rfl
@[simp] theorem State.powerOnReset_phaseWr (s : State) : (s.powerOnReset).phaseWr = State.reset.phaseWr := rfl
@[simp] theorem State.powerOnReset_cs (s : State) : (s.powerOnReset).cs = State.reset.cs := rfl
@[simp] theorem State.powerOnReset_da (s : State) : (s.powerOnReset).da = State.reset.da := rfl
@[simp] theorem State.powerOnReset_rdStb (s : State) : (s.powerOnReset).rdStb = State.reset.rdStb := rfl
@[simp] theorem State.powerOnReset_wrStb (s : State) : (s.powerOnReset).wrStb = State.reset.wrStb := rfl
@[simp] theorem State.powerOnReset_ddOut (s : State) : (s.powerOnReset).ddOut = State.reset.ddOut := rfl
@[simp] theorem State.powerOnReset_ddOe (s : State) : (s.powerOnReset).ddOe = State.reset.ddOe := rfl
@[simp] theorem State.powerOnReset_rst (s : State) : (s.powerOnReset).rst = State.reset.rst := rfl
@[simp] theorem State.powerOnReset_opstate (s : State) : (s.powerOnReset).opstate = State.reset.opstate := rfl
@[simp] theorem State.powerOnReset_res (s : State) : (s.powerOnReset).res = State.reset.res := rfl
@[simp] theorem State.powerOnReset_rval (s : State) : (s.powerOnReset).rval = State.reset.rval := rfl
@[simp] theorem State.powerOnReset_sectRem (s : State) : (s.powerOnReset).sectRem = State.reset.sectRem := rfl
@[simp] theorem State.powerOnReset_pollCnt (s : State) : (s.powerOnReset).pollCnt = State.reset.pollCnt := rfl
@[simp] theorem State.powerOnReset_smp (s : State) : (s.powerOnReset).smp = State.reset.smp := rfl
@[simp] theorem State.powerOnReset_cond (s : State) : (s.powerOnReset).cond = State.reset.cond := rfl
@[simp] theorem State.powerOnReset_access (s : State) : (s.powerOnReset).access = State.reset.access := rfl
@[simp] theorem State.powerOnReset_reason (s : State) : (s.powerOnReset).reason = State.reset.reason := rfl
@[simp] theorem State.powerOnReset_trace (s : State) : (s.powerOnReset).trace = s.trace := rfl
@[simp] theorem State.powerOnReset_emitted (s : State) : (s.powerOnReset).emitted = s.emitted := rfl
@[simp] theorem State.powerOnReset_buf (s : State) : (s.powerOnReset).buf = s.buf := rfl
@[simp] theorem State.powerOnReset_idArr (s : State) : (s.powerOnReset).idArr = s.idArr := rfl
@[simp] theorem State.powerOnReset_answer (s : State) : (s.powerOnReset).answer = s.answer := rfl
@[simp] theorem State.powerOnReset_samples (s : State) : (s.powerOnReset).samples = s.samples := rfl
@[simp] theorem State.powerOnReset_drawn (s : State) : (s.powerOnReset).drawn = s.drawn := rfl
@[simp] theorem State.powerOnReset_port (s : State) : (s.powerOnReset).port = s.port := rfl
@[simp] theorem State.powerOnReset_pace (s : State) : (s.powerOnReset).pace = s.pace := rfl
@[simp] theorem State.powerOnReset_por (s : State) : (s.powerOnReset).por = State.reset.por := rfl
@[simp] theorem State.powerOnReset_turn (s : State) : (s.powerOnReset).turn = State.reset.turn := rfl
@[simp] theorem State.powerOnReset_params (s : State) : (s.powerOnReset).params = s.params := rfl

@[simp] theorem emitWord_div (v : BusWord) (rest : List BusWord) (s : State) : (emitWord v rest s).div = s.div := rfl
@[simp] theorem emitWord_enRd (v : BusWord) (rest : List BusWord) (s : State) : (emitWord v rest s).enRd = s.enRd := rfl
@[simp] theorem emitWord_enWr (v : BusWord) (rest : List BusWord) (s : State) : (emitWord v rest s).enWr = s.enWr := rfl
@[simp] theorem emitWord_pcRd (v : BusWord) (rest : List BusWord) (s : State) : (emitWord v rest s).pcRd = s.pcRd := rfl
@[simp] theorem emitWord_pcWr (v : BusWord) (rest : List BusWord) (s : State) : (emitWord v rest s).pcWr = s.pcWr := rfl
@[simp] theorem emitWord_x (v : BusWord) (rest : List BusWord) (s : State) : (emitWord v rest s).x = s.x := rfl
@[simp] theorem emitWord_osr (v : BusWord) (rest : List BusWord) (s : State) : (emitWord v rest s).osr = s.osr := rfl
@[simp] theorem emitWord_inqRd (v : BusWord) (rest : List BusWord) (s : State) : (emitWord v rest s).inqRd = s.inqRd := rfl
@[simp] theorem emitWord_inqWr (v : BusWord) (rest : List BusWord) (s : State) : (emitWord v rest s).inqWr = s.inqWr := rfl
@[simp] theorem emitWord_rxq (v : BusWord) (rest : List BusWord) (s : State) : (emitWord v rest s).rxq = rest := rfl
@[simp] theorem emitWord_stalledRd (v : BusWord) (rest : List BusWord) (s : State) : (emitWord v rest s).stalledRd = s.stalledRd := rfl
@[simp] theorem emitWord_stalledWr (v : BusWord) (rest : List BusWord) (s : State) : (emitWord v rest s).stalledWr = s.stalledWr := rfl
@[simp] theorem emitWord_phaseRd (v : BusWord) (rest : List BusWord) (s : State) : (emitWord v rest s).phaseRd = s.phaseRd := rfl
@[simp] theorem emitWord_phaseWr (v : BusWord) (rest : List BusWord) (s : State) : (emitWord v rest s).phaseWr = s.phaseWr := rfl
@[simp] theorem emitWord_cs (v : BusWord) (rest : List BusWord) (s : State) : (emitWord v rest s).cs = s.cs := rfl
@[simp] theorem emitWord_da (v : BusWord) (rest : List BusWord) (s : State) : (emitWord v rest s).da = s.da := rfl
@[simp] theorem emitWord_rdStb (v : BusWord) (rest : List BusWord) (s : State) : (emitWord v rest s).rdStb = s.rdStb := rfl
@[simp] theorem emitWord_wrStb (v : BusWord) (rest : List BusWord) (s : State) : (emitWord v rest s).wrStb = s.wrStb := rfl
@[simp] theorem emitWord_ddOut (v : BusWord) (rest : List BusWord) (s : State) : (emitWord v rest s).ddOut = s.ddOut := rfl
@[simp] theorem emitWord_ddOe (v : BusWord) (rest : List BusWord) (s : State) : (emitWord v rest s).ddOe = s.ddOe := rfl
@[simp] theorem emitWord_rst (v : BusWord) (rest : List BusWord) (s : State) : (emitWord v rest s).rst = s.rst := rfl
@[simp] theorem emitWord_opstate (v : BusWord) (rest : List BusWord) (s : State) : (emitWord v rest s).opstate = s.opstate := rfl
@[simp] theorem emitWord_res (v : BusWord) (rest : List BusWord) (s : State) : (emitWord v rest s).res = s.res := rfl
@[simp] theorem emitWord_rval (v : BusWord) (rest : List BusWord) (s : State) : (emitWord v rest s).rval = s.rval := rfl
@[simp] theorem emitWord_sectRem (v : BusWord) (rest : List BusWord) (s : State) : (emitWord v rest s).sectRem = s.sectRem := rfl
@[simp] theorem emitWord_pollCnt (v : BusWord) (rest : List BusWord) (s : State) : (emitWord v rest s).pollCnt = s.pollCnt := rfl
@[simp] theorem emitWord_smp (v : BusWord) (rest : List BusWord) (s : State) : (emitWord v rest s).smp = s.smp := rfl
@[simp] theorem emitWord_cond (v : BusWord) (rest : List BusWord) (s : State) : (emitWord v rest s).cond = s.cond := rfl
@[simp] theorem emitWord_access (v : BusWord) (rest : List BusWord) (s : State) : (emitWord v rest s).access = s.access := rfl
@[simp] theorem emitWord_reason (v : BusWord) (rest : List BusWord) (s : State) : (emitWord v rest s).reason = s.reason := rfl
@[simp] theorem emitWord_trace (v : BusWord) (rest : List BusWord) (s : State) : (emitWord v rest s).trace = s.trace := rfl
@[simp] theorem emitWord_emitted (v : BusWord) (rest : List BusWord) (s : State) : (emitWord v rest s).emitted = s.emitted + 1 := rfl
@[simp] theorem emitWord_buf (v : BusWord) (rest : List BusWord) (s : State) : (emitWord v rest s).buf = s.buf.writeWord s.emitted v := rfl
@[simp] theorem emitWord_idArr (v : BusWord) (rest : List BusWord) (s : State) : (emitWord v rest s).idArr = s.idArr := rfl
@[simp] theorem emitWord_answer (v : BusWord) (rest : List BusWord) (s : State) : (emitWord v rest s).answer = s.answer := rfl
@[simp] theorem emitWord_samples (v : BusWord) (rest : List BusWord) (s : State) : (emitWord v rest s).samples = s.samples := rfl
@[simp] theorem emitWord_drawn (v : BusWord) (rest : List BusWord) (s : State) : (emitWord v rest s).drawn = s.drawn := rfl
@[simp] theorem emitWord_port (v : BusWord) (rest : List BusWord) (s : State) : (emitWord v rest s).port = s.port := rfl
@[simp] theorem emitWord_pace (v : BusWord) (rest : List BusWord) (s : State) : (emitWord v rest s).pace = s.pace := rfl
@[simp] theorem emitWord_por (v : BusWord) (rest : List BusWord) (s : State) : (emitWord v rest s).por = s.por := rfl
@[simp] theorem emitWord_turn (v : BusWord) (rest : List BusWord) (s : State) : (emitWord v rest s).turn = s.turn := rfl
@[simp] theorem emitWord_params (v : BusWord) (rest : List BusWord) (s : State) : (emitWord v rest s).params = s.params := rfl

end Sys2Proof.Machine
end

