-- ==== Sys2Proof/Laws/Ops.lean ====
section
/-! SUPPORT. For each shared operation one lemma that says once everything it can do when it answers a next state. -/

namespace Sys2Proof.Machine

/-- The lane-idle predicate, clause by clause (R37). -/
theorem State.lanesIdle_iff (s : State) : s.lanesIdle = true ↔ s.idleRd = true ∧ s.idleWr = true := by
  simp [State.lanesIdle]

theorem State.idleRd_iff (s : State) :
    s.idleRd = true ↔ s.pcRd = 0#3 ∧ s.inqRd = [] ∧ s.rxq = [] ∧ s.rdStb = false := by
  simp [State.idleRd, and_assoc]

theorem State.idleWr_iff (s : State) :
    s.idleWr = true ↔ s.pcWr = 0#2 ∧ s.inqWr = [] ∧ s.wrStb = false ∧ s.ddOe = false := by
  simp [State.idleWr, and_assoc]

theorem setAddr_next {ra : BitVec 4} {s t : State} (h : setAddr ra s = .next t) :
    s.access = .none ∧ s.lanesIdle = true ∧
      t = { s with cs := csOf ra, da := daOf ra, access := .addressed, trace := s.trace ++ [addrEvent ra] } := by
  unfold setAddr at h
  split at h
  · rename_i hc
    cases h
    exact ⟨hc.1, hc.2, rfl⟩
  · cases h

theorem pushRd_next {w : BitVec 32} {s t : State} (h : pushRd w s = .next t) :
    s.access = .addressed ∧ t = { s with inqRd := s.inqRd ++ [w], access := .reading } := by
  unfold pushRd at h
  split at h
  · cases h; exact ⟨by assumption, rfl⟩
  · cases h

theorem pushWr_next {w : BusWord} {s t : State} (h : pushWr w s = .next t) :
    (s.access = .addressed ∨ s.access = .writing) ∧ t = { s with inqWr := s.inqWr ++ [w], access := .writing } := by
  unfold pushWr at h
  split at h
  · cases h; exact ⟨.inl (by assumption), rfl⟩
  · cases h; exact ⟨.inr (by assumption), rfl⟩
  · cases h

theorem endAccess_next {s t : State} (h : endAccess s = .next t) :
    s.lanesIdle = true ∧ t = { s with access := .none } := by
  unfold endAccess at h
  split at h
  · cases h; exact ⟨by assumption, rfl⟩
  · cases h

theorem takeSample_next {v : BusWord} {rest : List BusWord} {s t : State} (h : takeSample v rest s = .next t) :
    s.access = .reading ∧ { s with rxq := rest, smp := v }.lanesIdle = true ∧
      t = { s with rxq := rest, smp := v, access := .none } := by
  unfold takeSample at h
  split at h
  · obtain ⟨hi, rfl⟩ := endAccess_next h
    exact ⟨by assumption, hi, rfl⟩
  · cases h

theorem finish_next {r : ResCode} {s t : State} (h : finish r s = .next t) :
    s.access = .none ∧ t = { s with res := r, opstate := .idle } := by
  unfold finish at h
  split at h
  · cases h; exact ⟨by assumption, rfl⟩
  · cases h

/-- With no access under way an operation's end is its result code and IDLE (R101, R331). -/
theorem finish_idle (r : ResCode) {s : State} (h : s.access = .none) : finish r s = .next { s with res := r, opstate := .idle } := by
  simp [finish, h]

theorem raiseViolation_next {r : Violation} {s t : State} (h : raiseViolation r s = .next t) :
    t = { s with res := .fatal, opstate := .faulted, reason := some r } := by
  cases h; rfl

theorem accept_next {s t : State} {body : Result} (h : accept s body = .next t) : s.opstate = .idle ∧ body = .next t := by
  unfold accept at h
  split at h
  · exact ⟨by assumption, h⟩
  · cases h
  · cases h

/-- A host operation presented in IDLE is accepted (R101). -/
@[simp] theorem accept_idle {s : State} (body : Result) (h : s.opstate = .idle) : accept s body = body := by
  simp [accept, h]

/-- A host operation presented in BUSY is turned away (R101). -/
theorem accept_busy {s : State} {code : List SeqOp} (body : Result) (h : s.opstate = .busy code) :
    accept s body = .refused .portBusy := by
  simp [accept, h]

theorem callProc_next {code : List SeqOp} {s t : State} (h : callProc code s = .next t) :
    ∃ rest, t = { s with opstate := .busy (code ++ rest) } ∧ (s.opstate = .idle ∧ rest = [] ∨ s.opstate = .busy rest) := by
  unfold callProc at h
  split at h
  · cases h; exact ⟨[], by simp, .inl ⟨by assumption, rfl⟩⟩
  · cases h; exact ⟨_, rfl, .inr (by assumption)⟩
  · cases h

theorem tell_next {v : IdValue} {s t : State} (h : tell v s = .next t) : t = { s with answer := v } := by
  cases h; rfl

theorem testStatus_next {b : StatusBit} {s t : State} (h : testStatus b s = .next t) :
    t = { s with cond := statusBit b s.smp } := by
  cases h; rfl

/-- What one turn of a polling loop can do (R202). -/
theorem pollTurn_next {k : PollLoop} {rest : List SeqOp} {s t : State} (h : pollTurn k rest s = .next t) :
    s.params.pollLimit = some s.pollCnt ∧ s.access = .none ∧ t = { s with res := .timeout, opstate := .idle } ∨
    s.params.pollLimit ≠ some s.pollCnt ∧
      t = { s with
        pollCnt := s.pollCnt + 1
        opstate := .busy (memRead Config.raStatus ++ [.test .bsy, .branch (.loopBsy k)] ++ rest) } := by
  unfold pollTurn at h
  split at h
  · obtain ⟨ha, rfl⟩ := finish_next h
    exact .inl ⟨by assumption, ha, rfl⟩
  · cases h; exact .inr ⟨by assumption, rfl⟩

/-- What the branch after a status bit test can do: go on in BUSY at another position, or end the operation. -/
theorem takeBranch_next {d : Decision} {rest : List SeqOp} {s t : State} (h : takeBranch d rest s = .next t) :
    (∃ code v, t = { s with opstate := .busy code, rval := v }) ∨
    ∃ r, s.access = .none ∧ t = { s with res := r, opstate := .idle } := by
  have busy : ∀ code, (Host.Outcome.next { s with opstate := .busy code } : Result) = .next t →
      ∃ code v, t = { s with opstate := .busy code, rval := v } :=
    fun code h => ⟨code, s.rval, by cases h; rfl⟩
  have fin : ∀ r, finish r s = .next t → ∃ r, s.access = .none ∧ t = { s with res := r, opstate := .idle } :=
    fun r h => ⟨r, finish_next h⟩
  cases d with
  | loopBsy k =>
    simp only [takeBranch] at h
    split at h
    · exact .inl (busy _ h)
    · cases k <;> exact .inl (busy _ h)
  | readyDrdy => simp only [takeBranch] at h; split at h <;> exact .inl (busy _ h)
  | drqDrq => simp only [takeBranch] at h; split at h <;> exact .inl (busy _ h)
  | drqErr =>
    simp only [takeBranch] at h
    split at h
    · exact .inr (fin _ h)
    · exact .inl (busy _ h)
  | devResetErr => exact .inr (fin _ h)
  | isReadyBsy =>
    simp only [takeBranch] at h
    split at h
    · cases h; exact .inl ⟨rest, 0#16, rfl⟩
    · exact .inl (busy _ h)
  | isReadyDrdy => cases h; exact .inl ⟨rest, _, rfl⟩

end Sys2Proof.Machine
end

