-- ==== Sys2Proof/Laws/PerInstr.lean ====
section
/-! SUPPORT. The per-instruction family `RoundTrip`: the decoder reads from an instruction's own code that instruction, every
operand at every value. One lemma per constructor. -/

namespace Sys2Proof.Laws

/-- Decoding the encoding of `i` gives `i`. -/
def RoundTrip.Statement (i : Instr) : Prop := decode (encode i) = .ok i

theorem RoundTrip.configure (ct : BitVec 32) : Statement (.configure ct) := by
  simp [Statement, encode, decode, h64Code, decodeH64, onlyFields]
theorem RoundTrip.rdreg (ra : BitVec 4) : Statement (.rdreg ra) := by
  simp [Statement, encode, decode, h64Code, decodeH64, onlyFields]
theorem RoundTrip.wrreg (ra : BitVec 4) (v : BusWord) : Statement (.wrreg ra v) := by
  simp [Statement, encode, decode, h64Code, decodeH64, onlyFields]
theorem RoundTrip.hwreset : Statement .hwreset := rfl
theorem RoundTrip.devreset (dev : BitVec 1) : Statement (.devreset dev) := by
  simp [Statement, encode, decode, h64Code, decodeH64, onlyFields]
theorem RoundTrip.isready : Statement .isready := rfl
theorem RoundTrip.pioread (n : BitVec 32) : Statement (.pioread n) := by
  simp [Statement, encode, decode, h64Code, decodeH64, onlyFields]
theorem RoundTrip.rdsect (dev : BitVec 1) (lba : BitVec 32) (count : BitVec 16) : Statement (.rdsect dev lba count) := by
  simp [Statement, encode, decode, h64Code, decodeH64, onlyFields]
theorem RoundTrip.ident (dev : BitVec 1) (idc : BitVec 1) : Statement (.ident dev idc) := by
  simp [Statement, encode, decode, h64Code, decodeH64, onlyFields]
theorem RoundTrip.packet (dev : BitVec 1) (limit : BitVec 16) (cdb : Cdb) : Statement (.packet dev limit cdb) := by
  simp [Statement, encode, decode, decodeH64, onlyFields]
theorem RoundTrip.reservedOpc0 (f : H64Fields) : Statement (.reservedOpc0 f) := by
  simp [Statement, encode, decode, h64Code, decodeH64]
theorem RoundTrip.reservedOpcB (f : H64Fields) : Statement (.reservedOpcB f) := by
  simp [Statement, encode, decode, h64Code, decodeH64]
theorem RoundTrip.reservedOpcC (f : H64Fields) : Statement (.reservedOpcC f) := by
  simp [Statement, encode, decode, h64Code, decodeH64]
theorem RoundTrip.reservedOpcD (f : H64Fields) : Statement (.reservedOpcD f) := by
  simp [Statement, encode, decode, h64Code, decodeH64]
theorem RoundTrip.reservedOpcE (f : H64Fields) : Statement (.reservedOpcE f) := by
  simp [Statement, encode, decode, h64Code, decodeH64]
theorem RoundTrip.reservedOpcF (f : H64Fields) : Statement (.reservedOpcF f) := by
  simp [Statement, encode, decode, h64Code, decodeH64]
theorem RoundTrip.raData : Statement .raData := rfl
theorem RoundTrip.raErrorFeatures : Statement .raErrorFeatures := rfl
theorem RoundTrip.raSectorCount : Statement .raSectorCount := rfl
theorem RoundTrip.raLbaLow : Statement .raLbaLow := rfl
theorem RoundTrip.raLbaMid : Statement .raLbaMid := rfl
theorem RoundTrip.raLbaHigh : Statement .raLbaHigh := rfl
theorem RoundTrip.raDevice : Statement .raDevice := rfl
theorem RoundTrip.raStatusCommand : Statement .raStatusCommand := rfl
theorem RoundTrip.raAltStatus : Statement .raAltStatus := rfl
theorem RoundTrip.raReserved8 : Statement .raReserved8 := rfl
theorem RoundTrip.raReserved9 : Statement .raReserved9 := rfl
theorem RoundTrip.raReservedA : Statement .raReservedA := rfl
theorem RoundTrip.raReservedB : Statement .raReservedB := rfl
theorem RoundTrip.raReservedC : Statement .raReservedC := rfl
theorem RoundTrip.raReservedD : Statement .raReservedD := rfl
theorem RoundTrip.raReservedF : Statement .raReservedF := rfl
theorem RoundTrip.stBsy : Statement .stBsy := rfl
theorem RoundTrip.stDrdy : Statement .stDrdy := rfl
theorem RoundTrip.stDf : Statement .stDf := rfl
theorem RoundTrip.stDrq : Statement .stDrq := rfl
theorem RoundTrip.stErr : Statement .stErr := rfl
theorem RoundTrip.cmdDeviceReset : Statement .cmdDeviceReset := rfl
theorem RoundTrip.cmdReadSectors : Statement .cmdReadSectors := rfl
theorem RoundTrip.cmdPacket : Statement .cmdPacket := rfl
theorem RoundTrip.cmdIdentifyPacketDevice : Statement .cmdIdentifyPacketDevice := rfl
theorem RoundTrip.cmdIdentifyDevice : Statement .cmdIdentifyDevice := rfl
theorem RoundTrip.scsiTestUnitReady (body : CdbBody) : Statement (.scsiTestUnitReady body) := rfl
theorem RoundTrip.scsiInquiry (body : CdbBody) : Statement (.scsiInquiry body) := rfl
theorem RoundTrip.scsiRead10 (body : CdbBody) : Statement (.scsiRead10 body) := rfl
theorem RoundTrip.rdGetcnt : Statement .rdGetcnt := rfl
theorem RoundTrip.rdRstbLo : Statement .rdRstbLo := rfl
theorem RoundTrip.rdRhold : Statement .rdRhold := rfl
theorem RoundTrip.rdSample : Statement .rdSample := rfl
theorem RoundTrip.rdRstbHiLoop : Statement .rdRstbHiLoop := rfl
theorem RoundTrip.wrGetdata : Statement .wrGetdata := rfl
theorem RoundTrip.wrWstbLo : Statement .wrWstbLo := rfl
theorem RoundTrip.wrWhold : Statement .wrWhold := rfl
theorem RoundTrip.wrWstbHi : Statement .wrWstbHi := rfl
theorem RoundTrip.idDeviceClass : Statement .idDeviceClass := rfl
theorem RoundTrip.idIsAtapi : Statement .idIsAtapi := rfl
theorem RoundTrip.idRemovable : Statement .idRemovable := rfl
theorem RoundTrip.idResponseIncomplete : Statement .idResponseIncomplete := rfl
theorem RoundTrip.idPacketSize : Statement .idPacketSize := rfl
theorem RoundTrip.idSerialNumber : Statement .idSerialNumber := rfl
theorem RoundTrip.idFirmwareRevision : Statement .idFirmwareRevision := rfl
theorem RoundTrip.idModelNumber : Statement .idModelNumber := rfl
theorem RoundTrip.idIordySupported : Statement .idIordySupported := rfl
theorem RoundTrip.idIordyCanDisable : Statement .idIordyCanDisable := rfl
theorem RoundTrip.idFieldsValid : Statement .idFieldsValid := rfl
theorem RoundTrip.idCapacitySectors : Statement .idCapacitySectors := rfl
theorem RoundTrip.idAdvPioModes : Statement .idAdvPioModes := rfl
theorem RoundTrip.idMinPioCycleTime : Statement .idMinPioCycleTime := rfl
theorem RoundTrip.idMinPioCycleTimeIordy : Statement .idMinPioCycleTimeIordy := rfl
theorem RoundTrip.idQueueDepth : Statement .idQueueDepth := rfl
theorem RoundTrip.idMajorVersion : Statement .idMajorVersion := rfl
theorem RoundTrip.idFeature (w : FeatureWord) (b : BitVec 4) : Statement (.idFeature w b) := rfl
theorem RoundTrip.idChecksumValid : Statement .idChecksumValid := rfl
theorem RoundTrip.idChecksumSumOk : Statement .idChecksumSumOk := rfl

end Sys2Proof.Laws
end

