-- ==== Sys2Proof/Laws/Reach.lean ====
section
/-! SUPPORT. Runs: reachability composes, and what one turn of each agent does while an access is under way. -/

namespace Sys2Proof.Machine

theorem run_add (m n : Nat) (s t : State) (h : Host.Core.run Sys2Proof.core m s = .next t) :
    Host.Core.run Sys2Proof.core (m + n) s = Host.Core.run Sys2Proof.core n t := by
  induction m generalizing s with
  | zero =>
    cases h
    simp
  | succ m ih =>
    rw [Nat.succ_add]
    simp only [Host.Core.run] at h ⊢
    split at h
    · rename_i s' hs
      exact ih s' h
    · cases h
    · cases h

theorem Reaches.refl (s : State) : Reaches s s := ⟨0, rfl⟩

theorem Reaches.trans {s t u : State} (h : Reaches s t) (h' : Reaches t u) : Reaches s u := by
  obtain ⟨m, hm⟩ := h
  obtain ⟨n, hn⟩ := h'
  exact ⟨m + n, (run_add m n s t hm).trans hn⟩

theorem Reaches.of_step {s t : State} (h : step s = .next t) : Reaches s t :=
  ⟨1, by
    have : Sys2Proof.core.step s = .next t := h
    simp [Host.Core.run, this]⟩

/-- Where a step leads, what is reached from there is reached. -/
theorem Reaches.head {s t u : State} (h : step s = .next t) (h' : Reaches t u) : Reaches s u :=
  (Reaches.of_step h).trans h'

/-! ### The sequencer's turn -/

/-- The turns withheld from the sequencer, replaced. -/
abbrev State.withPace (s : State) (w : List Bool) : State := { s with pace := w }

/-- Liveness does not speak of withheld turns. -/
theorem State.Live.withPace {s : State} (h : s.Live) (w : List Bool) : (s.withPace w).Live :=
  ⟨h.enRd, h.enWr, h.phaseRdRange, h.phaseWrRange, h.depth, h.running⟩

/-- What idle lanes' turns and withheld turns change, replaced: completion flags, phases, the withheld turns to come. -/
abbrev State.withLanes (s : State) (a b : Bool) (p r : BitVec 16) (w : List Bool) : State :=
  { s with stalledRd := a, stalledWr := b, phaseRd := p, phaseWr := r, pace := w }

/-- The next turn is withheld, or it is not and at most one entry is used up. -/
theorem pace_cases (w : List Bool) :
    (∃ w', w = true :: w') ∨ w.head? ≠ some true ∧ w.tail.length ≤ w.length := by
  cases w with
  | nil => exact .inr (by simp)
  | cons b w => cases b <;> simp

/-- While BUSY and given its turn, the sequencer runs the line at the head of its position. -/
theorem step_line {s : State} {op : SeqOp} {rest : List SeqOp} (hr : s.por = false) (hp : s.pace.head? ≠ some true)
    (ht : s.turn = .sequencer) (ho : s.opstate = .busy (op :: rest)) :
    step s = runLine op rest { s with turn := .rdLane, opstate := .busy rest, pace := s.pace.tail } := by
  obtain ⟨⟩ := s
  rename_i pace _ _ _
  simp only at hr hp ht ho
  subst hr ht ho
  rcases pace with _ | ⟨_ | _, _⟩
  · rfl
  · rfl
  · simp at hp

/-- The end of the position is `return OK`. -/
theorem step_end {s : State} (hr : s.por = false) (hp : s.pace.head? ≠ some true) (ht : s.turn = .sequencer)
    (ho : s.opstate = .busy []) : step s = finish .ok { s with turn := .rdLane, pace := s.pace.tail } := by
  obtain ⟨⟩ := s
  rename_i pace _ _ _
  simp only at hr hp ht ho
  subst hr ht ho
  rcases pace with _ | ⟨_ | _, _⟩
  · rfl
  · rfl
  · simp at hp

/-- A withheld turn changes nothing. -/
theorem step_withheld {s : State} {code : List SeqOp} {w : List Bool} (hr : s.por = false) (hp : s.pace = true :: w)
    (ht : s.turn = .sequencer) (ho : s.opstate = .busy code) : step s = .next { s with turn := .rdLane, pace := w } := by
  obtain ⟨⟩ := s
  simp only at hr hp ht ho
  subst hr hp ht ho
  rfl

/-- While IDLE the host's next request is run. -/
theorem step_request {s : State} {r : HostReq} {more : List HostReq} (hr : s.por = false) (ht : s.turn = .sequencer)
    (ho : s.opstate = .idle) (hq : s.port = r :: more) :
    step s = runRequest r { s with turn := .rdLane, port := more } := by
  obtain ⟨⟩ := s
  simp only at hr ht ho hq
  subst hr ht ho hq
  rfl

/-! ### The lanes' turns -/

/-- The next value of `PHASE[l]` (R30). -/
def nextPhase (div ph : BitVec 16) : BitVec 16 := if ph = div - 1#16 then 0#16 else ph + 1#16

theorem nextPhase_lt {div ph : BitVec 16} (h : ph.toNat < div.toNat) : (nextPhase div ph).toNat < div.toNat := by
  unfold nextPhase
  split
  · simp; omega
  · rename_i hne
    have h1 : ph.toNat ≠ (div - 1#16).toNat := fun e => hne (BitVec.eq_of_toNat_eq e)
    have := div.isLt
    rw [BitVec.toNat_sub] at h1
    rw [BitVec.toNat_add]
    simp at h1 ⊢
    omega

theorem step_rdLane {s : State} {code : List SeqOp} (hr : s.por = false) (ht : s.turn = .rdLane)
    (ho : s.opstate = .busy code ∨ s.opstate = .idle) : step s = rdLaneTurn { s with turn := .wrLane } := by
  obtain ⟨⟩ := s
  simp only at hr ht ho
  subst hr ht
  rcases ho with rfl | rfl <;> rfl

theorem step_wrLane {s : State} {code : List SeqOp} (hr : s.por = false) (ht : s.turn = .wrLane)
    (ho : s.opstate = .busy code ∨ s.opstate = .idle) : step s = wrLaneTurn { s with turn := .sequencer } := by
  obtain ⟨⟩ := s
  simp only at hr ht ho
  subst hr ht
  rcases ho with rfl | rfl <;> rfl

/-- An idle, enabled RD lane's clock cycle touches its phase and its completion flag only. -/
theorem rdLaneTurn_idle {s : State} (he : s.enRd = true) (hp : s.pcRd = 0#3) (hq : s.inqRd = []) :
    rdLaneTurn s = .next { s with phaseRd := nextPhase s.div s.phaseRd, stalledRd := s.stalledRd || s.rdTicks } := by
  obtain ⟨⟩ := s
  simp only at he hp hq
  subst he hp hq
  simp only [rdLaneTurn, State.rdTicks, nextPhase, Bool.true_and]
  split
  · rename_i h
    simp only [beq_iff_eq] at h
    simp [runCode, decode, decodeRdSlot, exec, execRdGetcnt, h]
  · rename_i h
    simp only [beq_iff_eq] at h
    simp [h]

/-- An idle, enabled WR lane's clock cycle touches its phase and its completion flag only. -/
theorem wrLaneTurn_idle {s : State} (he : s.enWr = true) (hp : s.pcWr = 0#2) (hq : s.inqWr = []) (hd : s.ddOe = false) :
    wrLaneTurn s = .next { s with phaseWr := nextPhase s.div s.phaseWr, stalledWr := s.stalledWr || s.wrTicks } := by
  obtain ⟨⟩ := s
  simp only at he hp hq hd
  subst he hp hq hd
  simp only [wrLaneTurn, State.wrTicks, nextPhase, Bool.true_and]
  split
  · rename_i h
    simp only [beq_iff_eq] at h
    simp [runCode, decode, decodeWrSlot, exec, execWrGetdata, h]
  · rename_i h
    simp only [beq_iff_eq] at h
    simp [h]

/-- A clock cycle of an enabled lane without a tick only counts. -/
theorem rdLaneTurn_wait {s : State} (he : s.enRd = true) (hn : s.phaseRd ≠ s.div - 1#16) :
    rdLaneTurn s = .next { s with phaseRd := s.phaseRd + 1#16 } := by
  simp [rdLaneTurn, State.rdTicks, he, hn]

theorem wrLaneTurn_wait {s : State} (he : s.enWr = true) (hn : s.phaseWr ≠ s.div - 1#16) :
    wrLaneTurn s = .next { s with phaseWr := s.phaseWr + 1#16 } := by
  simp [wrLaneTurn, State.wrTicks, he, hn]

/-- At a tick an enabled lane executes the micro-instruction at its slot (R147). -/
theorem rdLaneTurn_tick {s : State} (he : s.enRd = true) (hn : s.phaseRd = s.div - 1#16) :
    rdLaneTurn s = runCode (.rdSlot s.pcRd) { s with phaseRd := 0#16 } := by
  simp [rdLaneTurn, State.rdTicks, he, hn]

theorem wrLaneTurn_tick {s : State} (he : s.enWr = true) (hn : s.phaseWr = s.div - 1#16) :
    wrLaneTurn s = runCode (.wrSlot s.pcWr) { s with phaseWr := 0#16 } := by
  simp [wrLaneTurn, State.wrTicks, he, hn]

/-- With idle lanes, the turns up to the sequencer's next touch completion flags and phases only. -/
theorem quiet_sequencer {s : State} {code : List SeqOp} (hl : s.Live) (hi : s.lanesIdle = true)
    (ho : s.opstate = .busy code ∨ s.opstate = .idle) :
    ∃ a b p r, p.toNat < s.div.toNat ∧ r.toNat < s.div.toNat ∧
      Reaches s { s with turn := .sequencer, stalledRd := a, stalledWr := b, phaseRd := p, phaseWr := r } := by
  obtain ⟨hird, hiwr⟩ := s.lanesIdle_iff.mp hi
  obtain ⟨r1, r2, -, -⟩ := s.idleRd_iff.mp hird
  obtain ⟨w1, w2, -, w4⟩ := s.idleWr_iff.mp hiwr
  have wr : ∀ t : State, t.enWr = true → t.por = false → t.pcWr = 0#2 → t.inqWr = [] → t.ddOe = false → t.turn = .wrLane →
      (t.opstate = .busy code ∨ t.opstate = .idle) → step t = .next { t with
        turn := .sequencer, phaseWr := nextPhase t.div t.phaseWr, stalledWr := t.stalledWr || t.wrTicks } := by
    intro t h1 h2 h3 h4 h5 h6 h7
    exact (step_wrLane h2 h6 h7).trans (wrLaneTurn_idle (s := { t with turn := .sequencer }) h1 h3 h4 h5)
  match ht : s.turn with
  | .sequencer => exact ⟨s.stalledRd, s.stalledWr, s.phaseRd, s.phaseWr, hl.phaseRdRange, hl.phaseWrRange, by
      rw [← ht]; exact Reaches.refl s⟩
  | .wrLane => exact ⟨s.stalledRd, s.stalledWr || s.wrTicks, s.phaseRd, nextPhase s.div s.phaseWr, hl.phaseRdRange,
      nextPhase_lt hl.phaseWrRange, Reaches.of_step (wr s hl.enWr hl.running w1 w2 w4 ht ho)⟩
  | .rdLane =>
    refine ⟨s.stalledRd || s.rdTicks, s.stalledWr || s.wrTicks, nextPhase s.div s.phaseRd, nextPhase s.div s.phaseWr,
      nextPhase_lt hl.phaseRdRange, nextPhase_lt hl.phaseWrRange, Reaches.head ((step_rdLane hl.running ht ho).trans
        (rdLaneTurn_idle (s := { s with turn := .wrLane }) hl.enRd r1 r2)) (Reaches.of_step ?_)⟩
    exact wr { s with turn := .wrLane, phaseRd := nextPhase s.div s.phaseRd, stalledRd := s.stalledRd || s.rdTicks }
      hl.enWr hl.running w1 w2 w4 rfl ho

/-- With idle lanes the busy sequencer comes to a turn that is not withheld, and meanwhile completion flags and phases alone
change. -/
theorem granted {code : List SeqOp} (w : List Bool) : ∀ {s : State}, s.pace = w → s.Live → s.turn = .sequencer →
    s.lanesIdle = true → s.opstate = .busy code →
    ∃ a b p r w', p.toNat < s.div.toNat ∧ r.toNat < s.div.toNat ∧ w'.head? ≠ some true ∧
      Reaches s (s.withLanes a b p r w') := by
  induction w with
  | nil =>
    intro s hw hl _ _ _
    exact ⟨s.stalledRd, s.stalledWr, s.phaseRd, s.phaseWr, s.pace, hl.phaseRdRange, hl.phaseWrRange, by simp [hw],
      Reaches.refl s⟩
  | cons x w ih =>
    intro s hw hl ht hi ho
    cases x with
    | false =>
      exact ⟨s.stalledRd, s.stalledWr, s.phaseRd, s.phaseWr, s.pace, hl.phaseRdRange, hl.phaseWrRange, by simp [hw],
        Reaches.refl s⟩
    | true =>
      obtain ⟨a, b, p, r, h1, h2, h3⟩ := quiet_sequencer (s := { s with turn := .rdLane, pace := w }) (code := code)
        ⟨hl.enRd, hl.enWr, hl.phaseRdRange, hl.phaseWrRange, hl.depth, hl.running⟩ hi (.inl ho)
      obtain ⟨a', b', p', r', w', h4, h5, h6, h7⟩ := ih
        (s := { s.withLanes a b p r w with turn := .sequencer }) rfl
        ⟨hl.enRd, hl.enWr, h1, h2, hl.depth, hl.running⟩ rfl hi ho
      refine ⟨a', b', p', r', w', h4, h5, h6, Reaches.head (step_withheld hl.running hw ht ho) (h3.trans ?_)⟩
      rw [show s = { s with turn := .sequencer } by rw [← ht]]
      exact h7

/-- A BUSY engine with idle lanes comes to run its next line, with the lanes' completion flags and phases and the withheld turns
alone changed before it. -/
theorem to_line {s : State} {op : SeqOp} {rest : List SeqOp} (hl : s.Live) (hi : s.lanesIdle = true)
    (ho : s.opstate = .busy (op :: rest)) :
    ∃ a b p r w, p.toNat < s.div.toNat ∧ r.toNat < s.div.toNat ∧
      ∀ t, runLine op rest { s.withLanes a b p r w with turn := .rdLane, opstate := .busy rest } = .next t → Reaches s t := by
  obtain ⟨a, b, p, r, h1, h2, h3⟩ := quiet_sequencer hl hi (.inl ho)
  obtain ⟨a', b', p', r', w, h4, h5, h6, h7⟩ := granted (code := op :: rest) s.pace
    (s := { s with turn := .sequencer, stalledRd := a, stalledWr := b, phaseRd := p, phaseWr := r }) rfl
    ⟨hl.enRd, hl.enWr, h1, h2, hl.depth, hl.running⟩ rfl hi ho
  exact ⟨a', b', p', r', w.tail, h4, h5, fun t ht => h3.trans (h7.trans (Reaches.of_step
    ((step_line (s := { s.withLanes a' b' p' r' w with turn := .sequencer }) hl.running h6 rfl
      ho).trans ht)))⟩

/-- The same at the end of an operation's lines. -/
theorem to_end {s : State} (hl : s.Live) (hi : s.lanesIdle = true) (ho : s.opstate = .busy []) :
    ∃ a b p r w, p.toNat < s.div.toNat ∧ r.toNat < s.div.toNat ∧
      ∀ t, finish .ok { s.withLanes a b p r w with turn := .rdLane } = .next t →
        Reaches s t := by
  obtain ⟨a, b, p, r, h1, h2, h3⟩ := quiet_sequencer hl hi (.inl ho)
  obtain ⟨a', b', p', r', w, h4, h5, h6, h7⟩ := granted (code := []) s.pace
    (s := { s with turn := .sequencer, stalledRd := a, stalledWr := b, phaseRd := p, phaseWr := r }) rfl
    ⟨hl.enRd, hl.enWr, h1, h2, hl.depth, hl.running⟩ rfl hi ho
  exact ⟨a', b', p', r', w.tail, h4, h5, fun t ht => h3.trans (h7.trans (Reaches.of_step
    ((step_end (s := { s.withLanes a' b' p' r' w with turn := .sequencer }) hl.running h6 rfl
      ho).trans ht)))⟩

end Sys2Proof.Machine
end

