-- ==== Sys2Proof/Laws/WriteAccess.lean ====
section
/-! SUPPORT. What a write burst does from its first line to its last (R79, R155 to R159): the WR lane's clock as a function on
the few fields it owns, and the run of `memWriteBurst` on an idle bus. -/

namespace Sys2Proof.Machine

/-- The four slots of the WR lane (R23). -/
theorem wrSlot_cases (pc : BitVec 2) : pc = 0#2 ∨ pc = 1#2 ∨ pc = 2#2 ∨ pc = 3#2 := by
  revert pc; decide

/-- The fields a write access moves while it runs. -/
structure WriteLane where
  q : List BusWord
  pc : BitVec 2
  osr : BusWord
  out : BusWord
  oe : Bool
  stb : Bool
  stalled : Bool
  ph : BitVec 16
  done : List BusWord

/-- One WR lane tick (R155 to R158). -/
def WriteLane.tick (l : WriteLane) : WriteLane :=
  match l.pc.toNat with
  | 0 =>
    match l.q with
    | [] => { l with stalled := true, oe := false, pc := 0#2 }
    | w :: q => { l with osr := w, q := q, out := w, oe := true, pc := 1#2 }
  | 1 => { l with stb := true, pc := 2#2 }
  | 2 => { l with pc := 3#2 }
  | _ => { l with stb := false, pc := 0#2, done := l.done ++ [l.osr] }

/-- One clock cycle of the enabled WR lane (R30). -/
def WriteLane.clock (div : BitVec 16) (l : WriteLane) : WriteLane :=
  if l.ph = div - 1#16 then { l.tick with ph := 0#16 } else { l with ph := l.ph + 1#16 }

/-- The state during a write access to `ra` that began in `s`: the sequencer at `c`, the WR lane at `l`, the idle RD lane's
completion flag and phase at `a` and `p`. -/
def writeState (s : State) (ra : BitVec 4) (c : List SeqOp) (t : Turn) (a : Bool) (p : BitVec 16) (l : WriteLane) : State :=
  { s with
    opstate := .busy c, turn := t, cs := csOf ra, da := daOf ra, access := .writing
    inqWr := l.q, pcWr := l.pc, osr := l.osr, ddOut := l.out, ddOe := l.oe, wrStb := l.stb
    stalledWr := l.stalled, phaseWr := l.ph, stalledRd := a, phaseRd := p
    trace := s.trace ++ addrEvent ra :: l.done.map (wrEvent ra) }

theorem writeState_wrLane {s : State} (ra : BitVec 4) (c : List SeqOp) (a : Bool) (p : BitVec 16) (l : WriteLane)
    (he : s.enWr = true) (hr : s.por = false) :
    step (writeState s ra c .wrLane a p l) = .next (writeState s ra c .sequencer a p (l.clock s.div)) := by
  rw [step_wrLane (s := writeState s ra c .wrLane a p l) (code := c) hr rfl (.inl rfl)]
  show wrLaneTurn (writeState s ra c .sequencer a p l) = _
  obtain ⟨q, pc, osr, out, oe, stb, stalled, ph, done⟩ := l
  by_cases h : ph = s.div - 1#16
  · rw [wrLaneTurn_tick (s := writeState s ra c .sequencer a p ⟨q, pc, osr, out, oe, stb, stalled, ph, done⟩) he h]
    have hpc := wrSlot_cases pc
    rcases hpc with rfl | rfl | rfl | rfl
    · cases q <;> simp [runCode, decode, decodeWrSlot, exec, execWrGetdata, writeState, WriteLane.clock, WriteLane.tick, h]
    · simp [runCode, decode, decodeWrSlot, exec, execWrWstbLo, writeState, WriteLane.clock, WriteLane.tick, h]
    · simp [runCode, decode, decodeWrSlot, exec, execWrWhold, writeState, WriteLane.clock, WriteLane.tick, h]
    · simp [runCode, decode, decodeWrSlot, exec, execWrWstbHi, writeState, WriteLane.clock, WriteLane.tick, h, wrEvent]
  · rw [wrLaneTurn_wait (s := writeState s ra c .sequencer a p ⟨q, pc, osr, out, oe, stb, stalled, ph, done⟩) he h]
    simp [writeState, WriteLane.clock, h]

theorem writeState_rdLane {s : State} (ra : BitVec 4) (c : List SeqOp) (a : Bool) (p : BitVec 16) (l : WriteLane)
    (he : s.enRd = true) (hr : s.por = false) (hi : s.idleRd = true) :
    ∃ a', step (writeState s ra c .rdLane a p l) = .next (writeState s ra c .wrLane a' (nextPhase s.div p) l) := by
  obtain ⟨hp, hq, -, -⟩ := s.idleRd_iff.mp hi
  refine ⟨a || (s.enRd && p == s.div - 1#16), ?_⟩
  exact (step_rdLane (s := writeState s ra c .rdLane a p l) (code := c) hr rfl (.inl rfl)).trans
    (rdLaneTurn_idle (s := writeState s ra c .wrLane a p l) he hp hq)

/-- The lanes' part of a clock cycle. -/
theorem writeState_lanes {s : State} (ra : BitVec 4) (c : List SeqOp) (a : Bool) (p : BitVec 16) (l : WriteLane)
    (hl : s.Live) (hi : s.idleRd = true) :
    ∃ a', Reaches (writeState s ra c .rdLane a p l) (writeState s ra c .sequencer a' (nextPhase s.div p) (l.clock s.div)) := by
  obtain ⟨a', h⟩ := writeState_rdLane ra c a p l hl.enRd hl.running hi
  exact ⟨a', (Reaches.of_step h).trans (Reaches.of_step (writeState_wrLane ra c a' _ l hl.enWr hl.running))⟩

/-- A clock cycle in which the sequencer's line `op` leads to the position `c'` and the WR lane fields `l'`. -/
theorem writeState_cycle {s : State} {ra : BitVec 4} {op : SeqOp} {rest c' : List SeqOp} {w : List Bool} {a : Bool}
    {p : BitVec 16} {l l' : WriteLane} (hl : s.Live) (hi : s.idleRd = true) (hw : w.head? ≠ some true)
    (h : runLine op rest (writeState (s.withPace w.tail) ra rest .rdLane a p l) =
      .next (writeState (s.withPace w.tail) ra c' .rdLane a p l')) :
    ∃ a', Reaches (writeState (s.withPace w) ra (op :: rest) .sequencer a p l)
      (writeState (s.withPace w.tail) ra c' .sequencer a' (nextPhase s.div p) (l'.clock s.div)) := by
  obtain ⟨a', hr⟩ := writeState_lanes ra c' a p l' (hl.withPace w.tail) hi
  exact ⟨a', Reaches.head
    ((step_line (s := writeState (s.withPace w) ra (op :: rest) .sequencer a p l) hl.running hw rfl rfl).trans h) hr⟩

/-- A clock cycle in which the sequencer's turn is withheld. -/
theorem writeState_held {s : State} (ra : BitVec 4) (c : List SeqOp) (w : List Bool) (a : Bool) (p : BitVec 16)
    (l : WriteLane) (hl : s.Live) (hi : s.idleRd = true) :
    ∃ a', Reaches (writeState (s.withPace (true :: w)) ra c .sequencer a p l)
      (writeState (s.withPace w) ra c .sequencer a' (nextPhase s.div p) (l.clock s.div)) := by
  obtain ⟨a', hr⟩ := writeState_lanes ra c a p l (hl.withPace w) hi
  exact ⟨a', Reaches.head
    (step_withheld (s := writeState (s.withPace (true :: w)) ra c .sequencer a p l) (code := c) hl.running rfl rfl rfl) hr⟩

/-- The WR lane fields agree with a write of `ws` of which `todo` is not handed over yet. -/
def WriteLane.Good (div : BitVec 16) (ws todo : List BusWord) (l : WriteLane) : Prop :=
  l.ph.toNat < div.toNat ∧ l.stb = decide (2 ≤ l.pc.toNat) ∧ (l.pc ≠ 0#2 → l.oe = true) ∧
  (l.done ≠ [] ∨ l.pc ≠ 0#2 → l.osr = l.out) ∧ (l.pc = 0#2 → l.done ≠ [] → l.done.getLast? = some l.osr) ∧
  ws = l.done ++ (if l.pc = 0#2 then [] else [l.osr]) ++ l.q ++ todo

theorem WriteLane.Good.clock {div : BitVec 16} {ws todo : List BusWord} {l : WriteLane} (h : l.Good div ws todo) :
    (l.clock div).Good div ws todo := by
  obtain ⟨q, pc, osr, out, oe, stb, stalled, ph, done⟩ := l
  obtain ⟨h1, h2, h3, h4, h5, h6⟩ := h
  have hph := nextPhase_lt h1
  unfold nextPhase at hph
  simp only at h1 h2 h3 h4 h5 h6 hph
  unfold WriteLane.clock
  simp only
  split
  · rename_i e
    rw [if_pos e] at hph
    have hpc := wrSlot_cases pc
    rcases hpc with rfl | rfl | rfl | rfl
    · cases q <;> simp_all [WriteLane.tick, WriteLane.Good]
    · simp_all [WriteLane.tick, WriteLane.Good]
    · simp_all [WriteLane.tick, WriteLane.Good]
    · simp_all [WriteLane.tick, WriteLane.Good]
  · rename_i e
    rw [if_neg e] at hph
    exact ⟨hph, h2, h3, h4, h5, h6⟩

/-- How many lane ticks the handed words still take, without the last stall. -/
def WriteLane.work (l : WriteLane) : Nat := 4 * l.q.length + (if l.pc = 0#2 then 0 else 4 - l.pc.toNat)

/-- How far the lane is from having used up its work and stalled, in clock cycles. -/
def WriteLane.left (l : WriteLane) : Nat := l.work * 65536 + (65535 - l.ph.toNat)

theorem WriteLane.left_clock {div : BitVec 16} {l : WriteLane} (hp : l.ph.toNat < div.toNat) (hw : l.work ≠ 0) :
    (l.clock div).left < l.left := by
  obtain ⟨q, pc, osr, out, oe, stb, stalled, ph, done⟩ := l
  have hph := nextPhase_lt hp
  unfold nextPhase at hph
  have hd := div.isLt
  simp only at hp hph
  unfold WriteLane.clock
  simp only
  split
  · rename_i e
    have hpc := wrSlot_cases pc
    rcases hpc with rfl | rfl | rfl | rfl
    · cases q
      · simp [WriteLane.work] at hw
      · simp [WriteLane.tick, WriteLane.left, WriteLane.work]; omega
    · simp [WriteLane.tick, WriteLane.left, WriteLane.work]; omega
    · simp [WriteLane.tick, WriteLane.left, WriteLane.work]; omega
    · simp [WriteLane.tick, WriteLane.left, WriteLane.work]; omega
  · rename_i e
    have : (ph + 1#16).toNat = ph.toNat + 1 := by
      rw [BitVec.toNat_add]; simp; omega
    simp only [WriteLane.left, WriteLane.work, this]
    omega

/-- While words are still to be written a clock cycle leaves the completion flag alone. -/
theorem WriteLane.stalled_clock {div : BitVec 16} {l : WriteLane} (hw : l.work ≠ 0) :
    (l.clock div).stalled = l.stalled := by
  obtain ⟨q, pc, osr, out, oe, stb, stalled, ph, done⟩ := l
  unfold WriteLane.clock
  simp only
  split
  · have hpc := wrSlot_cases pc
    rcases hpc with rfl | rfl | rfl | rfl
    · cases q
      · simp [WriteLane.work] at hw
      · simp [WriteLane.tick]
    · simp [WriteLane.tick]
    · simp [WriteLane.tick]
    · simp [WriteLane.tick]
  · rfl

/-- With no word left the lane is at slot 0 with nothing queued. -/
theorem WriteLane.work_zero {l : WriteLane} (h : l.work = 0) : l.pc = 0#2 ∧ l.q = [] := by
  obtain ⟨q, pc, osr, out, oe, stb, stalled, ph, done⟩ := l
  simp only [WriteLane.work] at h
  have hpc : pc = 0#2 := by
    have := pc.isLt
    by_contra hne
    rw [if_neg hne] at h
    omega
  subst hpc
  simp at h
  exact ⟨rfl, h⟩

/-- With no word left a clock cycle either counts or stalls the lane, which releases the bus. -/
theorem WriteLane.clock_done {div : BitVec 16} {l : WriteLane} (h : l.work = 0) :
    l.clock div = { l with ph := l.ph + 1#16 } ∧ l.ph ≠ div - 1#16 ∨
    l.clock div = { l with stalled := true, oe := false, ph := 0#16 } := by
  obtain ⟨hpc, hq⟩ := WriteLane.work_zero h
  obtain ⟨q, pc, osr, out, oe, stb, stalled, ph, done⟩ := l
  simp only at hpc hq
  subst hpc hq
  unfold WriteLane.clock
  simp only
  split
  · exact .inr (by simp [WriteLane.tick])
  · exact .inl ⟨rfl, by assumption⟩

/-- A clock cycle adds less than one tick's worth of time to what is left. -/
theorem WriteLane.left_clock_lt {div : BitVec 16} {l : WriteLane} (hp : l.ph.toNat < div.toNat) :
    (l.clock div).left < l.left + 65536 := by
  by_cases hw : l.work = 0
  · rcases WriteLane.clock_done (div := div) hw with ⟨e, -⟩ | e
    · rw [e]
      simp only [WriteLane.left, WriteLane.work]
      omega
    · rw [e]
      simp only [WriteLane.left, WriteLane.work]
      omega
  · exact Nat.lt_add_right _ (WriteLane.left_clock hp hw)

/-- Once the flag was cleared with every word handed over, either it is still clear or the lane has written all and released
the bus. -/
def WriteLane.Waits (l : WriteLane) : Prop := l.stalled = false ∨ l.work = 0 ∧ l.oe = false

theorem WriteLane.Waits.clock {div : BitVec 16} {l : WriteLane} (h : l.Waits) : (l.clock div).Waits := by
  by_cases hw : l.work = 0
  · rcases WriteLane.clock_done (div := div) hw with ⟨e, -⟩ | e
    · rw [e]; exact h
    · rw [e]; exact .inr ⟨hw, rfl⟩
  · refine .inl ((WriteLane.stalled_clock hw).trans ?_)
    rcases h with h | ⟨h, -⟩
    · exact h
    · exact absurd h hw

/-- What a finished write access leaves, but for the idle lanes' completion flags and phases. -/
def writeDone (s : State) (ra : BitVec 4) (ws : List BusWord) (rest : List SeqOp) (a b : Bool) (p r : BitVec 16) : State :=
  { s with
    opstate := .busy rest, turn := .sequencer, cs := csOf ra, da := daOf ra
    osr := ws.getLastD s.osr, ddOut := ws.getLastD s.ddOut
    trace := s.trace ++ addrEvent ra :: ws.map (wrEvent ra)
    stalledRd := a, stalledWr := b, phaseRd := p, phaseWr := r }

/-- The completion wait of a write ends when the flag is set (R75 step 3), and the lanes' turns of that cycle touch idle
lanes' flags and phases only. -/
theorem writeState_awaitEnds {s : State} {ra : BitVec 4} {ws : List BusWord} {rest : List SeqOp} (hws : ws ≠ [])
    (hl : s.Live) (hi : s.lanesIdle = true) (hacc : s.access = .none) (w : List Bool) (hgr : w.head? ≠ some true) (a : Bool)
    (p : BitVec 16) (l : WriteLane) (hp : p.toNat < s.div.toNat) (hg : l.Good s.div ws []) (hst : l.stalled = true)
    (hw : l.work = 0) (hoe : l.oe = false) :
    ∃ a' b p' r, p'.toNat < s.div.toNat ∧ r.toNat < s.div.toNat ∧
      Reaches (writeState (s.withPace w) ra (.await .wr :: rest) .sequencer a p l)
        (writeDone (s.withPace w.tail) ra ws rest a' b p' r) := by
  obtain ⟨hird, hiwr⟩ := s.lanesIdle_iff.mp hi
  have hp' := nextPhase_lt hp
  obtain ⟨hpc, hq⟩ := WriteLane.work_zero hw
  obtain ⟨q, pc, osr, out, oe, stb, stalled, ph, done⟩ := l
  obtain ⟨h1, h2, h3, h4, h5, h6⟩ := hg
  simp only at hpc hq hoe hst h1 h2 h4 h5 h6
  subst hpc hq hoe hst
  simp at h2 h6
  subst h2 h6
  have hlast := h5 rfl hws
  obtain ⟨h7, h8, h9, h10⟩ := s.idleWr_iff.mp hiwr
  have hosr := h4 (.inl hws)
  subst hosr
  have hd : ∀ d, ws.getLastD d = osr := fun d => by
    rw [List.getLastD_eq_getLast?, hlast]; rfl
  obtain ⟨r1, r2, r3, r4⟩ := s.idleRd_iff.mp hird
  have hidle : (writeState (s.withPace w.tail) ra rest .rdLane a p ⟨[], 0#2, osr, osr, false, false, true, ph, ws⟩).lanesIdle = true := by
    rw [State.lanesIdle_iff, State.idleRd_iff, State.idleWr_iff]
    exact ⟨⟨r1, r2, r3, r4⟩, rfl, rfl, rfl, rfl⟩
  have hend : endAccess (writeState (s.withPace w.tail) ra rest .rdLane a p ⟨[], 0#2, osr, osr, false, false, true, ph, ws⟩) =
      .next { writeDone (s.withPace w.tail) ra ws rest a true p ph with turn := .rdLane } := by
    rw [endAccess, if_pos hidle]
    simp only [writeDone, hd, writeState]
    rw [hacc, h7, h8, h9, h10]
  have e1 : step (writeState (s.withPace w) ra (.await .wr :: rest) .sequencer a p ⟨[], 0#2, osr, osr, false, false, true, ph, ws⟩) =
      .next { writeDone (s.withPace w.tail) ra ws rest a true p ph with turn := .rdLane } :=
    (step_line (s := writeState (s.withPace w) ra (.await .wr :: rest) .sequencer a p _) hl.running hgr rfl rfl).trans hend
  have e2 : step { writeDone (s.withPace w.tail) ra ws rest a true p ph with turn := .rdLane } =
      .next { writeDone (s.withPace w.tail) ra ws rest (a || s.enRd && p == s.div - 1#16) true (nextPhase s.div p) ph with
        turn := .wrLane } := by
    exact (step_rdLane (s := { writeDone (s.withPace w.tail) ra ws rest a true p ph with turn := .rdLane }) (code := rest) hl.running rfl
      (.inl rfl)).trans (rdLaneTurn_idle (s := { writeDone (s.withPace w.tail) ra ws rest a true p ph with turn := .wrLane }) hl.enRd r1 r2)
  have e3 : step { writeDone (s.withPace w.tail) ra ws rest (a || s.enRd && p == s.div - 1#16) true (nextPhase s.div p) ph with
        turn := .wrLane } =
      .next (writeDone (s.withPace w.tail) ra ws rest (a || s.enRd && p == s.div - 1#16) true (nextPhase s.div p)
        (nextPhase s.div ph)) := by
    exact (step_wrLane (code := rest) (s := { writeDone (s.withPace w.tail) ra ws rest (a || s.enRd && p == s.div - 1#16) true
      (nextPhase s.div p) ph with turn := .wrLane }) hl.running rfl (.inl rfl)).trans
      (wrLaneTurn_idle (s := writeDone (s.withPace w.tail) ra ws rest (a || s.enRd && p == s.div - 1#16) true (nextPhase s.div p) ph)
        hl.enWr h7 h8 h10)
  exact ⟨_, _, _, _, hp', nextPhase_lt h1, Reaches.head e1 (Reaches.head e2 (Reaches.of_step e3))⟩

/-- The completion wait of a write (R75 step 3): once the flag was cleared after the last push, it ends with every word
written, the bus released and both lanes idle. -/
theorem writeState_await {s : State} {ra : BitVec 4} {ws : List BusWord} {rest : List SeqOp} (hws : ws ≠ [])
    (hl : s.Live) (hi : s.lanesIdle = true) (hacc : s.access = .none) :
    ∀ (n : Nat) (w : List Bool) (a : Bool) (p : BitVec 16) (l : WriteLane),
      l.left + 65536 * w.length + (if l.stalled then 0 else 65536) ≤ n →
      p.toNat < s.div.toNat → l.Good s.div ws [] → l.Waits →
      ∃ a' b p' r w', p'.toNat < s.div.toNat ∧ r.toNat < s.div.toNat ∧
        Reaches (writeState (s.withPace w) ra (.await .wr :: rest) .sequencer a p l)
          (writeDone (s.withPace w') ra ws rest a' b p' r) := by
  obtain ⟨hird, -⟩ := s.lanesIdle_iff.mp hi
  intro n
  induction n using Nat.strong_induction_on with
  | _ n ih =>
    intro w a p l hn hp hg hwt
    -- a clock cycle never clears the flag
    have hmono : l.stalled = true → (l.clock s.div).stalled = true := by
      intro h
      by_cases hw0 : l.work = 0
      · rcases WriteLane.clock_done (div := s.div) hw0 with ⟨e, -⟩ | e
        · rw [e]; exact h
        · rw [e]
      · rw [WriteLane.stalled_clock hw0, h]
    have hle : (if (l.clock s.div).stalled then 0 else 65536) ≤ (if l.stalled then 0 else 65536) := by
      cases h : l.stalled
      · split <;> simp
      · simp [hmono h]
    have hlt := WriteLane.left_clock_lt hg.1
    rcases pace_cases w with ⟨w', rfl⟩ | ⟨hgr, hlen⟩
    · obtain ⟨a', hc⟩ := writeState_held ra (.await .wr :: rest) w' a p l hl hird
      rw [List.length_cons] at hn
      obtain ⟨a, b, p, r, w, h1, h2, h3⟩ := ih _ (by omega) w' a' _ _ (Nat.le_refl _) (nextPhase_lt hp) hg.clock hwt.clock
      exact ⟨a, b, p, r, w, h1, h2, hc.trans h3⟩
    · by_cases hst : l.stalled = true
      · rcases hwt with hs | hs
        · rw [hs] at hst; cases hst
        · obtain ⟨a, b, p, r, h⟩ := writeState_awaitEnds (ra := ra) (rest := rest) hws hl hi hacc w hgr a p l hp hg hst hs.1
            hs.2
          exact ⟨a, b, p, r, w.tail, h⟩
      · have hline : runLine (.await .wr) rest (writeState (s.withPace w.tail) ra rest .rdLane a p l) =
            .next (writeState (s.withPace w.tail) ra (.await .wr :: rest) .rdLane a p l) := by
          show (if l.stalled = true then _ else _) = _
          rw [if_neg hst]
          rfl
        obtain ⟨a', hc⟩ := writeState_cycle hl hird hgr hline
        have hdec : (l.clock s.div).left + (if (l.clock s.div).stalled then 0 else 65536) <
            l.left + (if l.stalled then 0 else 65536) := by
          rw [if_neg hst]
          by_cases hw0 : l.work = 0
          · rcases WriteLane.clock_done (div := s.div) hw0 with ⟨e, hne⟩ | e
            · have hd := s.div.isLt
              have hph := hg.1
              have hne' : l.ph.toNat ≠ (s.div - 1#16).toNat := fun e' => hne (BitVec.eq_of_toNat_eq e')
              rw [BitVec.toNat_sub] at hne'
              have e1 : (l.ph + 1#16).toNat = l.ph.toNat + 1 := by
                rw [BitVec.toNat_add]
                simp
                omega
              rw [e]
              simp only [WriteLane.left, WriteLane.work, e1, hst]
              simp at hne'
              simp
              omega
            · rw [e] at hlt ⊢
              simp
              omega
          · have := WriteLane.left_clock hg.1 hw0
            split <;> omega
        obtain ⟨a, b, p, r, w, h1, h2, h3⟩ := ih _ (by omega) w.tail a' _ _ (Nat.le_refl _) (nextPhase_lt hp) hg.clock
          hwt.clock
        exact ⟨a, b, p, r, w, h1, h2, hc.trans h3⟩

/-- The clearing of the flag after the last push, and the completion wait (R75 steps 2 and 3). -/
theorem writeState_clear {s : State} {ra : BitVec 4} {ws : List BusWord} {rest : List SeqOp} (hws : ws ≠ [])
    (hl : s.Live) (hi : s.lanesIdle = true) (hacc : s.access = .none) (w : List Bool) :
    ∀ (a : Bool) (p : BitVec 16) (l : WriteLane), p.toNat < s.div.toNat → l.Good s.div ws [] →
      ∃ a' b p' r w', p'.toNat < s.div.toNat ∧ r.toNat < s.div.toNat ∧
        Reaches (writeState (s.withPace w) ra (.clearStalled .wr :: .await .wr :: rest) .sequencer a p l)
          (writeDone (s.withPace w') ra ws rest a' b p' r) := by
  obtain ⟨hird, -⟩ := s.lanesIdle_iff.mp hi
  have granted : ∀ (w : List Bool) (a : Bool) (p : BitVec 16) (l : WriteLane), w.head? ≠ some true →
      p.toNat < s.div.toNat → l.Good s.div ws [] →
      ∃ a' b p' r w', p'.toNat < s.div.toNat ∧ r.toNat < s.div.toNat ∧
        Reaches (writeState (s.withPace w) ra (.clearStalled .wr :: .await .wr :: rest) .sequencer a p l)
          (writeDone (s.withPace w') ra ws rest a' b p' r) := by
    intro w a p l hgr hp hg
    have hline : runLine (.clearStalled .wr) (.await .wr :: rest)
        (writeState (s.withPace w.tail) ra (.await .wr :: rest) .rdLane a p l) =
        .next (writeState (s.withPace w.tail) ra (.await .wr :: rest) .rdLane a p { l with stalled := false }) := rfl
    obtain ⟨a₁, hc⟩ := writeState_cycle hl hird hgr hline
    have hg' : ({ l with stalled := false } : WriteLane).Good s.div ws [] := hg
    have hwt : ({ l with stalled := false } : WriteLane).Waits := .inl rfl
    obtain ⟨a', b, p', r, w', h1, h2, h3⟩ := writeState_await hws hl hi hacc _ w.tail a₁ _ _ (Nat.le_refl _) (nextPhase_lt hp)
      hg'.clock hwt.clock
    exact ⟨a', b, p', r, w', h1, h2, hc.trans h3⟩
  induction w with
  | nil => exact fun a p l => granted [] a p l (by simp)
  | cons x w ih =>
    intro a p l hp hg
    cases x with
    | false => exact granted _ a p l (by simp) hp hg
    | true =>
      obtain ⟨a₁, hc⟩ := writeState_held ra (.clearStalled .wr :: .await .wr :: rest) w a p l hl hird
      obtain ⟨a', b, p', r, w', h1, h2, h3⟩ := ih a₁ _ _ (nextPhase_lt hp) hg.clock
      exact ⟨a', b, p', r, w', h1, h2, hc.trans h3⟩

/-- The hand-off of the words still to be pushed, waiting while the FIFO is full, and the completion wait (R75, R79). -/
theorem writeState_handOff {s : State} {ra : BitVec 4} {ws : List BusWord} {rest : List SeqOp} (hws : ws ≠ [])
    (hl : s.Live) (hi : s.lanesIdle = true) (hacc : s.access = .none) (todo : List BusWord) :
    ∀ (n : Nat) (w : List Bool) (a : Bool) (p : BitVec 16) (l : WriteLane), l.left + 65536 * w.length ≤ n →
      p.toNat < s.div.toNat → l.Good s.div ws todo →
      ∃ a' b p' r w', p'.toNat < s.div.toNat ∧ r.toNat < s.div.toNat ∧
        Reaches (writeState (s.withPace w) ra (todo.map .handWr ++ .clearStalled .wr :: .await .wr :: rest) .sequencer a p l)
          (writeDone (s.withPace w') ra ws rest a' b p' r) := by
  obtain ⟨hird, -⟩ := s.lanesIdle_iff.mp hi
  induction todo with
  | nil => exact fun _ w a p l _ hp hg => writeState_clear hws hl hi hacc w a p l hp hg
  | cons v todo ih =>
    intro n
    induction n using Nat.strong_induction_on with
    | _ n ihn =>
      intro w a p l hn hp hg
      rcases pace_cases w with ⟨w', rfl⟩ | ⟨hgr, hlen⟩
      · have hlt := WriteLane.left_clock_lt hg.1
        obtain ⟨a₁, hc⟩ := writeState_held ra ((v :: todo).map .handWr ++ .clearStalled .wr :: .await .wr :: rest) w' a p l hl
          hird
        rw [List.length_cons] at hn
        obtain ⟨a', b, p', r, w, h1, h2, h3⟩ := ihn _ (by omega) w' a₁ _ _ (Nat.le_refl _) (nextPhase_lt hp) hg.clock
        exact ⟨a', b, p', r, w, h1, h2, hc.trans h3⟩
      by_cases hf : isFull s.params l.q = true
      · -- the FIFO is full: the push waits while the lane works
        have hline : runLine (.handWr v) (todo.map .handWr ++ .clearStalled .wr :: .await .wr :: rest)
            (writeState (s.withPace w.tail) ra (todo.map .handWr ++ .clearStalled .wr :: .await .wr :: rest) .rdLane a p l) =
            .next (writeState (s.withPace w.tail) ra
              (.handWr v :: (todo.map .handWr ++ .clearStalled .wr :: .await .wr :: rest)) .rdLane a p l) := by
          show (if isFull s.params l.q = true then _ else _) = _
          rw [if_pos hf]
          rfl
        obtain ⟨a₁, hc⟩ := writeState_cycle hl hird hgr hline
        have hw : l.work ≠ 0 := by
          have := hl.depth
          simp only [isFull, decide_eq_true_eq] at hf
          simp only [WriteLane.work]
          omega
        have hlt := WriteLane.left_clock hg.1 hw
        obtain ⟨a', b, p', r, w', h1, h2, h3⟩ := ihn _ (by omega) w.tail a₁ _ _ (Nat.le_refl _) (nextPhase_lt hp) hg.clock
        exact ⟨a', b, p', r, w', h1, h2, hc.trans h3⟩
      · have hline : runLine (.handWr v) (todo.map .handWr ++ .clearStalled .wr :: .await .wr :: rest)
            (writeState (s.withPace w.tail) ra (todo.map .handWr ++ .clearStalled .wr :: .await .wr :: rest) .rdLane a p l) =
            .next (writeState (s.withPace w.tail) ra (todo.map .handWr ++ .clearStalled .wr :: .await .wr :: rest) .rdLane a p
              { l with q := l.q ++ [v] }) := by
          show (if isFull s.params l.q = true then _ else _) = _
          rw [if_neg hf]
          rfl
        obtain ⟨a₁, hc⟩ := writeState_cycle hl hird hgr hline
        have hg' : ({ l with q := l.q ++ [v] } : WriteLane).Good s.div ws todo := by
          obtain ⟨g1, g2, g3, g4, g5, g6⟩ := hg
          exact ⟨g1, g2, g3, g4, g5, by simpa using g6⟩
        obtain ⟨a', b, p', r, w', h1, h2, h3⟩ := ih _ w.tail a₁ _ _ (Nat.le_refl _) (nextPhase_lt hp) hg'.clock
        exact ⟨a', b, p', r, w', h1, h2, hc.trans h3⟩

/-- The address decoder runs `SetAddr` for every enumerator (R180). -/
theorem runCode_regAddr {ra : BitVec 4} (s : State) (h : isEnumerator ra = true) :
    runCode (.regAddr ra) s = setAddr ra s := by
  have key : ∀ ra : BitVec 4, isEnumerator ra = true →
      ra = 0x0#4 ∨ ra = 0x1#4 ∨ ra = 0x2#4 ∨ ra = 0x3#4 ∨ ra = 0x4#4 ∨ ra = 0x5#4 ∨ ra = 0x6#4 ∨ ra = 0x7#4 ∨ ra = 0xE#4 := by
    decide
  rcases key ra h with rfl | rfl | rfl | rfl | rfl | rfl | rfl | rfl | rfl <;> rfl

/-- A whole write burst (R77, R79): from an idle bus, the words go out in order, one write pulse each, at the address set
once, and the bus is idle again. -/
theorem memWriteBurst_runs {s : State} {ra : BitVec 4} {ws : List BusWord} {rest : List SeqOp} (hs : s.Between)
    (hra : isEnumerator ra = true) (hws : ws ≠ []) (ho : s.opstate = .busy (memWriteBurst ra ws ++ rest)) :
    ∃ a b p r w, p.toNat < s.div.toNat ∧ r.toNat < s.div.toNat ∧ Reaches s (writeDone (s.withPace w) ra ws rest a b p r) := by
  obtain ⟨hl, -, hi, hacc⟩ := hs
  obtain ⟨hird, hiwr⟩ := s.lanesIdle_iff.mp hi
  obtain ⟨w1, w2, w3, w4⟩ := s.idleWr_iff.mp hiwr
  obtain ⟨v, ws', rfl⟩ := List.exists_cons_of_ne_nil hws
  have hcode : memWriteBurst ra (v :: ws') ++ rest =
      .setAddr ra :: .handWr v :: (ws'.map .handWr ++ .clearStalled .wr :: .await .wr :: rest) := by
    simp [memWriteBurst]
  rw [hcode] at ho
  -- SetAddr
  obtain ⟨a, b, p, r, w, hp, hr, e1⟩ := to_line hl hi ho
  replace e1 := e1 { s with
      turn := .rdLane, opstate := .busy (.handWr v :: (ws'.map .handWr ++ .clearStalled .wr :: .await .wr :: rest))
      stalledRd := a, stalledWr := b, phaseRd := p, phaseWr := r, pace := w
      cs := csOf ra, da := daOf ra, access := .addressed, trace := s.trace ++ [addrEvent ra] } (by
    show runCode (.regAddr ra) _ = _
    rw [runCode_regAddr _ hra, setAddr, if_pos ⟨hacc, hi⟩])
  -- the first push
  obtain ⟨a, b, p, r, w, hp, hr, e2⟩ := to_line (s := { s with
      turn := .rdLane, opstate := .busy (.handWr v :: (ws'.map .handWr ++ .clearStalled .wr :: .await .wr :: rest))
      stalledRd := a, stalledWr := b, phaseRd := p, phaseWr := r, pace := w
      cs := csOf ra, da := daOf ra, access := .addressed, trace := s.trace ++ [addrEvent ra] })
    ⟨hl.enRd, hl.enWr, hp, hr, hl.depth, hl.running⟩ hi rfl
  have hnf : isFull s.params s.inqWr = false := by
    have := hl.depth
    simp only [isFull, w2, List.length_nil]
    exact decide_eq_false (by omega)
  replace e2 := e2 (writeState (s.withPace w) ra (ws'.map .handWr ++ .clearStalled .wr :: .await .wr :: rest) .rdLane a p
      ⟨[v], 0#2, s.osr, s.ddOut, false, false, b, r, []⟩) (by
    show (if isFull s.params s.inqWr = true then _ else _) = _
    rw [if_neg (by simp [hnf])]
    simp only [pushWr, writeState, w1, w2, w3, w4, List.nil_append, List.map_nil])
  obtain ⟨a₁, e3⟩ := writeState_lanes ra (ws'.map .handWr ++ .clearStalled .wr :: .await .wr :: rest) a p
    ⟨[v], 0#2, s.osr, s.ddOut, false, false, b, r, []⟩ (hl.withPace w) hird
  have hg : (⟨[v], 0#2, s.osr, s.ddOut, false, false, b, r, []⟩ : WriteLane).Good s.div (v :: ws') ws' := by
    refine ⟨hr, rfl, by simp, by simp, by simp, by simp⟩
  obtain ⟨a', b', p', r', w', h1, h2, h3⟩ := writeState_handOff (ra := ra) (rest := rest) hws hl hi hacc ws' _ w a₁ _ _
    (Nat.le_refl _) (nextPhase_lt hp) hg.clock
  exact ⟨a', b', p', r', w', h1, h2, e1.trans (e2.trans (e3.trans h3))⟩

end Sys2Proof.Machine
end

