-- ==== Sys2Proof/Laws/ReadAccess.lean ====
section
/-! SUPPORT. What a one-word read and a read burst do from their first line to their last (R76, R78, R150 to R154): the RD
lane's clock as a function on the few fields it owns, and the runs of `memRead` and `memReadBurst` on an idle bus. -/

namespace Sys2Proof.Machine

/-- The five slots of the RD lane (R23). -/
theorem rdSlot_cases (pc : BitVec 3) (h : pc.toNat ≤ 4) : pc = 0#3 ∨ pc = 1#3 ∨ pc = 2#3 ∨ pc = 3#3 ∨ pc = 4#3 := by
  revert pc; decide

/-- Storing one more word after some words. -/
theorem Memory.writeWords_snoc (m : Memory) (i : Nat) (ws : List BusWord) (w : BusWord) :
    m.writeWords i (ws ++ [w]) = (m.writeWords i ws).writeWord (i + ws.length) w := by
  induction ws generalizing m i with
  | nil => rfl
  | cons v ws ih =>
    simp only [List.cons_append, Memory.writeWords, ih, List.length_cons]
    congr 1
    omega

@[simp] theorem State.firstSamples_length (s : State) (n : Nat) : (s.firstSamples n).length = n := by
  simp [State.firstSamples]

theorem State.firstSamples_succ (s : State) (n : Nat) : s.firstSamples (n + 1) = s.firstSamples n ++ [s.sampleAt n] := by
  simp [State.firstSamples, List.range_succ]

/-- The words sampled but not yet taken: from the `i`-th sample, `n` of them. -/
def State.samplesFrom (s : State) (i n : Nat) : List BusWord := (List.range' i n).map s.sampleAt

theorem State.samplesFrom_succ (s : State) (i n : Nat) :
    s.samplesFrom i (n + 1) = s.samplesFrom i n ++ [s.sampleAt (i + n)] := by
  simp [State.samplesFrom, List.range'_concat]

theorem State.samplesFrom_cons (s : State) (i n : Nat) :
    s.samplesFrom i (n + 1) = s.sampleAt i :: s.samplesFrom (i + 1) n := by
  simp [State.samplesFrom, List.range'_succ]

@[simp] theorem State.samplesFrom_length (s : State) (i n : Nat) : (s.samplesFrom i n).length = n := by
  simp [State.samplesFrom]

/-- The fields a read access moves while it runs; `k` counts the samples taken from the environment. -/
structure ReadLane where
  q : List (BitVec 32)
  pc : BitVec 3
  x : BitVec 32
  rxq : List BusWord
  stb : Bool
  stalled : Bool
  ph : BitVec 16
  k : Nat

/-- One RD lane tick (R150 to R154) of a state whose environment will answer as that of `s`. -/
def ReadLane.tick (s : State) (l : ReadLane) : ReadLane :=
  match l.pc.toNat with
  | 0 =>
    match l.q with
    | [] => { l with stalled := true, pc := 0#3 }
    | w :: q => { l with x := w, q := q, pc := 1#3 }
  | 1 => { l with stb := true, pc := 2#3 }
  | 2 => { l with pc := 3#3 }
  | 3 => if isFull s.params l.rxq then { l with pc := 3#3 }
    else { l with rxq := l.rxq ++ [s.sampleAt l.k], k := l.k + 1, pc := 4#3 }
  | _ => if l.x = 0#32 then { l with stb := false, pc := 0#3 } else { l with stb := false, x := l.x - 1#32, pc := 1#3 }

/-- One clock cycle of the enabled RD lane (R30). -/
def ReadLane.clock (s : State) (l : ReadLane) : ReadLane :=
  if l.ph = s.div - 1#16 then { l.tick s with ph := 0#16 } else { l with ph := l.ph + 1#16 }

/-- The state during a read access to `ra` that began in `s`: the sequencer at `c`, `got` words emitted, the RD lane at `l`,
the idle WR lane's completion flag and phase at `b` and `r`. -/
def readState (s : State) (ra : BitVec 4) (c : List SeqOp) (got : Nat) (t : Turn) (b : Bool) (r : BitVec 16)
    (l : ReadLane) : State :=
  { s with
    opstate := .busy c, turn := t, cs := csOf ra, da := daOf ra, access := .reading
    inqRd := l.q, pcRd := l.pc, x := l.x, rxq := l.rxq, rdStb := l.stb, stalledRd := l.stalled, phaseRd := l.ph
    stalledWr := b, phaseWr := r
    samples := s.samples.drop l.k, drawn := s.drawn + l.k
    emitted := s.emitted + got, buf := s.buf.writeWords s.emitted (s.firstSamples got)
    trace := s.trace ++ addrEvent ra :: (s.firstSamples l.k).map (rdEvent ra) }

/-- The value on the data lines after `k` samples. -/
theorem readState_nextSample (s : State) (ra : BitVec 4) (c : List SeqOp) (got : Nat) (t : Turn) (b : Bool)
    (r : BitVec 16) (l : ReadLane) : (readState s ra c got t b r l).nextSample = s.sampleAt l.k := by
  simp only [State.nextSample, readState, State.sampleAt]
  rcases h : s.samples.drop l.k with _ | ⟨v, more⟩
  · have : s.samples[l.k]? = none := by
      rw [List.drop_eq_nil_iff] at h
      exact List.getElem?_eq_none h
    simp [this]
  · have : s.samples[l.k]? = some v := by
      have := congrArg (·[0]?) h
      simpa using this
    simp [this]

theorem readState_rdLane {s : State} (ra : BitVec 4) (c : List SeqOp) (got : Nat) (b : Bool) (r : BitVec 16)
    (l : ReadLane) (hpc : l.pc.toNat ≤ 4) (he : s.enRd = true) (hr : s.por = false) :
    step (readState s ra c got .rdLane b r l) = .next (readState s ra c got .wrLane b r (l.clock s)) := by
  rw [step_rdLane (s := readState s ra c got .rdLane b r l) (code := c) hr rfl (.inl rfl)]
  show rdLaneTurn (readState s ra c got .wrLane b r l) = _
  obtain ⟨q, pc, x, rxq, stb, stalled, ph, k⟩ := l
  by_cases h : ph = s.div - 1#16
  · rw [rdLaneTurn_tick (s := readState s ra c got .wrLane b r ⟨q, pc, x, rxq, stb, stalled, ph, k⟩) he h]
    rcases rdSlot_cases pc hpc with rfl | rfl | rfl | rfl | rfl
    · cases q <;> simp [runCode, decode, decodeRdSlot, exec, execRdGetcnt, readState, ReadLane.clock, ReadLane.tick, h]
    · simp [runCode, decode, decodeRdSlot, exec, execRdRstbLo, readState, ReadLane.clock, ReadLane.tick, h]
    · simp [runCode, decode, decodeRdSlot, exec, execRdRhold, readState, ReadLane.clock, ReadLane.tick, h]
    · show execRdSample _ = _
      have hv := readState_nextSample s ra c got .wrLane b 0#16 ⟨q, 3#3, x, rxq, stb, stalled, 0#16, k⟩
      have hv' := readState_nextSample s ra c got .wrLane b r ⟨q, 3#3, x, rxq, stb, stalled, 0#16, k⟩
      change (readState s ra c got .wrLane b r ⟨q, 3#3, x, rxq, stb, stalled, 0#16, k⟩).nextSample = s.sampleAt k at hv'
      show execRdSample (readState s ra c got .wrLane b r ⟨q, 3#3, x, rxq, stb, stalled, 0#16, k⟩) = _
      by_cases hf : isFull s.params rxq = true
      · simp [execRdSample, readState, ReadLane.clock, ReadLane.tick, h, hf]
      · unfold execRdSample
        rw [if_neg (by simpa [readState] using hf), hv']
        simp [readState, ReadLane.clock, ReadLane.tick, h, hf, rdEvent, State.firstSamples_succ, Nat.add_assoc]
    · show execRdRstbHiLoop (readState s ra c got .wrLane b r ⟨q, 4#3, x, rxq, stb, stalled, 0#16, k⟩) = _
      by_cases hx : x = 0#32
      · simp [execRdRstbHiLoop, readState, ReadLane.clock, ReadLane.tick, h, hx]
      · simp [execRdRstbHiLoop, readState, ReadLane.clock, ReadLane.tick, h, hx]
  · rw [rdLaneTurn_wait (s := readState s ra c got .wrLane b r ⟨q, pc, x, rxq, stb, stalled, ph, k⟩) he h]
    simp [readState, ReadLane.clock, h]

/-- The lanes' part of a clock cycle. -/
theorem readState_lanes {s : State} (ra : BitVec 4) (c : List SeqOp) (got : Nat) (b : Bool) (r : BitVec 16) (l : ReadLane)
    (hpc : l.pc.toNat ≤ 4) (hl : s.Live) (hi : s.idleWr = true) :
    ∃ b', Reaches (readState s ra c got .rdLane b r l) (readState s ra c got .sequencer b' (nextPhase s.div r) (l.clock s)) := by
  obtain ⟨w1, w2, -, w4⟩ := s.idleWr_iff.mp hi
  refine ⟨b || (s.enWr && r == s.div - 1#16), Reaches.head (readState_rdLane ra c got b r l hpc hl.enRd hl.running)
    (Reaches.of_step ?_)⟩
  exact (step_wrLane (s := readState s ra c got .wrLane b r (l.clock s)) (code := c) hl.running rfl (.inl rfl)).trans
    (wrLaneTurn_idle (s := readState s ra c got .sequencer b r (l.clock s)) hl.enWr w1 w2 w4)

/-- A clock cycle in which the sequencer's line `op` leads to the position `c'`, `got'` words emitted and the RD lane fields
`l'`. -/
theorem readState_cycle {s : State} {ra : BitVec 4} {op : SeqOp} {rest c' : List SeqOp} {got got' : Nat} {w : List Bool}
    {b : Bool} {r : BitVec 16} {l l' : ReadLane} (hpc : l'.pc.toNat ≤ 4) (hl : s.Live) (hi : s.idleWr = true)
    (hw : w.head? ≠ some true)
    (h : runLine op rest (readState (s.withPace w.tail) ra rest got .rdLane b r l) =
      .next (readState (s.withPace w.tail) ra c' got' .rdLane b r l')) :
    ∃ b', Reaches (readState (s.withPace w) ra (op :: rest) got .sequencer b r l)
      (readState (s.withPace w.tail) ra c' got' .sequencer b' (nextPhase s.div r) (l'.clock s)) := by
  obtain ⟨b', hr⟩ := readState_lanes ra c' got' b r l' hpc (hl.withPace w.tail) hi
  exact ⟨b', Reaches.head
    ((step_line (s := readState (s.withPace w) ra (op :: rest) got .sequencer b r l) hl.running hw rfl rfl).trans h) hr⟩

/-- A clock cycle in which the sequencer's turn is withheld. -/
theorem readState_held {s : State} (ra : BitVec 4) (c : List SeqOp) (got : Nat) (w : List Bool) (b : Bool) (r : BitVec 16)
    (l : ReadLane) (hpc : l.pc.toNat ≤ 4) (hl : s.Live) (hi : s.idleWr = true) :
    ∃ b', Reaches (readState (s.withPace (true :: w)) ra c got .sequencer b r l)
      (readState (s.withPace w) ra c got .sequencer b' (nextPhase s.div r) (l.clock s)) := by
  obtain ⟨b', hr⟩ := readState_lanes ra c got b r l hpc (hl.withPace w) hi
  exact ⟨b', Reaches.head
    (step_withheld (s := readState (s.withPace (true :: w)) ra c got .sequencer b r l) (code := c) hl.running rfl rfl rfl)
    hr⟩

/-- The RD lane fields agree with a read of `n` words of which `got` are taken. -/
structure ReadLane.Good (s : State) (n got : Nat) (l : ReadLane) : Prop where
  slot : l.pc.toNat ≤ 4
  phase : l.ph.toNat < s.div.toNat
  strobe : l.stb = decide (2 ≤ l.pc.toNat)
  taken : got ≤ l.k
  words : l.rxq = s.samplesFrom got (l.k - got)
  flag : l.stalled = true → l.pc = 0#3 ∧ l.q = []
  count : match l.q with
    | [] => l.k + (if l.pc = 0#3 then 0 else if l.pc = 4#3 then l.x.toNat else l.x.toNat + 1) = n ∧ (l.pc = 0#3 → l.x = 0#32)
    | h :: more => more = [] ∧ l.pc = 0#3 ∧ l.k = 0 ∧ h.toNat + 1 = n

theorem ReadLane.Good.clock {s : State} {n got : Nat} {l : ReadLane} (h : l.Good s n got) : (l.clock s).Good s n got := by
  obtain ⟨q, pc, x, rxq, stb, stalled, ph, k⟩ := l
  obtain ⟨h1, h2, h3, h4, h5, h6, h7⟩ := h
  have hph := nextPhase_lt h2
  unfold nextPhase at hph
  simp only at h1 h2 h3 h4 h5 h6 h7 hph
  unfold ReadLane.clock
  simp only
  split
  · rename_i e
    rw [if_pos e] at hph
    rcases rdSlot_cases pc h1 with rfl | rfl | rfl | rfl | rfl
    · cases q with
      | nil => exact ⟨by simp [tick], hph, by simpa [tick] using h3, h4, h5, fun _ => ⟨rfl, rfl⟩, by simpa [tick] using h7⟩
      | cons w q =>
        obtain ⟨rfl, -, rfl, hn⟩ := h7
        refine ⟨by simp [tick], hph, by simpa [tick] using h3, h4, h5, ?_, ?_⟩
        · intro hs; simpa using h6 hs
        · simp [tick]; omega
    · have hs : stalled = false := by
        cases stalled
        · rfl
        · simpa using h6 rfl
      cases q with
      | nil => exact ⟨by simp [tick], hph, by simp [tick], h4, h5, by simp [tick, hs], by simpa [tick] using h7⟩
      | cons w q => simp at h7
    · have hs : stalled = false := by
        cases stalled
        · rfl
        · simpa using h6 rfl
      cases q with
      | nil => exact ⟨by simp [tick], hph, by simpa [tick] using h3, h4, h5, by simp [tick, hs], by simpa [tick] using h7⟩
      | cons w q => simp at h7
    · have hs : stalled = false := by
        cases stalled
        · rfl
        · simpa using h6 rfl
      cases q with
      | cons w q => simp at h7
      | nil =>
        by_cases hf : isFull s.params rxq = true
        · refine ⟨by simp [tick, hf], hph, by simpa [tick, hf] using h3, by simpa [tick, hf] using h4,
            by simpa [tick, hf] using h5, by simp [tick, hf, hs], by simpa [tick, hf] using h7⟩
        · have hk : k + 1 - got = (k - got) + 1 := by omega
          have hg : got + (k - got) = k := by omega
          refine ⟨by simp [tick, hf], hph, by simpa [tick, hf] using h3, by simp [tick, hf]; omega, ?_,
            by simp [tick, hf, hs], ?_⟩
          · simpa [tick, hf, hk, State.samplesFrom_succ, hg] using h5
          · simp at h7; simp [tick, hf]; omega
    · have hs : stalled = false := by
        cases stalled
        · rfl
        · simpa using h6 rfl
      cases q with
      | cons w q => simp at h7
      | nil =>
        by_cases hx : x = 0#32
        · subst hx
          refine ⟨by simp [tick], hph, by simp [tick], by simpa [tick] using h4, by simpa [tick] using h5, by simp [tick],
            ?_⟩
          simp at h7; simp [tick]; omega
        · refine ⟨by simp [tick, hx], hph, by simp [tick, hx], by simpa [tick, hx] using h4, by simpa [tick, hx] using h5,
            by simp [tick, hx, hs], ?_⟩
          have hx1 : (x - 1#32).toNat + 1 = x.toNat := by
            have hne : x.toNat ≠ 0 := fun e => hx (BitVec.eq_of_toNat_eq (by simpa using e))
            have := x.isLt
            rw [BitVec.toNat_sub]
            simp
            omega
          simp at h7; simp [tick, hx]; omega
  · rename_i e
    rw [if_neg e] at hph
    exact ⟨h1, hph, h3, h4, h5, h6, h7⟩

/-- How many ticks the lane still takes until it stalls, the stall itself among them. -/
def ReadLane.work (l : ReadLane) : Nat :=
  (match l.q with
    | [] => 0
    | h :: _ => 1 + 4 * (h.toNat + 1)) +
  (if l.pc = 0#3 then 0 else 4 * l.x.toNat + 5 - l.pc.toNat) + (if l.stalled then 0 else 1)

/-- The same in clock cycles. -/
def ReadLane.left (l : ReadLane) : Nat := l.work * 65536 + (65535 - l.ph.toNat)

/-- A tick takes one off the work, but for a full `RXQ` or a stalled lane, where it leaves it. -/
theorem ReadLane.work_tick {s : State} {n got : Nat} {l : ReadLane} (h : l.Good s n got) :
    (l.tick s).work ≤ l.work ∧
      (isFull s.params l.rxq = false → l.stalled = false → (l.tick s).work + 1 ≤ l.work) := by
  obtain ⟨q, pc, x, rxq, stb, stalled, ph, k⟩ := l
  obtain ⟨h1, h2, h3, h4, h5, h6, h7⟩ := h
  simp only at h1 h2 h3 h4 h5 h6 h7
  rcases rdSlot_cases pc h1 with rfl | rfl | rfl | rfl | rfl
  · cases q with
    | nil => cases stalled <;> simp [tick, work]
    | cons w q =>
      obtain ⟨rfl, -, rfl, hn⟩ := h7
      cases stalled <;> simp [tick, work] <;> omega
  · cases q with
    | nil => cases stalled <;> simp [tick, work]
    | cons w q => simp at h7
  · cases q with
    | nil => cases stalled <;> simp [tick, work]
    | cons w q => simp at h7
  · cases q with
    | cons w q => simp at h7
    | nil =>
      by_cases hf : isFull s.params rxq = true
      · simp [tick, hf]
      · cases stalled <;> simp [tick, hf, work]
  · cases q with
    | cons w q => simp at h7
    | nil =>
      by_cases hx : x = 0#32
      · subst hx; cases stalled <;> simp [tick, work]
      · have hx1 : (x - 1#32).toNat + 1 = x.toNat := by
          have hne : x.toNat ≠ 0 := fun e => hx (BitVec.eq_of_toNat_eq (by simpa using e))
          have := x.isLt
          rw [BitVec.toNat_sub]
          simp
          omega
        simp only [tick, work]
        cases stalled <;> simp [hx] <;> omega

/-- A clock cycle leaves no more work than there was, and if the lane can tick and has not stalled, less time. -/
theorem ReadLane.Good.left_clock {s : State} {n got : Nat} {l : ReadLane} (h : l.Good s n got) :
    (l.clock s).left < l.left + 65536 ∧ (isFull s.params l.rxq = false → l.stalled = false → (l.clock s).left < l.left) := by
  obtain ⟨hw, hw'⟩ := ReadLane.work_tick h
  have hp := h.phase
  have hd := s.div.isLt
  unfold ReadLane.clock
  split
  · have : (ReadLane.left { l.tick s with ph := 0#16 }) = (l.tick s).work * 65536 + 65535 := by
      simp [ReadLane.left, ReadLane.work]
    rw [this]
    simp only [ReadLane.left]
    refine ⟨by omega, fun hf hs => ?_⟩
    have := hw' hf hs
    omega
  · rename_i e
    have hne : l.ph.toNat ≠ (s.div - 1#16).toNat := fun e' => e (BitVec.eq_of_toNat_eq e')
    rw [BitVec.toNat_sub] at hne
    simp at hne
    have e1 : (l.ph + 1#16).toNat = l.ph.toNat + 1 := by
      rw [BitVec.toNat_add]
      simp
      omega
    have : (ReadLane.left { l with ph := l.ph + 1#16 }) = l.work * 65536 + (65535 - (l.ph.toNat + 1)) := by
      simp [ReadLane.left, ReadLane.work, e1]
    rw [this]
    simp only [ReadLane.left]
    omega

/-- What a finished read access of `n` samples leaves, `got` of them emitted and `v` in the sequencer's sample, but for the
idle lanes' completion flags and phases. -/
def readDone (s : State) (ra : BitVec 4) (n got : Nat) (v : BusWord) (rest : List SeqOp) (a b : Bool) (p r : BitVec 16) :
    State :=
  { s with
    opstate := .busy rest, turn := .sequencer, cs := csOf ra, da := daOf ra, x := 0#32, smp := v
    samples := s.samples.drop n, drawn := s.drawn + n
    emitted := s.emitted + got, buf := s.buf.writeWords s.emitted (s.firstSamples got)
    trace := s.trace ++ addrEvent ra :: (s.firstSamples n).map (rdEvent ra)
    stalledRd := a, stalledWr := b, phaseRd := p, phaseWr := r }

/-- The lanes' turns of the cycle in which the access ends. -/
theorem readDone_lanes {s : State} (ra : BitVec 4) (n got : Nat) (v : BusWord) (rest : List SeqOp) (a b : Bool)
    {p r : BitVec 16} (hs : s.Live) (hi : s.lanesIdle = true) (hp : p.toNat < s.div.toNat) (hr : r.toNat < s.div.toNat) :
    ∃ a' b' p' r', p'.toNat < s.div.toNat ∧ r'.toNat < s.div.toNat ∧
      Reaches { readDone s ra n got v rest a b p r with turn := .rdLane } (readDone s ra n got v rest a' b' p' r') := by
  obtain ⟨hird, hiwr⟩ := s.lanesIdle_iff.mp hi
  obtain ⟨r1, r2, r3, r4⟩ := s.idleRd_iff.mp hird
  obtain ⟨w1, w2, w3, w4⟩ := s.idleWr_iff.mp hiwr
  refine ⟨a || (s.enRd && p == s.div - 1#16), b || (s.enWr && r == s.div - 1#16), nextPhase s.div p, nextPhase s.div r,
    nextPhase_lt hp, nextPhase_lt hr, Reaches.head
      (t := { readDone s ra n got v rest (a || (s.enRd && p == s.div - 1#16)) b (nextPhase s.div p) r with turn := .wrLane })
      ?_ (Reaches.of_step ?_)⟩
  · exact (step_rdLane (s := { readDone s ra n got v rest a b p r with turn := .rdLane }) (code := rest) hs.running rfl
      (.inl rfl)).trans (rdLaneTurn_idle (s := { readDone s ra n got v rest a b p r with turn := .wrLane }) hs.enRd r1 r2)
  · exact (step_wrLane (code := rest) (s := { readDone s ra n got v rest (a || (s.enRd && p == s.div - 1#16)) b
      (nextPhase s.div p) r with turn := .wrLane }) hs.running rfl (.inl rfl)).trans
      (wrLaneTurn_idle (s := readDone s ra n got v rest (a || (s.enRd && p == s.div - 1#16)) b (nextPhase s.div p) r)
        hs.enWr w1 w2 w4)

/-- A read in which the lane has stalled with nothing left to take. -/
theorem ReadLane.Good.ended {s : State} {n got : Nat} {l : ReadLane} (h : l.Good s n got) (hs : l.stalled = true) :
    l.q = [] ∧ l.pc = 0#3 ∧ l.stb = false ∧ l.k = n ∧ l.x = 0#32 := by
  obtain ⟨hpc, hq⟩ := h.flag hs
  have h3 := h.strobe
  have h7 := h.count
  rw [hq] at h7
  simp [hpc] at h7 h3
  exact ⟨hq, hpc, h3, h7.1, h7.2⟩

/-- The retrieval loop of a burst (R78): it takes every word in order and ends when the lane has stalled with nothing left. -/
theorem readState_drain {s : State} {ra : BitVec 4} {n : Nat} {rest : List SeqOp} (hl : s.Live) (hi : s.lanesIdle = true)
    (hacc : s.access = .none) :
    ∀ (m got : Nat) (w : List Bool) (b : Bool) (r : BitVec 16) (l : ReadLane),
      (n - got) * 65536 + l.left + 65536 * w.length ≤ m → r.toNat < s.div.toNat → l.Good s n got →
      ∃ a b' p r' w', p.toNat < s.div.toNat ∧ r'.toNat < s.div.toNat ∧
        Reaches (readState (s.withPace w) ra (.drain :: rest) got .sequencer b r l)
          (readDone (s.withPace w') ra n n s.smp rest a b' p r') := by
  obtain ⟨hird, hiwr⟩ := s.lanesIdle_iff.mp hi
  obtain ⟨r1, r2, r3, r4⟩ := s.idleRd_iff.mp hird
  obtain ⟨w1, w2, w3, w4⟩ := s.idleWr_iff.mp hiwr
  intro m
  induction m using Nat.strong_induction_on with
  | _ m ih =>
    intro got w b r l hm hr hg
    have hkn : l.k ≤ n := by
      have := hg.count
      split at this
      · omega
      · omega
    rcases pace_cases w with ⟨w', rfl⟩ | ⟨hgr, hlen⟩
    · -- the turn is withheld while the lane works, or waits for room in `RXQ`
      obtain ⟨b', hc⟩ := readState_held ra (.drain :: rest) got w' b r l hg.slot hl hiwr
      have hlt := hg.left_clock.1
      rw [List.length_cons] at hm
      obtain ⟨a', b'', p', r', w, h1, h2, h3⟩ := ih _ (by omega) got w' b' _ _ (Nat.le_refl _) (nextPhase_lt hr) hg.clock
      exact ⟨a', b'', p', r', w, h1, h2, hc.trans h3⟩
    rcases hq : l.rxq with _ | ⟨v, more⟩
    · by_cases hst : l.stalled = true
      · -- nothing left and the lane has stalled: the access ends
        obtain ⟨e1, e2, e3, e4, e5⟩ := hg.ended hst
        have hgot : got = n := by
          have := congrArg List.length hg.words
          rw [hq, State.samplesFrom_length] at this
          have := hg.taken
          simp at *
          omega
        subst hgot
        have hidle : (readState (s.withPace w.tail) ra rest got .rdLane b r l).lanesIdle = true := by
          rw [State.lanesIdle_iff, State.idleRd_iff, State.idleWr_iff]
          exact ⟨⟨e2, e1, hq, e3⟩, w1, w2, w3, w4⟩
        have hend : endAccess (readState (s.withPace w.tail) ra rest got .rdLane b r l) =
            .next { readDone (s.withPace w.tail) ra got got s.smp rest true b l.ph r with turn := .rdLane } := by
          rw [endAccess, if_pos hidle]
          simp only [readDone, readState, e1, e2, e3, e4, e5, hq, hst]
          rw [hacc, r1, r2, r3, r4]
        have hline : runLine .drain rest (readState (s.withPace w.tail) ra rest got .rdLane b r l) =
            endAccess (readState (s.withPace w.tail) ra rest got .rdLane b r l) := by
          show (match l.rxq with
            | v :: more => _
            | [] => if l.stalled = true then endAccess (readState (s.withPace w.tail) ra rest got .rdLane b r l) else _) = _
          rw [hq]
          simp [hst]
        obtain ⟨a', b', p', r', h1, h2, h3⟩ := readDone_lanes (s := s.withPace w.tail) ra got got s.smp rest true b (hl.withPace w.tail) hi hg.phase hr
        exact ⟨a', b', p', r', w.tail, h1, h2, Reaches.head ((step_line (s := readState (s.withPace w) ra (.drain :: rest) got .sequencer b r l)
          hl.running hgr rfl rfl).trans (hline.trans hend)) h3⟩
      · -- the lane still works: a clock cycle passes
        have hline : runLine .drain rest (readState (s.withPace w.tail) ra rest got .rdLane b r l) =
            .next (readState (s.withPace w.tail) ra (.drain :: rest) got .rdLane b r l) := by
          show (match l.rxq with
            | v :: more => _
            | [] => if l.stalled = true then _ else
                Host.Outcome.next ((readState (s.withPace w.tail) ra rest got .rdLane b r l).stayAt .drain rest)) = _
          rw [hq]
          simp [hst]
          rfl
        obtain ⟨b', hc⟩ := readState_cycle hg.slot hl hiwr hgr hline
        have hf : isFull s.params l.rxq = false := by
          have := hl.depth
          rw [hq]
          exact decide_eq_false (by simp; omega)
        have hlt := hg.left_clock.2 hf (by simpa using hst)
        obtain ⟨a', b'', p', r', w', h1, h2, h3⟩ := ih _ (by omega) got w.tail b' _ _ (Nat.le_refl _) (nextPhase_lt hr) hg.clock
        exact ⟨a', b'', p', r', w', h1, h2, hc.trans h3⟩
    · -- a word is taken and emitted
      have hw := hg.words
      obtain ⟨j, hj⟩ : ∃ j, l.k - got = j + 1 := by
        have := congrArg List.length hw
        rw [hq, State.samplesFrom_length] at this
        exact ⟨more.length, by simpa using this.symm⟩
      rw [hq, hj, State.samplesFrom_cons] at hw
      obtain ⟨rfl, rfl⟩ := List.cons.inj hw
      have hline : runLine .drain rest (readState (s.withPace w.tail) ra rest got .rdLane b r l) =
          .next (readState (s.withPace w.tail) ra (.drain :: rest) (got + 1) .rdLane b r { l with rxq := s.samplesFrom (got + 1) j }) := by
        have : runLine .drain rest (readState (s.withPace w.tail) ra rest got .rdLane b r l) =
            .next ((emitWord (s.sampleAt got) (s.samplesFrom (got + 1) j)
              (readState (s.withPace w.tail) ra rest got .rdLane b r l)).stayAt .drain rest) := by
          show (match l.rxq with
            | v :: more => Host.Outcome.next ((emitWord v more (readState (s.withPace w.tail) ra rest got .rdLane b r l)).stayAt .drain rest)
            | [] => _) = _
          rw [hq]
        rw [this]
        simp only [emitWord, State.stayAt, readState, State.firstSamples_succ, Memory.writeWords_snoc,
          State.firstSamples_length, Nat.add_assoc]
        rfl
      have hg' : ({ l with rxq := s.samplesFrom (got + 1) j } : ReadLane).Good s n (got + 1) :=
        ⟨hg.slot, hg.phase, hg.strobe, by show got + 1 ≤ l.k; omega,
          by show s.samplesFrom (got + 1) j = s.samplesFrom (got + 1) (l.k - (got + 1)); congr 1; omega, hg.flag, hg.count⟩
      obtain ⟨b', hc⟩ := readState_cycle (l' := { l with rxq := s.samplesFrom (got + 1) j }) hg.slot hl hiwr hgr hline
      have hlt := hg'.left_clock.1
      have hleft : ({ l with rxq := s.samplesFrom (got + 1) j } : ReadLane).left = l.left := rfl
      obtain ⟨a', b'', p', r', w', h1, h2, h3⟩ := ih _ (by omega) (got + 1) w.tail b' _ _ (Nat.le_refl _) (nextPhase_lt hr) hg'.clock
      exact ⟨a', b'', p', r', w', h1, h2, hc.trans h3⟩

/-- A stalled lane stays stalled. -/
theorem ReadLane.Good.stalled_clock {s : State} {n got : Nat} {l : ReadLane} (h : l.Good s n got) (hs : l.stalled = true) :
    (l.clock s).stalled = true := by
  obtain ⟨e1, e2, -, -, -⟩ := h.ended hs
  unfold ReadLane.clock
  split
  · simp [ReadLane.tick, e1, e2]
  · exact hs

/-- The taking of the word of a one-word read (R76), once the lane has stalled. -/
theorem readState_taken {s : State} {ra : BitVec 4} {rest : List SeqOp} (hl : s.Live) (hi : s.lanesIdle = true)
    (hacc : s.access = .none) (w : List Bool) :
    ∀ (b : Bool) (r : BitVec 16) (l : ReadLane), r.toNat < s.div.toNat → l.Good s 1 0 → l.stalled = true →
      ∃ a b' p r' w', p.toNat < s.div.toNat ∧ r'.toNat < s.div.toNat ∧
        Reaches (readState (s.withPace w) ra (.take :: rest) 0 .sequencer b r l)
          (readDone (s.withPace w') ra 1 0 (s.sampleAt 0) rest a b' p r') := by
  obtain ⟨hird, hiwr⟩ := s.lanesIdle_iff.mp hi
  obtain ⟨r1, r2, r3, r4⟩ := s.idleRd_iff.mp hird
  obtain ⟨w1, w2, w3, w4⟩ := s.idleWr_iff.mp hiwr
  have granted : ∀ (w : List Bool) (b : Bool) (r : BitVec 16) (l : ReadLane), w.head? ≠ some true →
      r.toNat < s.div.toNat → l.Good s 1 0 → l.stalled = true →
      ∃ a b' p r' w', p.toNat < s.div.toNat ∧ r'.toNat < s.div.toNat ∧
        Reaches (readState (s.withPace w) ra (.take :: rest) 0 .sequencer b r l)
          (readDone (s.withPace w') ra 1 0 (s.sampleAt 0) rest a b' p r') := by
    intro w b r l hgr hr hg hst
    obtain ⟨f1, f2, f3, f4, f5⟩ := hg.ended hst
    have hq : l.rxq = [s.sampleAt 0] := by
      rw [hg.words, f4]
      simp [State.samplesFrom]
    have hidle : ({ readState (s.withPace w.tail) ra rest 0 .rdLane b r l with
        rxq := [], smp := s.sampleAt 0 } : State).lanesIdle = true := by
      rw [State.lanesIdle_iff, State.idleRd_iff, State.idleWr_iff]
      exact ⟨⟨f2, f1, rfl, f3⟩, w1, w2, w3, w4⟩
    have hend : takeSample (s.sampleAt 0) [] (readState (s.withPace w.tail) ra rest 0 .rdLane b r l) =
        .next { readDone (s.withPace w.tail) ra 1 0 (s.sampleAt 0) rest true b l.ph r with turn := .rdLane } := by
      show endAccess _ = _
      rw [endAccess, if_pos hidle]
      simp only [readDone, readState, f1, f2, f3, f4, f5, hst]
      rw [hacc, r1, r2, r3, r4]
    have hline : runLine .take rest (readState (s.withPace w.tail) ra rest 0 .rdLane b r l) =
        takeSample (s.sampleAt 0) [] (readState (s.withPace w.tail) ra rest 0 .rdLane b r l) := by
      show (match l.rxq with
        | v :: more => takeSample v more (readState (s.withPace w.tail) ra rest 0 .rdLane b r l)
        | [] => _) = _
      rw [hq]
    obtain ⟨a', b', p', r', h1, h2, h3⟩ := readDone_lanes (s := s.withPace w.tail) ra 1 0 (s.sampleAt 0) rest true b
      (hl.withPace w.tail) hi hg.phase hr
    exact ⟨a', b', p', r', w.tail, h1, h2, Reaches.head
      ((step_line (s := readState (s.withPace w) ra (.take :: rest) 0 .sequencer b r l) hl.running hgr rfl rfl).trans
        (hline.trans hend)) h3⟩
  induction w with
  | nil => exact fun b r l => granted [] b r l (by simp)
  | cons x w ih =>
    intro b r l hr hg hst
    cases x with
    | false => exact granted _ b r l (by simp) hr hg hst
    | true =>
      obtain ⟨b', hc⟩ := readState_held ra (.take :: rest) 0 w b r l hg.slot hl hiwr
      obtain ⟨a', b'', p', r', w', h1, h2, h3⟩ := ih b' _ _ (nextPhase_lt hr) hg.clock (hg.stalled_clock hst)
      exact ⟨a', b'', p', r', w', h1, h2, hc.trans h3⟩

/-- The completion wait of a one-word read and the taking of the word (R75, R76). -/
theorem readState_take {s : State} {ra : BitVec 4} {rest : List SeqOp} (hl : s.Live) (hi : s.lanesIdle = true)
    (hacc : s.access = .none) :
    ∀ (m : Nat) (w : List Bool) (b : Bool) (r : BitVec 16) (l : ReadLane), l.left + 65536 * w.length ≤ m →
      r.toNat < s.div.toNat → l.Good s 1 0 →
      ∃ a b' p r' w', p.toNat < s.div.toNat ∧ r'.toNat < s.div.toNat ∧
        Reaches (readState (s.withPace w) ra (.await .rd :: .take :: rest) 0 .sequencer b r l)
          (readDone (s.withPace w') ra 1 0 (s.sampleAt 0) rest a b' p r') := by
  obtain ⟨hird, hiwr⟩ := s.lanesIdle_iff.mp hi
  intro m
  induction m using Nat.strong_induction_on with
  | _ m ih =>
    intro w b r l hm hr hg
    rcases pace_cases w with ⟨w', rfl⟩ | ⟨hgr, hlen⟩
    · obtain ⟨b', hc⟩ := readState_held ra (.await .rd :: .take :: rest) 0 w' b r l hg.slot hl hiwr
      have hlt := hg.left_clock.1
      rw [List.length_cons] at hm
      obtain ⟨a', b'', p', r', w, h1, h2, h3⟩ := ih _ (by omega) w' b' _ _ (Nat.le_refl _) (nextPhase_lt hr) hg.clock
      exact ⟨a', b'', p', r', w, h1, h2, hc.trans h3⟩
    by_cases hst : l.stalled = true
    · -- the wait ends; the next line takes the word
      have hline : runLine (.await .rd) (.take :: rest) (readState (s.withPace w.tail) ra (.take :: rest) 0 .rdLane b r l) =
          .next (readState (s.withPace w.tail) ra (.take :: rest) 0 .rdLane b r l) := by
        show (if l.stalled = true then _ else _) = _
        rw [if_pos hst]
      obtain ⟨b', hc⟩ := readState_cycle hg.slot hl hiwr hgr hline
      obtain ⟨a', b'', p', r', w', h1, h2, h3⟩ := readState_taken (ra := ra) (rest := rest) hl hi hacc w.tail b' _ _
        (nextPhase_lt hr) hg.clock (hg.stalled_clock hst)
      exact ⟨a', b'', p', r', w', h1, h2, hc.trans h3⟩
    · have hst : l.stalled = false := by simpa using hst
      have hline : runLine (.await .rd) (.take :: rest) (readState (s.withPace w.tail) ra (.take :: rest) 0 .rdLane b r l) =
          .next (readState (s.withPace w.tail) ra (.await .rd :: .take :: rest) 0 .rdLane b r l) := by
        show (if l.stalled = true then _ else _) = _
        rw [if_neg (by simp [hst])]
        rfl
      obtain ⟨b', hc⟩ := readState_cycle hg.slot hl hiwr hgr hline
      by_cases hf : isFull s.params l.rxq = true
      · -- the word is in the FIFO: the lane is past its sample and finishes
        have hf1 : l.k = 1 := by
          have := hl.depth
          have hlen := congrArg List.length hg.words
          rw [State.samplesFrom_length] at hlen
          have hc := hg.count
          simp only [isFull, decide_eq_true_eq] at hf
          split at hc <;> omega
        have hlt : (l.clock s).left < l.left := by
          have hcnt := hg.count
          have hslot := hg.slot
          have hph := hg.phase
          have hd := s.div.isLt
          obtain ⟨q, pc, x, rxq, stb, stalled, ph, k⟩ := l
          have hst' : stalled = false := hst
          simp only at hf1 hcnt hslot hph
          subst hf1 hst'
          cases q with
          | cons w q => simp at hcnt
          | nil =>
            have hw : (ReadLane.tick s ⟨[], pc, x, rxq, stb, false, ph, 1⟩).work + 1 ≤
                ReadLane.work ⟨[], pc, x, rxq, stb, false, ph, 1⟩ := by
              rcases rdSlot_cases pc hslot with rfl | rfl | rfl | rfl | rfl
              · simp [ReadLane.tick, ReadLane.work]
              · simp at hcnt
              · simp at hcnt
              · simp at hcnt
              · have hx : x = 0#32 := BitVec.eq_of_toNat_eq (by simpa using hcnt)
                subst hx
                simp [ReadLane.tick, ReadLane.work]
            unfold ReadLane.clock
            split
            · have : (ReadLane.left { (ReadLane.tick s ⟨[], pc, x, rxq, stb, false, ph, 1⟩) with ph := 0#16 }) =
                  (ReadLane.tick s ⟨[], pc, x, rxq, stb, false, ph, 1⟩).work * 65536 + 65535 := by
                simp [ReadLane.left, ReadLane.work]
              rw [this]
              simp only [ReadLane.left]
              omega
            · rename_i e
              have hne : ph.toNat ≠ (s.div - 1#16).toNat := fun e' => e (BitVec.eq_of_toNat_eq e')
              rw [BitVec.toNat_sub] at hne
              simp at hne
              have e1 : (ph + 1#16).toNat = ph.toNat + 1 := by
                rw [BitVec.toNat_add]
                simp
                omega
              have : (ReadLane.left ⟨[], pc, x, rxq, stb, false, ph + 1#16, 1⟩) =
                  ReadLane.work ⟨[], pc, x, rxq, stb, false, ph, 1⟩ * 65536 + (65535 - (ph.toNat + 1)) := by
                simp [ReadLane.left, ReadLane.work, e1]
              rw [this]
              simp only [ReadLane.left]
              omega
        obtain ⟨a', b'', p', r', w', h1, h2, h3⟩ := ih _ (by omega) w.tail b' _ _ (Nat.le_refl _) (nextPhase_lt hr) hg.clock
        exact ⟨a', b'', p', r', w', h1, h2, hc.trans h3⟩
      · have hlt := hg.left_clock.2 (by simpa using hf) hst
        obtain ⟨a', b'', p', r', w', h1, h2, h3⟩ := ih _ (by omega) w.tail b' _ _ (Nat.le_refl _) (nextPhase_lt hr) hg.clock
        exact ⟨a', b'', p', r', w', h1, h2, hc.trans h3⟩

/-- Clearing the completion flag keeps the agreement. -/
theorem ReadLane.Good.clear {s : State} {n got : Nat} {l : ReadLane} (h : l.Good s n got) :
    ({ l with stalled := false } : ReadLane).Good s n got :=
  ⟨h.slot, h.phase, h.strobe, h.taken, h.words, by simp, h.count⟩

/-- A clock cycle takes no notice of the flag. -/
theorem ReadLane.clear_clock (s : State) (l : ReadLane) :
    ({ ReadLane.clock s { l with stalled := false } with stalled := false } : ReadLane) = { l.clock s with stalled := false } := by
  obtain ⟨q, pc, x, rxq, stb, stalled, ph, k⟩ := l
  unfold ReadLane.clock
  simp only
  split
  · unfold ReadLane.tick
    simp only
    split
    · cases q <;> rfl
    · rfl
    · rfl
    · split <;> rfl
    · split <;> rfl
  · rfl

/-- The clearing of the flag after the hand-off (R75 step 2), whatever the lane has done by then. -/
theorem readState_clear {s : State} {ra : BitVec 4} {n : Nat} {c : List SeqOp} (hl : s.Live) (hi : s.lanesIdle = true)
    (w : List Bool) :
    ∀ (b : Bool) (r : BitVec 16) (l : ReadLane), r.toNat < s.div.toNat → ({ l with stalled := false } : ReadLane).Good s n 0 →
      ∃ b' r' l' w', r'.toNat < s.div.toNat ∧ ReadLane.Good s n 0 l' ∧
        Reaches (readState (s.withPace w) ra (.clearStalled .rd :: c) 0 .sequencer b r l)
          (readState (s.withPace w') ra c 0 .sequencer b' r' l') := by
  obtain ⟨-, hiwr⟩ := s.lanesIdle_iff.mp hi
  have granted : ∀ (w : List Bool) (b : Bool) (r : BitVec 16) (l : ReadLane), w.head? ≠ some true → r.toNat < s.div.toNat →
      ({ l with stalled := false } : ReadLane).Good s n 0 →
      ∃ b' r' l' w', r'.toNat < s.div.toNat ∧ ReadLane.Good s n 0 l' ∧
        Reaches (readState (s.withPace w) ra (.clearStalled .rd :: c) 0 .sequencer b r l)
          (readState (s.withPace w') ra c 0 .sequencer b' r' l') := by
    intro w b r l hgr hr hg
    obtain ⟨b', hc⟩ := readState_cycle (s := s) (ra := ra) (op := .clearStalled .rd) (rest := c) (c' := c) (got := 0)
      (got' := 0) (w := w) (b := b) (r := r) (l := l) (l' := { l with stalled := false }) hg.slot hl hiwr hgr rfl
    exact ⟨b', _, _, w.tail, nextPhase_lt hr, hg.clock, hc⟩
  induction w with
  | nil => exact fun b r l => granted [] b r l (by simp)
  | cons x w ih =>
    intro b r l hr hg
    cases x with
    | false => exact granted _ b r l (by simp) hr hg
    | true =>
      obtain ⟨b', hc⟩ := readState_held ra (.clearStalled .rd :: c) 0 w b r l hg.slot hl hiwr
      have hg' : ({ l.clock s with stalled := false } : ReadLane).Good s n 0 := by
        rw [← ReadLane.clear_clock]
        exact hg.clock.clear
      obtain ⟨b'', r', l', w', h1, h2, h3⟩ := ih b' _ _ (nextPhase_lt hr) hg'
      exact ⟨b'', r', l', w', h1, h2, hc.trans h3⟩

/-- The start of a read access (R75): from an idle bus, the address is set, the hand-off made and the flag cleared. -/
theorem readStart_runs {s : State} {ra : BitVec 4} {h : BitVec 32} {c : List SeqOp} (hs : s.Between)
    (hra : isEnumerator ra = true) (ho : s.opstate = .busy (.setAddr ra :: .handRd h :: .clearStalled .rd :: c)) :
    ∃ b r l w, r.toNat < s.div.toNat ∧ ReadLane.Good s (h.toNat + 1) 0 l ∧
      Reaches s (readState (s.withPace w) ra c 0 .sequencer b r l) := by
  obtain ⟨hl, -, hi, hacc⟩ := hs
  obtain ⟨hird, hiwr⟩ := s.lanesIdle_iff.mp hi
  obtain ⟨r1, r2, r3, r4⟩ := s.idleRd_iff.mp hird
  -- SetAddr
  obtain ⟨a, b, p, r, w, hp, hr, e1⟩ := to_line hl hi ho
  replace e1 := e1 { s with
      turn := .rdLane, opstate := .busy (.handRd h :: .clearStalled .rd :: c)
      stalledRd := a, stalledWr := b, phaseRd := p, phaseWr := r, pace := w
      cs := csOf ra, da := daOf ra, access := .addressed, trace := s.trace ++ [addrEvent ra] } (by
    show runCode (.regAddr ra) _ = _
    rw [runCode_regAddr _ hra, setAddr, if_pos ⟨hacc, hi⟩])
  -- the hand-off
  obtain ⟨a, b, p, r, w, hp, hr, e2⟩ := to_line (s := { s with
      turn := .rdLane, opstate := .busy (.handRd h :: .clearStalled .rd :: c)
      stalledRd := a, stalledWr := b, phaseRd := p, phaseWr := r, pace := w
      cs := csOf ra, da := daOf ra, access := .addressed, trace := s.trace ++ [addrEvent ra] })
    ⟨hl.enRd, hl.enWr, hp, hr, hl.depth, hl.running⟩ hi rfl
  have hnf : isFull s.params s.inqRd = false := by
    have := hl.depth
    simp only [isFull, r2, List.length_nil]
    exact decide_eq_false (by omega)
  replace e2 := e2 (readState (s.withPace w) ra (.clearStalled .rd :: c) 0 .rdLane b r ⟨[h], 0#3, s.x, [], false, a, p, 0⟩) (by
    show (if isFull s.params s.inqRd = true then _ else _) = _
    rw [if_neg (by simp [hnf])]
    simp only [pushRd, readState, r1, r2, r3, r4, List.nil_append, State.firstSamples, List.range_zero, List.map_nil,
      Memory.writeWords, Nat.add_zero, List.drop_zero])
  obtain ⟨b₁, e3⟩ := readState_lanes ra (.clearStalled .rd :: c) 0 b r ⟨[h], 0#3, s.x, [], false, a, p, 0⟩ (by simp)
    (hl.withPace w) hiwr
  have hg : ReadLane.Good s (h.toNat + 1) 0 ⟨[h], 0#3, s.x, [], false, false, p, 0⟩ :=
    ⟨by simp, hp, by simp, by simp, by simp [State.samplesFrom], by simp, by simp⟩
  have hg' : ({ ReadLane.clock s ⟨[h], 0#3, s.x, [], false, a, p, 0⟩ with stalled := false } : ReadLane).Good s (h.toNat + 1)
      0 := by
    rw [← ReadLane.clear_clock]
    exact hg.clock.clear
  obtain ⟨b₂, r', l', w', h1, h2, h3⟩ := readState_clear (ra := ra) (c := c) hl hi w b₁ _ _ (nextPhase_lt hr) hg'
  exact ⟨b₂, r', l', w', h1, h2, e1.trans (e2.trans (e3.trans h3))⟩

/-- A one-word read (R76): from an idle bus, one read pulse at the address; the sampled word is the sequencer's. -/
theorem memRead_runs {s : State} {ra : BitVec 4} {rest : List SeqOp} (hs : s.Between) (hra : isEnumerator ra = true)
    (ho : s.opstate = .busy (memRead ra ++ rest)) :
    ∃ a b p r w, p.toNat < s.div.toNat ∧ r.toNat < s.div.toNat ∧
      Reaches s (readDone (s.withPace w) ra 1 0 (s.sampleAt 0) rest a b p r) := by
  obtain ⟨b, r, l, w, hr, hg, h1⟩ := readStart_runs hs hra ho
  obtain ⟨a', b', p', r', w', h2, h3, h4⟩ := readState_take hs.live hs.lanesIdle hs.noAccess _ w b r l (Nat.le_refl _) hr hg
  exact ⟨a', b', p', r', w', h2, h3, h1.trans h4⟩

/-- A read burst (R78): from an idle bus, the address set once, `n` read pulses, every word emitted in order. -/
theorem memReadBurst_runs {s : State} {ra : BitVec 4} {n : BitVec 32} {rest : List SeqOp} (hs : s.Between)
    (hra : isEnumerator ra = true) (hn : n ≠ 0#32) (ho : s.opstate = .busy (memReadBurst ra n ++ rest)) :
    ∃ a b p r w, p.toNat < s.div.toNat ∧ r.toNat < s.div.toNat ∧
      Reaches s (readDone (s.withPace w) ra n.toNat n.toNat s.smp rest a b p r) := by
  obtain ⟨b, r, l, w, hr, hg, h1⟩ := readStart_runs hs hra ho
  have : (handOff n).toNat + 1 = n.toNat := by
    have hne : n.toNat ≠ 0 := fun e => hn (BitVec.eq_of_toNat_eq (by simpa using e))
    have := n.isLt
    rw [handOff, BitVec.toNat_sub]
    simp
    omega
  rw [this] at hg
  obtain ⟨a', b', p', r', w', h2, h3, h4⟩ := readState_drain hs.live hs.lanesIdle hs.noAccess _ 0 w b r l (Nat.le_refl _) hr hg
  exact ⟨a', b', p', r', w', h2, h3, h1.trans h4⟩

end Sys2Proof.Machine
end

