-- ==== Sys2Proof/Laws/Polls.lean ====
section
/-! SUPPORT. The polling loop and the primitives once over, from one sequencer turn to a later one, up to the loose fields: one
lemma for each primitive, one for a discarded poll, one for each way a loop can end. -/

namespace Sys2Proof.Machine

/-- `s` at the sequencer's turn with this code still to run. -/
def State.atCode (s : State) (code : List SeqOp) : State := { s with opstate := .busy code, turn := .sequencer }

/-- From `s` a state is reached that is `u` but for the loose fields, phases in range and `P` true of those fields. -/
def LeadsTo (P : Loose → Prop) (s u : State) : Prop :=
  ∃ f : Loose, P f ∧ f.phaseRd.toNat < s.div.toNat ∧ f.phaseWr.toNat < s.div.toNat ∧ Reaches s (u.withLoose f)

/-- No demand on the loose fields. -/
abbrev Loose.any : Loose → Prop := fun _ => True

/-! ### Loose fields come out of every description -/

theorem State.withLoose_withLoose (s : State) (f g : Loose) : (s.withLoose f).withLoose g = s.withLoose g := rfl
theorem State.withLoose_atCode (s : State) (f : Loose) (c : List SeqOp) : (s.withLoose f).atCode c = (s.atCode c).withLoose f := rfl
theorem State.withLoose_sampleAt (s : State) (f : Loose) (i : Nat) : (s.withLoose f).sampleAt i = s.sampleAt i := rfl
theorem State.withLoose_didRead (s : State) (f : Loose) (ra : BitVec 4) : (s.withLoose f).didRead ra = (s.didRead ra).withLoose f := rfl
theorem State.withLoose_didWrite (s : State) (f : Loose) (ra : BitVec 4) (ws : List BusWord) :
    (s.withLoose f).didWrite ra ws = (s.didWrite ra ws).withLoose f := rfl
theorem State.withLoose_didBurst (s : State) (f : Loose) (ra : BitVec 4) (n : Nat) :
    (s.withLoose f).didBurst ra n = (s.didBurst ra n).withLoose f := rfl
theorem State.withLoose_didPolls (s : State) (f : Loose) (n : Nat) :
    (s.withLoose f).didPolls n = (s.didPolls n).withLoose f := rfl

/-- The loose fields a state has. -/
def State.loose (s : State) : Loose := ⟨s.stalledRd, s.stalledWr, s.phaseRd, s.phaseWr, s.smp, s.cond, s.pace⟩

theorem State.withLoose_self (s : State) : s.withLoose s.loose = s := rfl

/-- Liveness reads only these fields. -/
theorem State.Live.of_eq {s t : State} (h : s.Live)
    (e : (t.enRd, t.enWr, t.div, t.params, t.por) = (s.enRd, s.enWr, s.div, s.params, s.por))
    (hp : t.phaseRd.toNat < s.div.toNat) (hr : t.phaseWr.toNat < s.div.toNat) : t.Live := by
  simp only [Prod.mk.injEq] at e
  obtain ⟨e1, e2, e3, e4, e5⟩ := e
  exact ⟨e1.trans h.enRd, e2.trans h.enWr, e3 ▸ hp, e3 ▸ hr, e4 ▸ h.depth, e5.trans h.running⟩

/-- Being between two accesses reads only these fields. -/
theorem State.Between.of_eq {s t : State} (h : s.Between)
    (e : (t.enRd, t.enWr, t.div, t.params, t.por) = (s.enRd, s.enWr, s.div, s.params, s.por))
    (hp : t.phaseRd.toNat < s.div.toNat) (hr : t.phaseWr.toNat < s.div.toNat) (ht : t.turn = .sequencer)
    (hi : t.lanesIdle = s.lanesIdle) (ha : t.access = s.access) : t.Between :=
  ⟨h.live.of_eq e hp hr, ht, hi.trans h.lanesIdle, ha.trans h.noAccess⟩

/-- A live engine stays live whatever its loose fields, phases in range. -/
theorem State.Between.withLoose {s : State} (h : s.Between) {f : Loose} (hp : f.phaseRd.toNat < s.div.toNat)
    (hr : f.phaseWr.toNat < s.div.toNat) : (s.withLoose f).Between := h.of_eq rfl hp hr h.turn rfl rfl

theorem State.Between.atCode {s : State} (h : s.Between) (c : List SeqOp) : (s.atCode c).Between :=
  h.of_eq rfl h.live.phaseRdRange h.live.phaseWrRange rfl rfl rfl

theorem State.Between.didRead {s : State} (h : s.Between) (ra : BitVec 4) : (s.didRead ra).Between :=
  h.of_eq rfl h.live.phaseRdRange h.live.phaseWrRange h.turn rfl rfl

theorem State.Between.didWrite {s : State} (h : s.Between) (ra : BitVec 4) (ws : List BusWord) : (s.didWrite ra ws).Between :=
  h.of_eq rfl h.live.phaseRdRange h.live.phaseWrRange h.turn rfl rfl

theorem State.Between.didBurst {s : State} (h : s.Between) (ra : BitVec 4) (n : Nat) : (s.didBurst ra n).Between :=
  h.of_eq rfl h.live.phaseRdRange h.live.phaseWrRange h.turn rfl rfl

theorem State.Between.didPolls {s : State} (h : s.Between) (n : Nat) : (s.didPolls n).Between :=
  h.of_eq rfl h.live.phaseRdRange h.live.phaseWrRange h.turn rfl rfl

/-- What leads on, leads on from where one is, whatever the loose fields there. -/
theorem LeadsTo.trans {P Q : Loose → Prop} {s u v : State} (h : LeadsTo P s u) (hd : u.div = s.div)
    (h' : ∀ f, P f → f.phaseRd.toNat < u.div.toNat → f.phaseWr.toNat < u.div.toNat → LeadsTo Q (u.withLoose f) v) :
    LeadsTo Q s v := by
  obtain ⟨f, hP, h1, h2, h3⟩ := h
  obtain ⟨g, hQ, h4, h5, h6⟩ := h' f hP (by rw [hd]; exact h1) (by rw [hd]; exact h2)
  have e : (u.withLoose f).div = s.div := hd
  rw [e] at h4 h5
  exact ⟨g, hQ, h4, h5, h3.trans h6⟩

theorem LeadsTo.reaches {P : Loose → Prop} {s u : State} (h : LeadsTo P s u) : ∃ f, Reaches s (u.withLoose f) := by
  obtain ⟨f, -, -, -, h⟩ := h
  exact ⟨f, h⟩

/-! ### The primitives -/

/-- `MemRead` (R76): afterwards the sequencer holds the sampled word. -/
theorem leads_memRead {s : State} {ra : BitVec 4} {rest : List SeqOp} (hs : s.Between) (hra : isEnumerator ra = true)
    (ho : s.opstate = .busy (memRead ra ++ rest)) :
    LeadsTo (fun f => f.smp = s.sampleAt 0) s ((s.didRead ra).atCode rest) := by
  obtain ⟨a, b, p, r, w, h1, h2, h3⟩ := memRead_runs hs hra ho
  exact ⟨⟨a, b, p, r, s.sampleAt 0, s.cond, w⟩, rfl, h1, h2, h3⟩

/-- `MemWriteBurst` (R79). -/
theorem leads_memWriteBurst {s : State} {ra : BitVec 4} {ws : List BusWord} {rest : List SeqOp} (hs : s.Between)
    (hra : isEnumerator ra = true) (hws : ws ≠ []) (ho : s.opstate = .busy (memWriteBurst ra ws ++ rest)) :
    LeadsTo Loose.any s ((s.didWrite ra ws).atCode rest) := by
  obtain ⟨a, b, p, r, w, h1, h2, h3⟩ := memWriteBurst_runs hs hra hws ho
  exact ⟨⟨a, b, p, r, s.smp, s.cond, w⟩, trivial, h1, h2, h3⟩

/-- `MemWrite` (R77). -/
theorem leads_memWrite {s : State} {ra : BitVec 4} {v : BusWord} {rest : List SeqOp} (hs : s.Between)
    (hra : isEnumerator ra = true) (ho : s.opstate = .busy (memWrite ra v ++ rest)) :
    LeadsTo Loose.any s ((s.didWrite ra [v]).atCode rest) := leads_memWriteBurst hs hra (by simp) ho

/-- `MemReadBurst` with its words emitted (R78, R232). -/
theorem leads_memReadBurst {s : State} {ra : BitVec 4} {n : BitVec 32} {rest : List SeqOp} (hs : s.Between)
    (hra : isEnumerator ra = true) (hn : n ≠ 0#32) (ho : s.opstate = .busy (memReadBurst ra n ++ rest)) :
    LeadsTo Loose.any s ((s.didBurst ra n.toNat).atCode rest) := by
  obtain ⟨a, b, p, r, w, h1, h2, h3⟩ := memReadBurst_runs hs hra hn ho
  exact ⟨⟨a, b, p, r, s.smp, s.cond, w⟩, trivial, h1, h2, h3⟩

/-- A line that leaves the lanes idle, whatever their flags and phases: the turns before and after it change only those. -/
theorem leads_line {s t : State} {op : SeqOp} {rest code : List SeqOp} {P : Loose → Prop} (hs : s.Between)
    (ho : s.opstate = .busy (op :: rest))
    (h : ∀ a b p r w, runLine op rest { s.withLanes a b p r w with turn := .rdLane, opstate := .busy rest } =
      .next { t.withLanes a b p r w with turn := .rdLane, opstate := .busy code })
    (hl : t.Live) (hi : t.lanesIdle = true) (hd : t.div = s.div)
    (hP : ∀ f : Loose, f.smp = t.smp → f.cond = t.cond → P f) : LeadsTo P s (t.atCode code) := by
  obtain ⟨a, b, p, r, w, h1, h2, h3⟩ := to_line hs.live hs.lanesIdle ho
  obtain ⟨a', b', p', r', h4, h5, h6⟩ := quiet_sequencer (code := code)
    (s := { t.withLanes a b p r w with turn := .rdLane, opstate := .busy code })
    ⟨hl.enRd, hl.enWr, hd ▸ h1, hd ▸ h2, hl.depth, hl.running⟩ hi (.inl rfl)
  exact ⟨⟨a', b', p', r', t.smp, t.cond, w⟩, hP _ rfl rfl, hd ▸ h4, hd ▸ h5, (h3 _ (h a b p r w)).trans h6⟩

/-- A line that only moves the sequencer to other code: a call, an end of a loop's body, the head of the sector loop. -/
theorem leads_jump {s : State} {op : SeqOp} {rest code : List SeqOp} (hs : s.Between) (ho : s.opstate = .busy (op :: rest))
    (h : ∀ a b p r w, runLine op rest { s.withLanes a b p r w with turn := .rdLane, opstate := .busy rest } =
      .next { s.withLanes a b p r w with turn := .rdLane, opstate := .busy code }) :
    LeadsTo (fun f => f.smp = s.smp ∧ f.cond = s.cond) s (s.atCode code) :=
  leads_line hs ho h hs.live hs.lanesIdle rfl (fun _ e1 e2 => ⟨e1, e2⟩)

/-- A line that ends the operation. -/
theorem leads_finish {s : State} {op : SeqOp} {rest : List SeqOp} {c : ResCode} (hs : s.Between)
    (ho : s.opstate = .busy (op :: rest))
    (h : ∀ a b p r w, runLine op rest { s.withLanes a b p r w with turn := .rdLane, opstate := .busy rest } =
      finish c { s.withLanes a b p r w with turn := .rdLane, opstate := .busy rest }) :
    LeadsTo Loose.any s (s.ended c) := by
  obtain ⟨a, b, p, r, w, h1, h2, h3⟩ := to_line hs.live hs.lanesIdle ho
  exact ⟨⟨a, b, p, r, s.smp, s.cond, w⟩, trivial, h1, h2, h3 _ ((h a b p r w).trans (finish_idle c
    (s := { s.withLanes a b p r w with turn := .rdLane, opstate := .busy rest }) hs.noAccess))⟩

/-! ### Samples -/

theorem State.sampleAt_drop {s t : State} (n : Nat) (h1 : t.samples = s.samples.drop n) (h2 : t.drawn = s.drawn + n) (i : Nat) :
    t.sampleAt i = s.sampleAt (n + i) := by
  simp only [State.sampleAt, h1, h2, List.getElem?_drop, Nat.add_assoc]

theorem State.firstSamples_cons {s t : State} (h1 : t.samples = s.samples.drop 1) (h2 : t.drawn = s.drawn + 1) (n : Nat) :
    s.firstSamples (n + 1) = s.sampleAt 0 :: t.firstSamples n := by
  simp only [State.firstSamples, List.range_succ_eq_map, List.map_cons, List.map_map]
  congr 1
  apply List.map_congr_left
  intro i _
  simp [State.sampleAt_drop 1 h1 h2, Nat.add_comm]

/-! ### One poll -/

/-- The polls of a loop that has made `s.pollCnt` polls before. -/
def State.morePolls (s : State) (n : Nat) : State := { s.didPolls n with pollCnt := s.pollCnt + n }

/-- One poll, counted. -/
def State.polled (s : State) : State := { s.didRead Config.raStatus with pollCnt := s.pollCnt + 1 }

theorem State.morePolls_zero_cnt {s : State} (h : s.pollCnt = 0) (n : Nat) : s.morePolls n = s.didPolls n := by
  simp [State.morePolls, h, State.didPolls]

theorem State.morePolls_one (s : State) : s.morePolls 1 = s.polled := by
  simp [State.morePolls, State.polled, State.didPolls, State.didRead, State.firstSamples]

/-- A poll after some polls. -/
theorem State.morePolls_polled (s : State) (n : Nat) : (s.morePolls n).polled = s.morePolls (n + 1) := by
  simp only [State.morePolls, State.polled, State.didPolls, State.didRead, State.firstSamples_succ, List.flatMap_append,
    List.drop_drop, List.append_assoc, State.mk.injEq, true_and, and_true]
  refine ⟨by omega, ?_, by omega⟩
  rw [State.sampleAt_drop (s := s) n rfl rfl]
  simp

/-- The samples after some polls. -/
theorem State.morePolls_sampleAt (s : State) (n i : Nat) : (s.morePolls n).sampleAt i = s.sampleAt (n + i) :=
  State.sampleAt_drop n rfl rfl i

/-- One turn fewer of the loop to come. -/
theorem State.Between.polled {s : State} (h : s.Between) : s.polled.Between :=
  h.of_eq rfl h.live.phaseRdRange h.live.phaseWrRange h.turn rfl rfl

/-- The test of a status bit leaves its outcome with the sequencer. -/
theorem leads_test {s : State} {b : StatusBit} {rest : List SeqOp} (hs : s.Between) (ho : s.opstate = .busy (.test b :: rest)) :
    LeadsTo (fun f => f.smp = s.smp ∧ f.cond = statusBit b s.smp) s (s.atCode rest) :=
  leads_line (t := { s with cond := statusBit b s.smp }) hs ho (by intros; cases b <;> rfl)
    (hs.live.of_eq rfl hs.live.phaseRdRange hs.live.phaseWrRange) hs.lanesIdle rfl (fun _ e1 e2 => ⟨e1, e2⟩)

/-- The test of a status bit and the branch after it, where the branch goes on at `code`. -/
theorem leads_decide {s : State} {b : StatusBit} {d : Decision} {rest code : List SeqOp} (hs : s.Between)
    (ho : s.opstate = .busy (.test b :: .branch d :: rest))
    (h : ∀ u : State, u.cond = statusBit b s.smp → takeBranch d rest u = .next { u with opstate := .busy code }) :
    LeadsTo (fun f => f.smp = s.smp) s (s.atCode code) := by
  refine (leads_test hs ho).trans rfl fun f hf hp hr => ?_
  refine leads_line (t := s.withLoose f) ((hs.atCode _).withLoose hp hr) rfl (fun a b p r w => ?_)
    (hs.withLoose hp hr).live hs.lanesIdle rfl (fun g e1 _ => e1.trans hf.1)
  exact h { (s.withLoose f).withLanes a b p r w with turn := .rdLane, opstate := .busy rest } hf.2

/-- The same where the branch ends the operation. -/
theorem leads_decide_end {s : State} {b : StatusBit} {d : Decision} {rest : List SeqOp} {r : ResCode} (hs : s.Between)
    (ho : s.opstate = .busy (.test b :: .branch d :: rest))
    (h : ∀ u : State, u.cond = statusBit b s.smp → takeBranch d rest u = finish r u) :
    LeadsTo Loose.any s (s.ended r) := by
  refine (leads_test hs ho).trans rfl fun f hf hp hr => ?_
  refine leads_finish (s := (s.atCode (.branch d :: rest)).withLoose f) ((hs.atCode _).withLoose hp hr) rfl
    fun a b p r w => ?_
  exact h { (s.withLoose f).withLanes a b p r w with turn := .rdLane, opstate := .busy rest } hf.2

/-- An accepted operation comes to its first line with the loose fields alone changed. -/
theorem leads_accepted {s : State} (hs : s.Waiting) (code : List SeqOp) :
    LeadsTo Loose.any { s with opstate := .busy code } (s.atCode code) := by
  obtain ⟨a, b, p, r, h1, h2, h3⟩ := quiet_sequencer (s := { s with opstate := .busy code }) (code := code)
    (hs.live.of_eq rfl hs.live.phaseRdRange hs.live.phaseWrRange) hs.lanesIdle (.inl rfl)
  exact ⟨⟨a, b, p, r, s.smp, s.cond, s.pace⟩, trivial, h1, h2, h3⟩

/-- A waiting engine whose next operation has come to its first line is between accesses. -/
theorem State.Waiting.atCode {s : State} (hs : s.Waiting) (code : List SeqOp) : (s.atCode code).Between :=
  ⟨hs.live.of_eq rfl hs.live.phaseRdRange hs.live.phaseWrRange, rfl, hs.lanesIdle, hs.noAccess⟩

/-- The end of an operation's code is `return OK`. -/
theorem leads_end {s : State} (hs : s.Between) (ho : s.opstate = .busy []) : LeadsTo Loose.any s (s.ended .ok) := by
  obtain ⟨a, b, p, r, w, h1, h2, h3⟩ := to_end hs.live hs.lanesIdle ho
  exact ⟨⟨a, b, p, r, s.smp, s.cond, w⟩, trivial, h1, h2, h3 _ (finish_idle .ok
    (s := { s.withLanes a b p r w with turn := .rdLane }) hs.noAccess)⟩

/-- The poll of one turn of a loop, up to the branch on BSY (R200, R202). -/
theorem leads_pollTop {s : State} {k : PollLoop} {rest : List SeqOp} (hs : s.Between)
    (ho : s.opstate = .busy (.pollTop k :: rest)) (hl : s.params.pollLimit ≠ some s.pollCnt) :
    LeadsTo (fun f => f.smp = s.sampleAt 0) s (s.polled.atCode (.test .bsy :: .branch (.loopBsy k) :: rest)) := by
  have hs' : State.Between { s with pollCnt := s.pollCnt + 1 } :=
    hs.of_eq rfl hs.live.phaseRdRange hs.live.phaseWrRange hs.turn rfl rfl
  have h1 : LeadsTo Loose.any s (State.atCode { s with pollCnt := s.pollCnt + 1 }
      (memRead Config.raStatus ++ (SeqOp.test .bsy :: .branch (.loopBsy k) :: rest))) := by
    refine leads_line (t := { s with pollCnt := s.pollCnt + 1 }) hs ho (fun a b p r w => ?_) hs'.live hs.lanesIdle rfl
      (fun _ _ _ => trivial)
    show pollTurn k rest _ = _
    rw [pollTurn, if_neg hl]
    simp
  refine h1.trans rfl fun f _ hp hr => ?_
  exact leads_memRead ((hs'.atCode _).withLoose hp hr) (by decide) rfl

/-! ### What a sample means to a loop (R206, R207, R209) -/

theorem pollOutcome_none {k : PollLoop} {v : BusWord} (h : pollOutcome k v = none) :
    statusBit .bsy v = true ∨ statusBit .bsy v = false ∧
      (k = .ready ∧ statusBit .drdy v = false ∨ k = .drq ∧ statusBit .drq v = false ∧ statusBit .err v = false) := by
  cases k <;> cases h7 : statusBit .bsy v <;> simp_all [pollOutcome, isReadySample, drqOutcome]
  cases h3 : statusBit .drq v <;> simp_all

theorem pollOutcome_true {k : PollLoop} {v : BusWord} (h : pollOutcome k v = some true) :
    statusBit .bsy v = false ∧
      (k = .notBusy ∨ k = .ready ∧ statusBit .drdy v = true ∨ k = .drq ∧ statusBit .drq v = true) := by
  cases k <;> cases h7 : statusBit .bsy v <;> simp_all [pollOutcome, isReadySample, drqOutcome]

theorem pollOutcome_false {k : PollLoop} {v : BusWord} (h : pollOutcome k v = some false) :
    k = .drq ∧ statusBit .bsy v = false ∧ statusBit .drq v = false ∧ statusBit .err v = true := by
  cases k <;> cases h7 : statusBit .bsy v <;> simp_all [pollOutcome, isReadySample, drqOutcome]
  cases h3 : statusBit .drq v <;> simp_all

theorem LeadsTo.weaken {P : Loose → Prop} {s u : State} (h : LeadsTo P s u) : LeadsTo Loose.any s u := by
  obtain ⟨f, -, h⟩ := h
  exact ⟨f, trivial, h⟩

/-! ### One turn of a loop, by the outcome of its sample -/

/-- A sample that decides nothing is discarded. -/
theorem leads_discard {s : State} {k : PollLoop} {rest : List SeqOp} (hs : s.Between)
    (ho : s.opstate = .busy (.pollTop k :: rest)) (hl : s.params.pollLimit ≠ some s.pollCnt)
    (hv : pollOutcome k (s.sampleAt 0) = none) : LeadsTo Loose.any s (s.polled.atCode (.pollTop k :: rest)) := by
  refine (leads_pollTop hs ho hl).trans rfl fun f hf hp hr => ?_
  have hb := (hs.polled.atCode (.test .bsy :: .branch (.loopBsy k) :: rest)).withLoose hp hr
  rw [← hf] at hv
  rcases pollOutcome_none hv with h7 | ⟨h7, ⟨rfl, h6⟩ | ⟨rfl, h3, h0⟩⟩
  · refine (leads_decide hb rfl fun u hu => ?_).weaken
    simp [takeBranch, show u.cond = true from hu.trans h7]
  · refine (leads_decide (code := .test .drdy :: .branch .readyDrdy :: rest) hb rfl fun u hu => ?_).trans rfl
      fun g hg hp hr => ?_
    · simp [takeBranch, show u.cond = false from hu.trans h7]
    · refine (leads_decide ((hs.polled.atCode _).withLoose hp hr) rfl fun u hu => ?_).weaken
      simp [takeBranch, show u.cond = false from hu.trans ((congrArg _ hg).trans h6)]
  · refine (leads_decide (code := .test .drq :: .branch .drqDrq :: rest) hb rfl fun u hu => ?_).trans rfl
      fun g hg hp hr => ?_
    · simp [takeBranch, show u.cond = false from hu.trans h7]
    · refine (leads_decide (code := .test .err :: .branch .drqErr :: rest) ((hs.polled.atCode _).withLoose hp hr) rfl
        fun u hu => ?_).trans rfl fun g' hg' hp hr => ?_
      · simp [takeBranch, show u.cond = false from hu.trans ((congrArg _ hg).trans h3)]
      · refine (leads_decide ((hs.polled.atCode _).withLoose hp hr) rfl fun u hu => ?_).weaken
        simp [takeBranch, show u.cond = false from hu.trans ((congrArg _ (hg'.trans hg)).trans h0)]

/-- A sample that ends the loop well lets the code after it go on, the sample in hand. -/
theorem leads_exit {s : State} {k : PollLoop} {rest : List SeqOp} (hs : s.Between)
    (ho : s.opstate = .busy (.pollTop k :: rest)) (hl : s.params.pollLimit ≠ some s.pollCnt)
    (hv : pollOutcome k (s.sampleAt 0) = some true) :
    LeadsTo (fun f => f.smp = s.sampleAt 0) s (s.polled.atCode rest) := by
  refine (leads_pollTop hs ho hl).trans rfl fun f hf hp hr => ?_
  have hb := (hs.polled.atCode (.test .bsy :: .branch (.loopBsy k) :: rest)).withLoose hp hr
  rw [← hf] at hv ⊢
  obtain ⟨h7, rfl | ⟨rfl, h6⟩ | ⟨rfl, h3⟩⟩ := pollOutcome_true hv
  · refine leads_decide hb rfl fun u hu => ?_
    simp [takeBranch, show u.cond = false from hu.trans h7]
  · refine (leads_decide (code := .test .drdy :: .branch .readyDrdy :: rest) hb rfl fun u hu => ?_).trans rfl
      fun g hg hp hr => ?_
    · simp [takeBranch, show u.cond = false from hu.trans h7]
    · rw [← show g.smp = f.smp from hg]
      refine leads_decide ((hs.polled.atCode _).withLoose hp hr) rfl fun u hu => ?_
      simp [takeBranch, show u.cond = true from hu.trans ((congrArg _ hg).trans h6)]
  · refine (leads_decide (code := .test .drq :: .branch .drqDrq :: rest) hb rfl fun u hu => ?_).trans rfl
      fun g hg hp hr => ?_
    · simp [takeBranch, show u.cond = false from hu.trans h7]
    · rw [← show g.smp = f.smp from hg]
      refine leads_decide ((hs.polled.atCode _).withLoose hp hr) rfl fun u hu => ?_
      simp [takeBranch, show u.cond = true from hu.trans ((congrArg _ hg).trans h3)]

/-- A sample that reports a device error ends the operation with FAIL (R209, R231, R332). -/
theorem leads_fail {s : State} {k : PollLoop} {rest : List SeqOp} (hs : s.Between)
    (ho : s.opstate = .busy (.pollTop k :: rest)) (hl : s.params.pollLimit ≠ some s.pollCnt)
    (hv : pollOutcome k (s.sampleAt 0) = some false) : LeadsTo Loose.any s (s.polled.ended .fail) := by
  refine (leads_pollTop hs ho hl).trans rfl fun f hf hp hr => ?_
  have hb := (hs.polled.atCode (.test .bsy :: .branch (.loopBsy k) :: rest)).withLoose hp hr
  rw [← hf] at hv
  obtain ⟨rfl, h7, h3, h0⟩ := pollOutcome_false hv
  refine (leads_decide (code := .test .drq :: .branch .drqDrq :: rest) hb rfl fun u hu => ?_).trans rfl
    fun g hg hp hr => ?_
  · simp [takeBranch, show u.cond = false from hu.trans h7]
  · refine (leads_decide (code := .test .err :: .branch .drqErr :: rest) ((hs.polled.atCode _).withLoose hp hr) rfl
      fun u hu => ?_).trans rfl fun g' hg' hp hr => ?_
    · simp [takeBranch, show u.cond = false from hu.trans ((congrArg _ hg).trans h3)]
    · refine leads_decide_end ((hs.polled.atCode _).withLoose hp hr) rfl fun u hu => ?_
      simp [takeBranch, show u.cond = true from hu.trans ((congrArg _ (hg'.trans hg)).trans h0)]

/-! ### A whole loop (R202) -/

theorem State.Between.morePolls {s : State} (h : s.Between) (n : Nat) : (s.morePolls n).Between :=
  h.of_eq rfl h.live.phaseRdRange h.live.phaseWrRange h.turn rfl rfl

/-- `n` samples that decide nothing, at least one. -/
theorem leads_discards {s : State} {k : PollLoop} {rest : List SeqOp} (hs : s.Between)
    (ho : s.opstate = .busy (.pollTop k :: rest)) (n : Nat) (hl : ∀ i, i ≤ n → s.params.pollLimit ≠ some (s.pollCnt + i))
    (hv : ∀ i, i ≤ n → pollOutcome k (s.sampleAt i) = none) :
    LeadsTo Loose.any s ((s.morePolls (n + 1)).atCode (.pollTop k :: rest)) := by
  induction n with
  | zero =>
    rw [State.morePolls_one]
    exact leads_discard hs ho (hl 0 (Nat.le_refl 0)) (hv 0 (Nat.le_refl 0))
  | succ n ih =>
    refine (ih (fun i hi => hl i (Nat.le_succ_of_le hi)) (fun i hi => hv i (Nat.le_succ_of_le hi))).trans rfl
      fun f _ hp hr => ?_
    have hlim : (s.morePolls (n + 1)).params.pollLimit ≠ some (s.morePolls (n + 1)).pollCnt := hl (n + 1) (Nat.le_refl _)
    have hval : pollOutcome k ((s.morePolls (n + 1)).sampleAt 0) = none := by
      rw [s.morePolls_sampleAt (n + 1) 0]
      exact hv (n + 1) (Nat.le_refl _)
    have hb := hs.morePolls (n + 1)
    rw [← s.morePolls_polled (n + 1)]
    generalize s.morePolls (n + 1) = u at hlim hval hb hp hr ⊢
    exact leads_discard ((hb.atCode _).withLoose hp hr) rfl hlim hval

/-- The head of a loop (R202). -/
theorem leads_pollStart {s : State} {k : PollLoop} {rest : List SeqOp} (hs : s.Between)
    (ho : s.opstate = .busy (.pollStart k :: rest)) :
    LeadsTo Loose.any s (State.atCode { s with pollCnt := 0 } (.pollTop k :: rest)) :=
  leads_line (t := { s with pollCnt := 0 }) hs ho (fun _ _ _ _ _ => rfl)
    (hs.live.of_eq rfl hs.live.phaseRdRange hs.live.phaseWrRange) hs.lanesIdle rfl (fun _ _ _ => trivial)

/-- A loop up to its `n`-th turn, counted from 0, all samples before it discarded. -/
theorem leads_turns {s : State} {k : PollLoop} {rest : List SeqOp} (hs : s.Between)
    (ho : s.opstate = .busy (.pollStart k :: rest)) (n : Nat) (hl : ∀ i, i < n → s.params.pollLimit ≠ some i)
    (hv : ∀ i, i < n → pollOutcome k (s.sampleAt i) = none) :
    ∃ u : State, LeadsTo Loose.any s (u.atCode (.pollTop k :: rest)) ∧ u.Between ∧ u.div = s.div ∧ u.params = s.params ∧
      u.pollCnt = n ∧ (∀ i, u.sampleAt i = s.sampleAt (n + i)) ∧ u.polled = s.didPolls (n + 1) ∧
      (0 < n → u = s.didPolls n) := by
  have hs0 : State.Between { s with pollCnt := 0 } :=
    hs.of_eq rfl hs.live.phaseRdRange hs.live.phaseWrRange hs.turn rfl rfl
  have e : ∀ m, State.morePolls { s with pollCnt := 0 } m = s.didPolls m := fun m => State.morePolls_zero_cnt rfl m
  cases n with
  | zero =>
    refine ⟨{ s with pollCnt := 0 }, leads_pollStart hs ho, hs0, rfl, rfl, rfl, fun i => by rw [Nat.zero_add]; rfl, ?_,
      fun h => absurd h (Nat.lt_irrefl 0)⟩
    rw [← e, ← State.morePolls_one]
  | succ n =>
    refine ⟨s.didPolls (n + 1), (leads_pollStart hs ho).trans rfl fun f _ hp hr => ?_, hs.didPolls _, rfl, rfl, rfl,
      State.sampleAt_drop (n + 1) rfl rfl, by rw [← e, State.morePolls_polled, e], fun _ => rfl⟩
    rw [← e]
    exact leads_discards ((hs0.atCode _).withLoose hp hr) rfl n
      (fun i hi => by
        show s.params.pollLimit ≠ some (0 + i)
        rw [Nat.zero_add]
        exact hl i (Nat.lt_succ_of_le hi)) (fun i hi => hv i (Nat.lt_succ_of_le hi))

/-- A loop that ends well at the sample after `n` discarded ones: the code after it goes on, that sample in hand. -/
theorem leads_loop_exit {s : State} {k : PollLoop} {rest : List SeqOp} {n : Nat} (hs : s.Between)
    (ho : s.opstate = .busy (.pollStart k :: rest)) (h : s.PollEnds k n true) :
    LeadsTo (fun f => f.smp = s.sampleAt n) s ((s.didPolls (n + 1)).atCode rest) := by
  have lim : ∀ i, i ≤ n → s.params.pollLimit ≠ some i := fun i hi e => Nat.not_lt_of_le hi (h.within i e)
  obtain ⟨u, h1, hb, hd, hpar, hc, hu, hend, -⟩ := leads_turns hs ho n (fun i hi => lim i (Nat.le_of_lt hi)) h.discarded
  have e0 : u.sampleAt 0 = s.sampleAt n := hu 0
  refine h1.trans hd fun f _ hp hr => ?_
  rw [← hend, ← e0]
  exact leads_exit ((hb.atCode _).withLoose hp hr) rfl (by
    show u.params.pollLimit ≠ some u.pollCnt
    rw [hpar, hc]; exact lim n (Nat.le_refl n)) ((congrArg _ e0).trans h.decided)

/-- A loop that meets a device error ends the operation with FAIL. -/
theorem leads_loop_fail {s : State} {k : PollLoop} {rest : List SeqOp} {n : Nat} (hs : s.Between)
    (ho : s.opstate = .busy (.pollStart k :: rest)) (h : s.PollEnds k n false) :
    LeadsTo Loose.any s ((s.didPolls (n + 1)).ended .fail) := by
  have lim : ∀ i, i ≤ n → s.params.pollLimit ≠ some i := fun i hi e => Nat.not_lt_of_le hi (h.within i e)
  obtain ⟨u, h1, hb, hd, hpar, hc, hu, hend, -⟩ := leads_turns hs ho n (fun i hi => lim i (Nat.le_of_lt hi)) h.discarded
  refine h1.trans hd fun f _ hp hr => ?_
  rw [← hend]
  exact leads_fail ((hb.atCode _).withLoose hp hr) rfl (by
    show u.params.pollLimit ≠ some u.pollCnt
    rw [hpar, hc]; exact lim n (Nat.le_refl n)) ((congrArg _ (hu 0)).trans h.decided)

/-- A loop whose limit is used up ends the operation with TIMEOUT, with no poll beyond the limit (R202, R335). -/
theorem leads_loop_timeout {s : State} {k : PollLoop} {rest : List SeqOp} {limit : Nat} (hs : s.Between)
    (ho : s.opstate = .busy (.pollStart k :: rest)) (h : s.PollTimesOut k limit) :
    LeadsTo Loose.any s ((s.didPolls limit).ended .timeout) := by
  obtain ⟨u, h1, hb, hd, hpar, hc, -, -, hu⟩ := leads_turns hs ho limit
    (fun i hi e => Nat.ne_of_lt hi (Option.some.inj (e.symm.trans h.limited))) h.discarded
  rw [← hu h.positive]
  refine h1.trans hd fun f _ hp hr => ?_
  refine leads_finish (s := (u.atCode (.pollTop k :: rest)).withLoose f) ((hb.atCode _).withLoose hp hr) rfl
    fun a b p r w => ?_
  show pollTurn k rest _ = _
  rw [pollTurn, if_pos]
  show u.params.pollLimit = some u.pollCnt
  rw [hpar, hc, h.limited]

end Sys2Proof.Machine
end

