-- ==== Sys2Proof/Laws/StepCases.lean ====
section
/-! SUPPORT. What one step can do, said once: the three turns, and for each turn every state it can leave. Statements about
every step follow by cases on these, with no meaning unfolded again. -/

namespace Sys2Proof.Machine

/-- A step is power-on reset, or the turn of the agent whose turn it is. -/
theorem step_cases {s t : State} (h : step s = .next t) :
    (s.por = true ∧ t = s.powerOnReset) ∨
    (s.por = false ∧ s.opstate ≠ .faulted ∧
      ((s.turn = .sequencer ∧ sequencerTurn { s with turn := .rdLane } = .next t) ∨
        (s.turn = .rdLane ∧ rdLaneTurn { s with turn := .wrLane } = .next t) ∨
        (s.turn = .wrLane ∧ wrLaneTurn { s with turn := .sequencer } = .next t))) := by
  unfold step agentTurn at h
  split at h
  · cases h; exact .inl ⟨by assumption, rfl⟩
  · rename_i hpor
    refine .inr ⟨by simpa using hpor, ?_⟩
    split at h
    · cases h
    · refine ⟨by assumption, ?_⟩
      split at h
      · exact .inl ⟨by assumption, h⟩
      · exact .inr (.inl ⟨by assumption, h⟩)
      · exact .inr (.inr ⟨by assumption, h⟩)


/-- What a turn of the RD lane can leave (R30, R147, R150 to R154). -/
inductive RdCase (s t : State) : Prop
  | disabled (h : t = s)
  | count (hn : s.phaseRd ≠ s.div - 1#16) (h : t = { s with phaseRd := s.phaseRd + 1#16 })
  | starve (hpc : s.pcRd = 0#3) (hq : s.inqRd = []) (h : t = { s with phaseRd := 0#16, stalledRd := true, pcRd := 0#3 })
  | getcnt (w : BitVec 32) (more : List (BitVec 32)) (hpc : s.pcRd = 0#3) (hq : s.inqRd = w :: more)
      (h : t = { s with phaseRd := 0#16, x := w, inqRd := more, pcRd := 1#3 })
  | strobe (hpc : s.pcRd = 1#3) (h : t = { s with phaseRd := 0#16, rdStb := true, pcRd := 2#3 })
  | hold (hpc : s.pcRd = 2#3) (h : t = { s with phaseRd := 0#16, pcRd := 3#3 })
  | full (hpc : s.pcRd = 3#3) (hf : isFull s.params s.rxq = true) (h : t = { s with phaseRd := 0#16, pcRd := 3#3 })
  | sample (v : BusWord) (hpc : s.pcRd = 3#3) (hf : isFull s.params s.rxq = false)
      (h : t = { s with
        phaseRd := 0#16, pcRd := 4#3, rxq := s.rxq ++ [v], samples := s.samples.tail, drawn := s.drawn + 1
        trace := s.trace ++ [.rd s.cs s.da v] })
  | last (hpc : s.pcRd = 4#3) (hx : s.x = 0#32) (h : t = { s with phaseRd := 0#16, rdStb := false, pcRd := 0#3 })
  | again (hpc : s.pcRd = 4#3) (hx : s.x ≠ 0#32)
      (h : t = { s with phaseRd := 0#16, rdStb := false, pcRd := 1#3, x := s.x - 1#32 })

/-- The RD lane's turn, by its cases. -/
theorem rd_cases {s t : State} (h : rdLaneTurn s = .next t) : RdCase s t := by
  unfold rdLaneTurn at h
  split at h
  · rcases Nat.lt_or_ge s.pcRd.toNat 5 with hpc | hpc
    · rcases rdSlot_cases _ (Nat.le_of_lt_succ hpc) with e | e | e | e | e
      · simp only [runCode, decode, decodeRdSlot, e, exec] at h
        cases hq : s.inqRd with
        | nil =>
          simp only [execRdGetcnt, hq] at h
          cases h
          exact .starve e hq (by rw [hq])
        | cons w r =>
          simp only [execRdGetcnt, hq] at h
          cases h
          exact .getcnt w r e hq rfl
      · simp only [runCode, decode, decodeRdSlot, e, exec] at h
        cases h
        exact .strobe e rfl
      · simp only [runCode, decode, decodeRdSlot, e, exec] at h
        cases h
        exact .hold e rfl
      · simp only [runCode, decode, decodeRdSlot, e, exec] at h
        change execRdSample _ = _ at h
        cases hf : isFull s.params s.rxq
        · simp only [execRdSample, hf] at h
          cases h
          exact .sample _ e hf rfl
        · simp only [execRdSample, hf] at h
          cases h
          exact .full e hf rfl
      · simp only [runCode, decode, decodeRdSlot, e, exec] at h
        change execRdRstbHiLoop _ = _ at h
        by_cases hx : s.x = 0#32
        · simp only [execRdRstbHiLoop, hx] at h
          cases h
          exact .last e hx (by rw [hx])
        · simp only [execRdRstbHiLoop, hx] at h
          cases h
          exact .again e hx rfl
    · exfalso
      have : ∀ k : BitVec 3, 5 ≤ k.toNat → decodeRdSlot k = .error .noLaneSlot := by decide
      simp [runCode, decode, this _ hpc] at h
  · rename_i hn
    split at h
    · cases h
      refine .count ?_ rfl
      rename_i he
      simpa [State.rdTicks, he] using hn
    · cases h
      exact .disabled rfl

/-- What a turn of the WR lane can leave (R30, R147, R155 to R158). -/
inductive WrCase (s t : State) : Prop
  | disabled (h : t = s)
  | count (hn : s.phaseWr ≠ s.div - 1#16) (h : t = { s with phaseWr := s.phaseWr + 1#16 })
  | starve (hpc : s.pcWr = 0#2) (hq : s.inqWr = [])
      (h : t = { s with phaseWr := 0#16, stalledWr := true, ddOe := false, pcWr := 0#2 })
  | getdata (w : BusWord) (more : List BusWord) (hpc : s.pcWr = 0#2) (hq : s.inqWr = w :: more)
      (h : t = { s with phaseWr := 0#16, osr := w, ddOut := w, ddOe := true, inqWr := more, pcWr := 1#2 })
  | strobe (hpc : s.pcWr = 1#2) (h : t = { s with phaseWr := 0#16, wrStb := true, pcWr := 2#2 })
  | hold (hpc : s.pcWr = 2#2) (h : t = { s with phaseWr := 0#16, pcWr := 3#2 })
  | finish (hpc : s.pcWr = 3#2)
      (h : t = { s with phaseWr := 0#16, wrStb := false, pcWr := 0#2, trace := s.trace ++ [.wr s.cs s.da s.osr] })

/-- The WR lane's turn, by its cases. -/
theorem wr_cases {s t : State} (h : wrLaneTurn s = .next t) : WrCase s t := by
  unfold wrLaneTurn at h
  split at h
  · rcases wrSlot_cases s.pcWr with e | e | e | e
    · simp only [runCode, decode, decodeWrSlot, e, exec] at h
      cases hq : s.inqWr with
      | nil =>
        simp only [execWrGetdata, hq] at h
        cases h
        exact .starve e hq (by rw [hq])
      | cons w r =>
        simp only [execWrGetdata, hq] at h
        cases h
        exact .getdata w r e hq rfl
    · simp only [runCode, decode, decodeWrSlot, e, exec] at h
      cases h
      exact .strobe e rfl
    · simp only [runCode, decode, decodeWrSlot, e, exec] at h
      cases h
      exact .hold e rfl
    · simp only [runCode, decode, decodeWrSlot, e, exec] at h
      cases h
      exact .finish e rfl
  · rename_i hn
    split at h
    · cases h
      refine .count ?_ rfl
      rename_i he
      simpa [State.wrTicks, he] using hn
    · cases h
      exact .disabled rfl

/-- What a turn of the sequencer can leave: while IDLE the host's request (R101, R280, R320), while BUSY one line of the
running operation (R12). -/
inductive SeqCase (s t : State) : Prop
  | stay (h : t = s)
  | withheld (p : List Bool) (h : t = { s with pace := p })
  | answer (r : HostReq) (m : List HostReq) (v : IdValue) (ho : s.opstate = .idle) (hp : s.port = r :: m)
      (h : t = { s with port := m, answer := v })
  | noop (r : HostReq) (m : List HostReq) (ho : s.opstate = .idle) (hp : s.port = r :: m) (h : t = { s with port := m })
  | violation (r : HostReq) (m : List HostReq) (v : Violation) (ho : s.opstate = .idle) (hp : s.port = r :: m)
      (h : t = { s with port := m, res := .fatal, opstate := .faulted, reason := some v })
  | configure (r : HostReq) (m : List HostReq) (ct : BitVec 32) (ho : s.opstate = .idle) (hp : s.port = r :: m)
      (hr : r = .retime ∨ ∃ cw cdb, r = .command cw cdb ∧ decode (.h64 cw cdb) = .ok (.configure ct))
      (hi : s.lanesIdle = true) (ha : s.access = .none) (hd : divisor s.params ct.toNat ≤ 65535)
      (h : t = { s with
        port := m, enRd := true, enWr := true, div := BitVec.ofNat 16 (divisor s.params ct.toNat), phaseRd := 0#16
        phaseWr := 0#16, res := .ok, opstate := .idle })
  | accepted (r : HostReq) (m : List HostReq) (code : List SeqOp) (e : Nat) (ho : s.opstate = .idle)
      (hp : s.port = r :: m) (h : t = { s with port := m, opstate := .busy code, emitted := e })
  | done (p : List Bool) (r : ResCode) (ho : ∃ c, s.opstate = .busy c) (ha : s.access = .none)
      (h : t = { s with pace := p, res := r, opstate := .idle })
  | badAddress (p : List Bool) (r : Violation) (rest : List SeqOp) (ra : BitVec 4)
      (ho : s.opstate = .busy (.setAddr ra :: rest))
      (h : t = { s with pace := p, res := .fatal, opstate := .faulted, reason := some r })
  | setAddr (p : List Bool) (ra : BitVec 4) (rest : List SeqOp) (ho : s.opstate = .busy (.setAddr ra :: rest))
      (ha : s.access = .none) (hi : s.lanesIdle = true)
      (h : t = { s with
        pace := p, opstate := .busy rest, cs := csOf ra, da := daOf ra, access := .addressed
        trace := s.trace ++ [addrEvent ra] })
  | pushRd (p : List Bool) (w : BitVec 32) (c : List SeqOp) (ho : ∃ c, s.opstate = .busy c) (ha : s.access = .addressed)
      (h : t = { s with pace := p, opstate := .busy c, inqRd := s.inqRd ++ [w], access := .reading })
  | pushWr (p : List Bool) (w : BusWord) (c : List SeqOp) (ho : ∃ c, s.opstate = .busy c)
      (ha : s.access = .addressed ∨ s.access = .writing) (hf : isFull s.params s.inqWr = false)
      (h : t = { s with pace := p, opstate := .busy c, inqWr := s.inqWr ++ [w], access := .writing })
  | clearRd (p : List Bool) (rest : List SeqOp) (ho : s.opstate = .busy (.clearStalled .rd :: rest))
      (h : t = { s with pace := p, opstate := .busy rest, stalledRd := false })
  | clearWr (p : List Bool) (rest : List SeqOp) (ho : s.opstate = .busy (.clearStalled .wr :: rest))
      (h : t = { s with pace := p, opstate := .busy rest, stalledWr := false })
  | moves (p : List Bool) (c : List SeqOp) (pc : Nat) (sr : BitVec 9) (b : Bool) (rv : BusWord)
      (ho : ∃ c, s.opstate = .busy c)
      (h : t = { s with pace := p, opstate := .busy c, pollCnt := pc, sectRem := sr, cond := b, rval := rv })
  | endAccess (p : List Bool) (c : List SeqOp) (q : List BusWord) (v : BusWord) (ho : ∃ c, s.opstate = .busy c)
      (hi : { s with rxq := q }.lanesIdle = true)
      (h : t = { s with pace := p, opstate := .busy c, rxq := q, smp := v, access := .none })
  | emit (p : List Bool) (c : List SeqOp) (v : BusWord) (q : List BusWord) (ho : ∃ c, s.opstate = .busy c)
      (hq : s.rxq = v :: q)
      (h : t = { s with
        pace := p, opstate := .busy c, rxq := q, buf := s.buf.writeWord s.emitted v, emitted := s.emitted + 1 })
  | setRst (p : List Bool) (rest : List SeqOp) (l : Bool) (ho : s.opstate = .busy (.setRst l :: rest))
      (h : t = { s with pace := p, opstate := .busy rest, rst := l, trace := s.trace ++ [.rst l] })
  | delay (p : List Bool) (rest : List SeqOp) (n : Nat) (ho : s.opstate = .busy (.delay n :: rest))
      (h : t = { s with pace := p, opstate := .busy rest, trace := s.trace ++ [.wait n] })
  | capture (p : List Bool) (rest : List SeqOp) (ho : s.opstate = .busy (.capture :: rest))
      (h : t = { s with pace := p, opstate := .busy rest, idArr := s.buf.firstWords 256 })

/-- A register address code either drives the lines or is reserved (R109, R180). -/
theorem runCode_regAddr_cases (ra : BitVec 4) (s : State) :
    runCode (.regAddr ra) s = setAddr ra s ∨ runCode (.regAddr ra) s = raiseViolation .reservedEncoding s := by
  have all : ∀ ra : BitVec 4, ra ∈ [0x0#4, 1#4, 2#4, 3#4, 4#4, 5#4, 6#4, 7#4, 8#4, 9#4, 10#4, 11#4, 12#4, 13#4, 14#4,
      15#4] := by decide
  have h := all ra
  simp only [List.mem_cons, List.not_mem_nil, or_false] at h
  rcases h with rfl | rfl | rfl | rfl | rfl | rfl | rfl | rfl | rfl | rfl | rfl | rfl | rfl | rfl | rfl | rfl <;>
    first | exact .inl rfl | exact .inr rfl

/-- What a command word can do when it is taken from the port. -/
theorem exec_host {s t : State} {i : Instr} {cw : BitVec 64} {cdb : Cdb} {r : HostReq} {m : List HostReq}
    (ho : s.opstate = .idle) (hp : s.port = r :: m) (hr : r = .command cw cdb) (hd : decode (.h64 cw cdb) = .ok i)
    (h : exec i { s with port := m } = .next t) : SeqCase s t := by
  have hd' := hd
  simp only [decode, decodeH64] at hd
  have conf : ∀ ct, i = .configure ct → SeqCase s t := by
    rintro ct rfl
    simp only [exec, execConfigure] at h
    obtain ⟨_, h⟩ := accept_next h
    split at h
    · cases h
      exact .violation _ _ _ ho hp rfl
    · split at h
      · rename_i h1 h2
        obtain ⟨h3, rfl⟩ := finish_next h
        exact .configure r m ct ho hp (.inr ⟨cw, cdb, hr, hd'⟩) h2 h3 (by simpa [Config.divMax] using h1) rfl
      · cases h
  split at hd <;> (try (unfold onlyFields at hd; split at hd)) <;> cases hd
  all_goals first
   | exact conf _ rfl
   | (simp only [exec, execReservedOpc0, execReservedOpcB, execReservedOpcC, execReservedOpcD, execReservedOpcE,
        execReservedOpcF] at h
      obtain ⟨_, h⟩ := accept_next h
      cases h
      exact .violation _ _ _ ho hp rfl)
   | (simp only [exec, execRdreg, execWrreg, execHwreset, execDevreset, execIsready, execPioread, execRdsect, execIdent,
        execPacket] at h
      obtain ⟨_, h⟩ := accept_next h
      repeat' split at h
      all_goals first
        | (cases h; exact .violation _ _ _ ho hp rfl)
        | (cases h; exact .accepted r m _ _ ho hp rfl))

/-- The sequencer's turn, by its cases. -/
theorem seq_cases {s t : State} (h : sequencerTurn s = .next t) : SeqCase s t := by
  unfold sequencerTurn at h
  split at h
  · cases h
  · rename_i ho
    split at h
    · cases h
      exact .stay rfl
    · rename_i r m hp
      cases r with
      | command cw cdb =>
        simp only [runRequest, runCode] at h
        split at h
        · rename_i i hd
          exact exec_host ho hp rfl hd h
        · obtain ⟨_, h⟩ := accept_next h
          cases h
          exact .violation _ _ _ ho hp rfl
        · cases h
        · cases h
      | accessor f =>
        simp only [runRequest, runCode, decode] at h
        cases f <;> (cases h; exact .answer _ _ _ ho hp rfl)
      | isAta => cases h; exact .answer _ _ _ ho hp rfl
      | maxPioMode => cases h; exact .answer _ _ _ ho hp rfl
      | capacity => cases h; exact .answer _ _ _ ho hp rfl
      | namedFlag n =>
        simp only [runRequest, tellNamedFlag] at h
        split at h <;> (cases h; exact .answer _ _ _ ho hp rfl)
      | retime =>
        simp only [runRequest] at h
        split at h
        · rename_i ct _
          simp only [exec, execConfigure] at h
          obtain ⟨_, h⟩ := accept_next h
          split at h
          · cases h
            exact .violation _ _ _ ho hp rfl
          · split at h
            · rename_i h1 h2
              obtain ⟨h3, rfl⟩ := finish_next h
              exact .configure _ m ct ho hp (.inl rfl) h2 h3 (by simpa [Config.divMax] using h1) rfl
            · cases h
        · cases h
          exact .noop _ _ ho hp rfl
  · rename_i code ho
    split at h
    · cases h
      exact .withheld _ rfl
    · split at h
      · obtain ⟨h1, rfl⟩ := finish_next h
        exact .done _ _ ⟨_, ho⟩ h1 rfl
      · rename_i pace _ op rest
        cases op with
        | setAddr ra =>
          simp only [runLine] at h
          rcases runCode_regAddr_cases ra { s with pace := s.pace.tail, opstate := .busy rest } with e | e <;> rw [e] at h
          · obtain ⟨h1, h2, rfl⟩ := setAddr_next h
            exact .setAddr _ _ _ ho h1 h2 rfl
          · cases h
            exact .badAddress _ _ _ _ ho rfl
        | handRd w =>
          simp only [runLine] at h
          split at h
          · cases h
            exact .moves _ _ _ _ _ _ ⟨_, ho⟩ rfl
          · obtain ⟨h1, rfl⟩ := pushRd_next h
            exact .pushRd _ _ _ ⟨_, ho⟩ h1 rfl
        | handWr w =>
          simp only [runLine] at h
          split at h
          · cases h
            exact .moves _ _ _ _ _ _ ⟨_, ho⟩ rfl
          · rename_i hf
            obtain ⟨h1, rfl⟩ := pushWr_next h
            exact .pushWr _ _ _ ⟨_, ho⟩ h1 (by simpa using hf) rfl
        | clearStalled l =>
          cases l <;> cases h
          · exact .clearRd _ _ ho rfl
          · exact .clearWr _ _ ho rfl
        | await l =>
          cases l <;> simp only [runLine] at h <;> split at h
          · cases h
            exact .moves _ _ _ _ _ _ ⟨_, ho⟩ rfl
          · cases h
            exact .moves _ _ _ _ _ _ ⟨_, ho⟩ rfl
          · obtain ⟨h1, rfl⟩ := endAccess_next h
            exact .endAccess _ _ s.rxq _ ⟨_, ho⟩ h1 rfl
          · cases h
            exact .moves _ _ _ _ _ _ ⟨_, ho⟩ rfl
        | take =>
          simp only [runLine] at h
          split at h
          · obtain ⟨h1, h2, rfl⟩ := takeSample_next h
            exact .endAccess _ _ _ _ ⟨_, ho⟩ h2 rfl
          · cases h
            exact .moves _ _ _ _ _ _ ⟨_, ho⟩ rfl
        | drain =>
          simp only [runLine] at h
          split at h
          · rename_i hq; cases h; exact .emit _ _ _ _ ⟨_, ho⟩ hq rfl
          · split at h
            · obtain ⟨h1, rfl⟩ := endAccess_next h
              exact .endAccess _ _ s.rxq _ ⟨_, ho⟩ h1 rfl
            · cases h
              exact .moves _ _ _ _ _ _ ⟨_, ho⟩ rfl
        | setRval => cases h; exact .moves _ _ _ _ _ _ ⟨_, ho⟩ rfl
        | pollStart k => cases h; exact .moves _ _ _ _ _ _ ⟨_, ho⟩ rfl
        | pollTop k =>
          rcases pollTurn_next h with ⟨_, h1, rfl⟩ | ⟨_, rfl⟩
          · exact .done _ _ ⟨_, ho⟩ h1 rfl
          · exact .moves _ _ _ _ _ _ ⟨_, ho⟩ rfl
        | test b => cases b <;> (cases h; exact .moves _ _ _ _ _ _ ⟨_, ho⟩ rfl)
        | branch d =>
          rcases takeBranch_next h with ⟨c, v, rfl⟩ | ⟨r, h1, rfl⟩
          · exact .moves _ _ _ _ _ _ ⟨_, ho⟩ rfl
          · exact .done _ _ ⟨_, ho⟩ h1 rfl
        | setRst l => cases h; exact .setRst _ _ _ ho rfl
        | delay n => cases h; exact .delay _ _ _ ho rfl
        | issue c =>
          simp only [runLine, runCode, decode, decodeAtaCmd] at h
          split at h
          · rename_i hd
            repeat' split at hd
            all_goals first | (cases hd; done) | (cases hd; cases h; exact .moves _ _ _ _ _ _ ⟨_, ho⟩ rfl)
          · obtain ⟨h1, h⟩ := accept_next h; simp at h1
          · cases h
          · cases h
        | sendPacket c =>
          simp only [runLine, runPacket, decode, decodeCdb] at h
          split at h
          · rename_i hd
            repeat' split at hd
            all_goals first | (cases hd; done) | (cases hd; cases h; exact .moves _ _ _ _ _ _ ⟨_, ho⟩ rfl)
          · cases h
            exact .moves _ _ _ _ _ _ ⟨_, ho⟩ rfl
        | setSectRem n => cases h; exact .moves _ _ _ _ _ _ ⟨_, ho⟩ rfl
        | sectTop => simp only [runLine] at h; split at h <;> (cases h; exact .moves _ _ _ _ _ _ ⟨_, ho⟩ rfl)
        | sectDec => cases h; exact .moves _ _ _ _ _ _ ⟨_, ho⟩ rfl
        | capture => cases h; exact .capture _ _ ho rfl

/-- A line of the running operation adds lines of the primitives and the loops alone, none of them a reset-line assignment. -/
theorem busy_resetLines {s t : State} {c c' : List SeqOp} (hb : s.opstate = .busy c) (h : sequencerTurn s = .next t)
    (ht : t.opstate = .busy c') : ∀ level, .setRst level ∈ c' → SeqOp.setRst level ∈ c := by
  intro level
  unfold sequencerTurn at h
  rw [hb] at h
  simp only at h
  split at h
  · cases h
    cases ht; exact id
  · split at h
    · obtain ⟨h1, rfl⟩ := finish_next h; simp at ht
    · rename_i pace _ op rest
      have key : ∀ l : List SeqOp, (∀ level, SeqOp.setRst level ∉ l) → SeqOp.setRst level ∈ l ++ rest →
          SeqOp.setRst level ∈ op :: rest := by
        intro l hl hm
        rcases List.mem_append.mp hm with h | h
        · exact absurd h (hl _)
        · exact List.mem_cons_of_mem _ h
      cases op with
      | setAddr ra =>
        simp only [runLine] at h
        rcases runCode_regAddr_cases ra { s with pace := s.pace.tail, opstate := .busy rest } with e | e <;> rw [e] at h
        · obtain ⟨h1, h2, rfl⟩ := setAddr_next h
          cases ht; exact List.mem_cons_of_mem _
        · cases h; cases ht
      | handRd w =>
        simp only [runLine] at h
        split at h
        · cases h; cases ht; exact id
        · obtain ⟨h1, rfl⟩ := pushRd_next h
          cases ht; exact List.mem_cons_of_mem _
      | handWr w =>
        simp only [runLine] at h
        split at h
        · cases h; cases ht; exact id
        · obtain ⟨h1, rfl⟩ := pushWr_next h
          cases ht; exact List.mem_cons_of_mem _
      | clearStalled l => cases l <;> cases h <;> cases ht <;> exact List.mem_cons_of_mem _
      | await l =>
        cases l <;> simp only [runLine] at h <;> split at h
        · cases h; cases ht; exact List.mem_cons_of_mem _
        · cases h; cases ht; exact id
        · obtain ⟨h1, rfl⟩ := endAccess_next h
          cases ht; exact List.mem_cons_of_mem _
        · cases h; cases ht; exact id
      | take =>
        simp only [runLine] at h
        split at h
        · obtain ⟨h1, h2, rfl⟩ := takeSample_next h
          cases ht; exact List.mem_cons_of_mem _
        · cases h; cases ht; exact id
      | drain =>
        simp only [runLine] at h
        split at h
        · cases h; cases ht; exact id
        · split at h
          · obtain ⟨h1, rfl⟩ := endAccess_next h
            cases ht; exact List.mem_cons_of_mem _
          · cases h; cases ht; exact id
      | setRval => cases h; cases ht; exact List.mem_cons_of_mem _
      | pollStart k => cases h; cases ht; exact key [.pollTop k] (by simp)
      | pollTop k =>
        rcases pollTurn_next h with ⟨_, h1, rfl⟩ | ⟨_, rfl⟩
        · cases ht
        · cases ht
          exact key _ (by simp [memRead])
      | test b => cases b <;> (cases h; cases ht; exact List.mem_cons_of_mem _)
      | branch d =>
        simp only [runLine] at h
        cases d with
        | loopBsy k =>
          simp only [takeBranch] at h
          split at h
          · cases h; cases ht; exact key [.pollTop k] (by simp)
          · cases k <;> cases h <;> cases ht
            · exact List.mem_cons_of_mem _
            · exact key [.test .drdy, .branch .readyDrdy] (by simp)
            · exact key [.test .drq, .branch .drqDrq] (by simp)
        | readyDrdy =>
          simp only [takeBranch] at h
          split at h <;> cases h <;> cases ht
          · exact List.mem_cons_of_mem _
          · exact key [.pollTop .ready] (by simp)
        | drqDrq =>
          simp only [takeBranch] at h
          split at h <;> cases h <;> cases ht
          · exact List.mem_cons_of_mem _
          · exact key [.test .err, .branch .drqErr] (by simp)
        | drqErr =>
          simp only [takeBranch] at h
          split at h
          · obtain ⟨h1, rfl⟩ := finish_next h; simp at ht
          · cases h; cases ht; exact key [.pollTop .drq] (by simp)
        | devResetErr =>
          simp only [takeBranch] at h
          obtain ⟨h1, rfl⟩ := finish_next h; simp at ht
        | isReadyBsy =>
          simp only [takeBranch] at h
          split at h <;> cases h <;> cases ht
          · exact List.mem_cons_of_mem _
          · exact key [.test .drdy, .branch .isReadyDrdy] (by simp)
        | isReadyDrdy => cases h; cases ht; exact List.mem_cons_of_mem _
      | setRst l => cases h; cases ht; exact List.mem_cons_of_mem _
      | delay n => cases h; cases ht; exact List.mem_cons_of_mem _
      | issue c =>
        simp only [runLine, runCode, decode, decodeAtaCmd] at h
        split at h
        · rename_i hd
          repeat' split at hd
          all_goals first
            | (cases hd; done)
            | (cases hd; cases h; cases ht; exact key (issueCommand _) (by simp [issueCommand, memWrite]))
        · obtain ⟨h1, h⟩ := accept_next h; simp at h1
        · cases h
        · cases h
      | sendPacket c =>
        have e : ∀ u : Cdb, ∀ level, SeqOp.setRst level ∉ memWriteBurst Config.raData (packetWords u) := by
          intro u; simp [memWriteBurst]
        simp only [runLine, runPacket, decode, decodeCdb] at h
        split at h
        · rename_i hd
          repeat' split at hd
          all_goals first | (cases hd; done) | (cases hd; cases h; cases ht; exact key _ (e _))
        · cases h; cases ht; exact key _ (e _)
      | setSectRem n => cases h; cases ht; exact List.mem_cons_of_mem _
      | sectTop =>
        simp only [runLine] at h
        split at h <;> cases h <;> cases ht
        · exact List.mem_cons_of_mem _
        · intro hm
          refine key (pioRead (BitVec.ofNat 32 Config.sectorWords) ++ [.sectDec, .sectTop]) (by simp [pioRead, memReadBurst]) ?_
          simpa using hm
      | sectDec => cases h; cases ht; exact List.mem_cons_of_mem _
      | capture => cases h; cases ht; exact List.mem_cons_of_mem _

end Sys2Proof.Machine
end

