-- ==== Sys2Proof/Tests/Slice0.lean ====
section
/-! SUPPORT. Tests: the checks of WellFormed on ill-formed operands, decoding of words written out from 30_encoding.md and
95_test_vectors.md, one-step vectors of 95_test_vectors.md, and for each obligation with hypotheses a concrete state and
operands that meet them. -/

namespace Sys2Proof.Tests

open Sys2Proof Sys2Proof.Machine

/-- One field of the next state. -/
def field {α : Type} (r : Host.Outcome State Fault Refusal) (g : State → α) : Option α :=
  match r with
  | .next t => some (g t)
  | _ => none

/-- The engine after `configure 0` from reset: both lanes enabled, `DIV` 1. -/
def live : State := { State.reset with enRd := true, enWr := true }

/-- That engine with a script of samples. -/
def scripted (script : List BusWord) : State := { live with samples := script }

/-- That engine at these lines of a running operation. -/
def busyAt (code : List SeqOp) : State := { live with opstate := .busy code }

/-- That engine with an identify array that holds these words. -/
def withId (ws : List (Nat × BusWord)) : State :=
  { live with idArr := ws.foldl (fun m w => m.writeWord w.1 w.2) [] }

/-! ### WellFormed refuses ill-formed operands (R104, R109) -/

theorem test_rdreg_reserved_address : wellFormed (.rdreg 0x8#4) = false ∧ wellFormed (.rdreg 0xF#4) = false := by decide
theorem test_wrreg_reserved_address : wellFormed (.wrreg 0xD#4 0#16) = false := by decide
theorem test_pioread_no_words : wellFormed (.pioread 0#32) = false ∧ wellFormed (.pioread 1#32) = true := by decide
theorem test_rdsect_count_low : wellFormed (.rdsect 0#1 0#32 0#16) = false ∧ wellFormed (.rdsect 0#1 0#32 1#16) = true := by
  decide
theorem test_rdsect_count_high :
    wellFormed (.rdsect 0#1 0#32 257#16) = false ∧ wellFormed (.rdsect 0#1 0#32 256#16) = true := by decide
theorem test_rdsect_lba :
    wellFormed (.rdsect 0#1 0x10000000#32 1#16) = false ∧ wellFormed (.rdsect 0#1 0x0FFFFFFF#32 1#16) = true := by decide

/-! ### Decoding, word by word (R100, R102, R105; V-A10 to V-A19, V-E1 to V-E18) -/

/-- A command word alone. -/
def word (cw : BitVec 64) : Except DecodeError Instr := decode (.h64 cw Cdb.zero)

/-- The INQUIRY block of V-K1. -/
def inquiryBlock : Cdb := ⟨0x12#8, ⟨0, 0, 0, 0x24, 0, 0, 0, 0, 0, 0, 0⟩⟩

theorem test_decode_configure :
    word 0x0000025800000001 = .ok (.configure 600#32) ∧ word 0x0000007800000001 = .ok (.configure 120#32) := by decide
theorem test_decode_rdreg :
    word 0x00000000000000E2 = .ok (.rdreg 0x7#4) ∧ word 0x00000000000001C2 = .ok (.rdreg 0xE#4) ∧
      word 0x0000000000000002 = .ok (.rdreg 0x0#4) ∧ word 0x0000000000000022 = .ok (.rdreg 0x1#4) := by decide
theorem test_decode_wrreg :
    word 0x0000000000EC00E3 = .ok (.wrreg 0x7#4 0x00EC#16) ∧ word 0x00000000001000C3 = .ok (.wrreg 0x6#4 0x0010#16) ∧
      word 0x0000000000000023 = .ok (.wrreg 0x1#4 0#16) ∧ word 0x00000000BEEF0003 = .ok (.wrreg 0x0#4 0xBEEF#16) := by
  decide
theorem test_decode_hwreset : word 0x0000000000000004 = .ok .hwreset := by decide
theorem test_decode_devreset :
    word 0x0000000000000005 = .ok (.devreset 0#1) ∧ word 0x0000000000000015 = .ok (.devreset 1#1) := by decide
theorem test_decode_isready : word 0x0000000000000006 = .ok .isready := by decide
theorem test_decode_pioread :
    word 0x0000001200000007 = .ok (.pioread 18#32) ∧ word 0x0000040000000007 = .ok (.pioread 1024#32) := by decide
theorem test_decode_rdsect :
    word 0x0123456700010018 = .ok (.rdsect 1#1 0x01234567#32 1#16) ∧
      word 0x0000000001000008 = .ok (.rdsect 0#1 0#32 256#16) ∧
      word 0x0FFFFFFF00010008 = .ok (.rdsect 0#1 0x0FFFFFFF#32 1#16) := by decide
theorem test_decode_ident :
    word 0x0000000000000009 = .ok (.ident 0#1 0#1) ∧ word 0x0000000000000209 = .ok (.ident 0#1 1#1) ∧
      word 0x0000000000000219 = .ok (.ident 1#1 1#1) := by decide
theorem test_decode_packet :
    decode (.h64 0x000000000024000A inquiryBlock) = .ok (.packet 0#1 36#16 inquiryBlock) ∧
      word 0x000000000000001A = .ok (.packet 1#1 0#16 Cdb.zero) := by decide
theorem test_decode_reserved_operations :
    word 0x0000000000000000 = .ok (.reservedOpc0 ⟨0, 0, 0, 0, 0, 0⟩) ∧
      word 0x000000000000000B = .ok (.reservedOpcB ⟨0, 0, 0, 0, 0, 0⟩) ∧
      word 0x00000000000000EC = .ok (.reservedOpcC ⟨0, 7, 0, 0, 0, 0⟩) ∧
      word 0x000000000000021D = .ok (.reservedOpcD ⟨1, 0, 1, 0, 0, 0⟩) ∧
      word 0x00000000BEEF040E = .ok (.reservedOpcE ⟨0, 0, 0, 1, 0xBEEF, 0⟩) ∧
      word 0x000000070000000F = .ok (.reservedOpcF ⟨0, 0, 0, 0, 0, 7⟩) := by decide
theorem test_decode_reserved_field :
    word 0x0000000000000014 = .error .reservedField ∧ word 0x00000000000004E2 = .error .reservedField := by decide
theorem test_decode_register_codes :
    [0x0#4, 0x1#4, 0x2#4, 0x3#4, 0x4#4, 0x5#4, 0x6#4, 0x7#4, 0xE#4].map (fun k => decode (.regAddr k)) =
      [.ok .raData, .ok .raErrorFeatures, .ok .raSectorCount, .ok .raLbaLow, .ok .raLbaMid, .ok .raLbaHigh, .ok .raDevice,
        .ok .raStatusCommand, .ok .raAltStatus] := by decide
theorem test_decode_reserved_codes :
    [0x8#4, 0x9#4, 0xA#4, 0xB#4, 0xC#4, 0xD#4, 0xF#4].map (fun k => decode (.regAddr k)) =
      [.ok .raReserved8, .ok .raReserved9, .ok .raReservedA, .ok .raReservedB, .ok .raReservedC, .ok .raReservedD,
        .ok .raReservedF] := by decide
theorem test_decode_status :
    [0x80#8, 0x40#8, 0x20#8, 0x08#8, 0x01#8, 0x16#8].map (fun b => decode (.status b)) =
      [.ok .stBsy, .ok .stDrdy, .ok .stDf, .ok .stDrq, .ok .stErr, .error .noStatusBit] := by decide
theorem test_decode_commands :
    [0x08#8, 0x20#8, 0xA0#8, 0xA1#8, 0xEC#8, 0xEF#8].map (fun b => decode (.ataCmd b)) =
      [.ok .cmdDeviceReset, .ok .cmdReadSectors, .ok .cmdPacket, .ok .cmdIdentifyPacketDevice, .ok .cmdIdentifyDevice,
        .error .noAtaCommand] := by decide
theorem test_decode_scsi :
    [0x00#8, 0x12#8, 0x28#8, 0x03#8].map (fun b => decode (.cdb12 ⟨b, inquiryBlock.body⟩)) =
      [.ok (.scsiTestUnitReady inquiryBlock.body), .ok (.scsiInquiry inquiryBlock.body),
        .ok (.scsiRead10 inquiryBlock.body), .error .scsiNotInScope] := by decide
theorem test_decode_rd_slots :
    [0#3, 1#3, 2#3, 3#3, 4#3, 5#3].map (fun k => decode (.rdSlot k)) =
      [.ok .rdGetcnt, .ok .rdRstbLo, .ok .rdRhold, .ok .rdSample, .ok .rdRstbHiLoop, .error .noLaneSlot] := by decide
theorem test_decode_wr_slots :
    [0#2, 1#2, 2#2, 3#2].map (fun k => decode (.wrSlot k)) =
      [.ok .wrGetdata, .ok .wrWstbLo, .ok .wrWhold, .ok .wrWstbHi] := by decide
theorem test_decode_accessors :
    [IdField.deviceClass, .isAtapi, .removable, .responseIncomplete, .packetSize, .serialNumber, .firmwareRevision,
        .modelNumber, .iordySupported, .iordyCanDisable].map (fun f => decode (.idField f)) =
      [.ok .idDeviceClass, .ok .idIsAtapi, .ok .idRemovable, .ok .idResponseIncomplete, .ok .idPacketSize,
        .ok .idSerialNumber, .ok .idFirmwareRevision, .ok .idModelNumber, .ok .idIordySupported,
        .ok .idIordyCanDisable] := by decide
theorem test_decode_accessors_more :
    [IdField.fieldsValid, .capacitySectors, .advPioModes, .minPioCycleTime, .minPioCycleTimeIordy, .queueDepth,
        .majorVersion, .feature .w83 10#4, .checksumValid, .checksumSumOk].map (fun f => decode (.idField f)) =
      [.ok .idFieldsValid, .ok .idCapacitySectors, .ok .idAdvPioModes, .ok .idMinPioCycleTime,
        .ok .idMinPioCycleTimeIordy, .ok .idQueueDepth, .ok .idMajorVersion, .ok (.idFeature .w83 10#4),
        .ok .idChecksumValid, .ok .idChecksumSumOk] := by decide

/-! ### Operand assembly (V-S3, V-T1 to V-T13, 2.4) -/

theorem test_divisors :
    [0, 1, 32, 33, 120, 180, 240, 383, 600, 2097120, 2097121].map (divisor Config.Params.default) =
      [1, 1, 1, 2, 4, 6, 8, 12, 19, 65535, 65536] := by decide
theorem test_divisors_other_clock :
    [120, 383, 600].map (divisor { Config.Params.default with fSysHz := 133000000 }) = [4, 13, 20] ∧
      [120, 240, 600].map (divisor { Config.Params.default with fSysHz := 150000000 }) = [5, 9, 23] := by decide
theorem test_device_bytes :
    devByteLba Config.Params.default 0 0 = 0x40#8 ∧ devByteLba Config.Params.default 1 0x1234567 = 0x51#8 ∧
      devByteLba Config.Params.default 1 0xFFFFFFF = 0x5F#8 ∧ devByteLba Config.Params.default 1 0xA000000 = 0x5A#8 ∧
      devByteSel Config.Params.default 1 = 0x10#8 := by decide
theorem test_packet_words :
    packetWords ⟨0x28#8, ⟨0, 0, 0, 0x12, 0x34, 0, 0, 1, 0, 0, 0⟩⟩ =
      [0x2800#16, 0x0000#16, 0x1234#16, 0x0000#16, 0x0100#16, 0x0000#16] := by decide
theorem test_packed_pairs : packetWords inquiryBlock = [0x1200#16, 0#16, 0x2400#16, 0#16, 0#16, 0#16] := by decide

/-! ### The text form (R118, R119; V-E8, P4) -/

theorem test_line_of_text :
    assembleLine "rdsect 1, 0x1234567, 1 ; one sector" = some [.command 0x0123456700010018#64 Cdb.zero] := by
  decide +kernel
theorem test_pseudo_operation :
    assembleLine "inquiry 0, 36" =
      some [.command 0x000000000024000A#64 inquiryBlock, .command 0x0000001200000007#64 Cdb.zero] := by decide +kernel

/-! ### One step of each instruction -/

theorem test_configure_installs :
    field (exec (.configure 600#32) State.reset) (fun t => (t.div, t.enRd, t.enWr, t.res, t.opstate)) =
      some (19#16, true, true, .ok, .idle) := by decide
theorem test_configure_range :
    field (exec (.configure 2097121#32) State.reset) (fun t => (t.div, t.enRd, t.res, t.opstate, t.reason)) =
      some (1#16, false, .fatal, .faulted, some .divisorRange) := by decide
theorem test_rdreg_reserved :
    field (exec (.rdreg 0x8#4) live) (fun t => (t.res, t.reason, t.trace)) =
      some (.fatal, some .reservedEncoding, []) := by decide
theorem test_rdreg_begins :
    field (exec (.rdreg 0xE#4) live) State.opstate =
      some (.busy [.setAddr 0xE#4, .handRd 0#32, .clearStalled .rd, .await .rd, .take, .setRval]) := by decide
theorem test_wrreg_begins :
    field (exec (.wrreg 0x0#4 0xBEEF#16) live) State.opstate =
      some (.busy [.setAddr 0x0#4, .handWr 0xBEEF#16, .clearStalled .wr, .await .wr]) := by decide
theorem test_hwreset_begins :
    field (exec .hwreset live) State.opstate =
      some (.busy [.setRst true, .delay 25000, .setRst false, .delay 2000000, .pollStart .notBusy]) := by decide
theorem test_devreset_writes_the_selector :
    field (exec (.devreset 1#1) live) (fun t => match t.opstate with | .busy code => code[1]? | _ => none) =
      some (some (.handWr 0x0010#16)) := by decide
theorem test_isready_polls_once :
    field (exec .isready live) State.opstate =
      some (.busy [.setAddr 0x7#4, .handRd 0#32, .clearStalled .rd, .await .rd, .take, .test .bsy,
        .branch .isReadyBsy]) := by decide
theorem test_pioread_hands_over_one_less :
    field (exec (.pioread 18#32) live) State.opstate =
      some (.busy [.pollStart .drq, .setAddr 0x0#4, .handRd 17#32, .clearStalled .rd, .drain]) := by decide
theorem test_pioread_no_words_raises :
    field (exec (.pioread 0#32) live) (fun t => (t.opstate, t.reason)) = some (.faulted, some .wordCount) := by decide
theorem test_rdsect_count_before_lba :
    field (exec (.rdsect 0#1 0x10000000#32 0#16) live) State.reason = some (some .sectorCount) ∧
      field (exec (.rdsect 0#1 0x10000000#32 1#16) live) State.reason = some (some .lbaRange) := by decide
theorem test_rdsect_256_goes_out_as_0 :
    field (exec (.rdsect 0#1 0#32 256#16) live) (fun t => match t.opstate with | .busy code => code[2]? | _ => none) =
      some (some (.handWr 0#16)) := by decide
theorem test_ident_command_byte :
    field (exec (.ident 0#1 1#1) live) (fun t => match t.opstate with | .busy code => code[4]? | _ => none) =
      some (some (.issue 0xA1#8)) := by decide
theorem test_packet_limit_bytes :
    field (exec (.packet 0#1 0x1234#16 inquiryBlock) live)
      (fun t => match t.opstate with | .busy code => (code[5]?, code[9]?) | _ => (none, none)) =
      some (some (.handWr 0x0034#16), some (.handWr 0x0012#16)) := by decide
theorem test_reserved_operation :
    field (exec (.reservedOpcB ⟨0, 0, 0, 0, 0, 0⟩) live) (fun t => (t.res.code, t.opstate)) = some (3#2, .faulted) := by
  decide
theorem test_set_address :
    field (exec .raAltStatus live) (fun t => (t.cs, t.da)) = some (0b10#2, 6#3) ∧
      field (exec .raLbaHigh live) (fun t => (t.cs, t.da)) = some (0b01#2, 5#3) := by decide
theorem test_reserved_address : field (exec .raReservedF live) State.reason = some (some .reservedEncoding) := by decide
theorem test_status_bits :
    field (exec .stDrq { live with smp := 0x0058#16 }) State.cond = some true ∧
      field (exec .stErr { live with smp := 0x0058#16 }) State.cond = some false ∧
      field (exec .stBsy { live with smp := 0xFF00#16 }) State.cond = some false := by decide
theorem test_status_bits_more :
    field (exec .stDrdy { live with smp := 0x0050#16 }) State.cond = some true ∧
      field (exec .stDf { live with smp := 0x0020#16 }) State.cond = some true := by decide
theorem test_issue_command :
    field (exec .cmdReadSectors (busyAt [.sectTop])) State.opstate =
      some (.busy [.setAddr 0x7#4, .handWr 0x0020#16, .clearStalled .wr, .await .wr, .sectTop]) := by decide
theorem test_packet_forwarded :
    field (exec (.scsiInquiry inquiryBlock.body) (busyAt [])) State.opstate =
      some (.busy [.setAddr 0x0#4, .handWr 0x1200#16, .handWr 0#16, .handWr 0x2400#16, .handWr 0#16, .handWr 0#16,
        .handWr 0#16, .clearStalled .wr, .await .wr]) := by decide
theorem test_getcnt :
    field (exec .rdGetcnt { live with inqRd := [255#32] }) (fun t => (t.x, t.pcRd, t.inqRd)) =
      some (255#32, 1#3, []) := by decide
theorem test_getcnt_stalls : field (exec .rdGetcnt live) (fun t => (t.stalledRd, t.pcRd)) = some (true, 0#3) := by decide
theorem test_rstb_lo : field (exec .rdRstbLo live) (fun t => (t.rdStb, t.pcRd)) = some (true, 2#3) := by decide
theorem test_rhold : field (exec .rdRhold live) State.pcRd = some 3#3 := by decide
theorem test_sample :
    field (exec .rdSample (scripted [0x0058#16])) (fun t => (t.rxq, t.pcRd)) = some ([0x0058#16], 4#3) := by decide
theorem test_sample_full :
    field (exec .rdSample { scripted [1#16] with rxq := [1, 2, 3, 4], rdStb := true }) (fun t => (t.pcRd, t.rdStb)) =
      some (3#3, true) := by decide
theorem test_rstb_hi_loop :
    field (exec .rdRstbHiLoop { live with x := 255#32, rdStb := true }) (fun t => (t.x, t.pcRd, t.rdStb)) =
      some (254#32, 1#3, false) := by decide
theorem test_rstb_hi_ends : field (exec .rdRstbHiLoop live) State.pcRd = some 0#3 := by decide
theorem test_getdata :
    field (exec .wrGetdata { live with inqWr := [0x00EC#16] }) (fun t => (t.osr, t.ddOut, t.ddOe, t.pcWr)) =
      some (0x00EC#16, 0x00EC#16, true, 1#2) := by decide
theorem test_getdata_stalls :
    field (exec .wrGetdata { live with ddOe := true }) (fun t => (t.stalledWr, t.ddOe)) = some (true, false) := by decide
theorem test_wstb_lo : field (exec .wrWstbLo live) (fun t => (t.wrStb, t.pcWr)) = some (true, 2#2) := by decide
theorem test_whold : field (exec .wrWhold live) State.pcWr = some 3#2 := by decide
theorem test_wstb_hi :
    field (exec .wrWstbHi { live with wrStb := true, ddOe := true, osr := 0xEC#16, cs := 1#2, da := 7#3 })
      (fun t => (t.wrStb, t.pcWr, t.ddOe, t.trace)) = some (false, 0#2, true, [.wr 1#2 7#3 0xEC#16]) := by decide

/-! ### The identify decoder (V-S4, V-S8, V-I1 to V-I25) -/

/-- What an accessor answers on an array that holds these words. -/
def answers (i : Instr) (ws : List (Nat × BusWord)) : Option IdValue := field (exec i (withId ws)) State.answer

theorem test_device_class :
    answers .idDeviceClass [(0, 0x85C0#16)] = some (.num 2) ∧ answers .idIsAtapi [(0, 0xC000#16)] = some (.flag false) ∧
      answers .idIsAtapi [(0, 0x8000#16)] = some (.flag true) := by decide
theorem test_word_zero :
    answers .idRemovable [(0, 0x85C0#16)] = some (.flag true) ∧
      answers .idResponseIncomplete [(0, 0x0044#16)] = some (.flag true) ∧
      answers .idPacketSize [(0, 0x8001#16)] = some (.num 16) ∧
      answers .idPacketSize [(0, 0x85C0#16)] = some (.num 12) := by decide
theorem test_firmware_revision :
    answers .idFirmwareRevision [(23, 0x312E#16), (24, 0x3030#16), (25, 0x2020#16), (26, 0x2020#16)] =
      some (.text [0x31, 0x2E, 0x30, 0x30, 0x20, 0x20, 0x20, 0x20, 0]) := by decide
theorem test_serial_number :
    answers .idSerialNumber [(10, 0x4142#16), (19, 0x5354#16)] =
      some (.text [0x41, 0x42, 0, 0, 0, 0, 0, 0, 0, 0, 0, 0, 0, 0, 0, 0, 0, 0, 0x53, 0x54, 0]) := by decide
theorem test_model_number : answers .idModelNumber [] = some (.text (List.replicate 41 0#8)) := by decide
theorem test_timing_gated :
    answers .idAdvPioModes [(53, 2#16), (64, 3#16)] = some (.num 3) ∧
      answers .idMinPioCycleTime [(53, 2#16), (67, 0xF0#16)] = some (.num 240) ∧
      answers .idMinPioCycleTimeIordy [(53, 2#16), (68, 0x78#16)] = some (.num 120) := by decide
theorem test_timing_ungated :
    answers .idAdvPioModes [(53, 5#16), (64, 3#16)] = some .absent ∧
      answers .idMinPioCycleTime [(53, 5#16), (67, 0xF0#16)] = some .absent ∧
      answers .idMinPioCycleTimeIordy [(53, 5#16), (68, 0x78#16)] = some .absent := by decide
theorem test_iordy :
    answers .idIordySupported [(49, 0x0800#16)] = some (.flag true) ∧
      answers .idIordyCanDisable [(49, 0x0800#16)] = some (.flag false) ∧
      answers .idFieldsValid [(53, 0xFFF7#16)] = some (.num 7) := by decide
theorem test_queue_depth :
    answers .idQueueDepth [(75, 0x001F#16)] = some (.num 32) ∧ answers .idQueueDepth [(75, 0xFFE0#16)] = some (.num 1) := by
  decide
theorem test_major_version :
    answers .idMajorVersion [(80, 0x003E#16)] = some (.num 5) ∧ answers .idMajorVersion [(80, 0x8000#16)] = some (.num 15) ∧
      answers .idMajorVersion [] = some .absent := by decide
theorem test_capacity : answers .idCapacitySectors [(60, 0x5678#16), (61, 0x0123#16)] = some (.num 0x01235678) := by decide
theorem test_capacity_request :
    field (step { withId [(0, 0x0040#16), (60, 0x5678#16), (61, 0x0123#16)] with port := [.capacity] }) State.answer =
      some (.capacity 0x01235678 512) := by decide
theorem test_feature :
    answers (.idFeature .w83 10#4) [(83, 0x4400#16)] = some (.flag true) ∧
      answers (.idFeature .w82 1#4) [(82, 0x0001#16)] = some (.flag false) := by decide
theorem test_feature_ungated :
    answers (.idFeature .w83 10#4) [(83, 0x0400#16)] = some .absent ∧
      answers (.idFeature .w84 10#4) [(84, 0xC400#16)] = some .absent ∧
      answers (.idFeature .w119 10#4) [(119, 0x8400#16)] = some .absent := by decide
theorem test_checksum_valid :
    answers .idChecksumValid [(255, 0x5BA5#16)] = some (.flag true) ∧
      answers .idChecksumValid [(255, 0x5BA4#16)] = some (.flag false) := by decide
theorem test_checksum_ok : answers .idChecksumSumOk [(255, 0x5BA5#16)] = some (.flag true) := by decide +kernel
theorem test_checksum_flipped : answers .idChecksumSumOk [(100, 0x8000#16), (255, 0x5BA5#16)] = some (.flag false) := by decide +kernel

/-! ### Hypotheses that are met: encoding and steps -/

/-- A state in which the host's next request is this one. -/
def asking (r : HostReq) : State := { live with port := [r] }

theorem witness_CommandWordUnique :
    word 0x00000000000000E2 = .ok (.rdreg 0x7#4) ∧
      decode (.h64 0x000000000024000A inquiryBlock) = .ok (.packet 0#1 36#16 inquiryBlock) := by decide
theorem witness_StepRunsPlaced :
    decode (.rdSlot 3#3) = .ok .rdSample ∧ decodeTableWord 64 0x00000000000000E2 = some (.rdreg 0x7#4) ∧
      decodeTableWord 4 0x7 = some .raStatusCommand := by decide
theorem witness_StepRunsRequest :
    (asking (.command 0xE2#64 Cdb.zero)).port = [.command 0xE2#64 Cdb.zero] ∧ word 0xE2 = .ok (.rdreg 0x7#4) ∧
      (asking (.accessor .majorVersion)).port = [.accessor .majorVersion] ∧ live.por = false ∧ live.turn = .sequencer ∧
      live.opstate = .idle := by decide
theorem witness_StepRunsLine :
    (busyAt [.setAddr 0x7#4]).opstate = .busy [.setAddr 0x7#4] ∧ decode (.regAddr 0x7#4) = .ok .raStatusCommand ∧
      decode (.status StatusBit.err.mask) = .ok .stErr ∧ decode (.ataCmd 0x20#8) = .ok .cmdReadSectors ∧
      decode (.cdb12 inquiryBlock) = .ok (.scsiInquiry inquiryBlock.body) ∧ (busyAt []).por = false ∧
      (busyAt []).turn = .sequencer ∧ (busyAt []).pace.head? ≠ some true := by decide
theorem witness_LaneTicks :
    live.por = false ∧ live.opstate ≠ .faulted ∧ State.reset.enRd = false ∧ State.reset.enWr = false ∧
      (live.enRd = true ∧ live.phaseRd = live.div - 1#16 ∧ decode (.rdSlot live.pcRd) = .ok .rdGetcnt) ∧
      (live.enWr = true ∧ live.phaseWr = live.div - 1#16 ∧ decode (.wrSlot live.pcWr) = .ok .wrGetdata) ∧
      ({ live with div := 2#16 }.phaseRd ≠ 2#16 - 1#16) ∧ { live with turn := .rdLane }.turn = .rdLane := by decide
theorem witness_ReservedWordRefused :
    ReservedWord 0x0000000000000000 ∧ ReservedWord 0x000000000000000B ∧ ReservedWord 0x000000000000000F ∧
      ReservedWord 0x0000000000000014 ∧ ReservedWord 0x00000000000004E2 ∧ ReservedWord 0x0000000000000102 ∧
      ReservedWord 0x00000000000001E3 ∧ (asking (.command 0xB#64 Cdb.zero)).port = [.command 0xB#64 Cdb.zero] := by
  unfold ReservedWord
  decide
theorem witness_PortClosedWhileBusy :
    (busyAt [.setRval]).opstate = .busy [.setRval] ∧ (∃ t, step (busyAt [.setRval]) = .next t) ∧
      word 0x0000025800000001 = .ok (.configure 600#32) ∧ word 0xB = .ok (.reservedOpcB ⟨0, 0, 0, 0, 0, 0⟩) ∧
      word 0x0000000000000007 = .ok (.pioread 0#32) := ⟨by decide, ⟨_, rfl⟩, by decide, by decide, by decide⟩

/-! ### Hypotheses that are met: invariants and ownership -/

/-- Inside a read strobe. -/
def reading : State :=
  { busyAt [.await .rd, .take] with access := .reading, pcRd := 2#3, rdStb := true, cs := 1#2, da := 7#3 }

/-- Inside a write strobe, the data driven. -/
def writing : State :=
  { busyAt [.await .wr] with
    access := .writing, pcWr := 2#2, wrStb := true, ddOe := true, ddOut := 0xEC#16, osr := 0xEC#16, cs := 1#2, da := 7#3 }

theorem live_inv : live.Inv :=
  ⟨by decide, by decide, by decide, by decide, by decide, by decide, fun h => absurd rfl h, by decide, by decide, by decide,
    by decide, by decide, by decide, by decide, by decide, by decide, by decide⟩
theorem reading_inv : reading.Inv :=
  ⟨by decide, by decide, by decide, by decide, by decide, by decide, fun h => absurd rfl h, by decide, by decide, by decide,
    by decide, by decide, by decide, by decide, by decide, by decide, by decide⟩
theorem writing_inv : writing.Inv :=
  ⟨by decide, by decide, by decide, by decide, by decide, by decide, fun _ => rfl, by decide, by decide, by decide,
    by decide, by decide, by decide, by decide, by decide, by decide, by decide⟩
theorem witness_StepKeepsInv : writing.Inv ∧ ∃ t, step writing = .next t := ⟨writing_inv, _, rfl⟩
theorem witness_InvGivesBusRules : reading.Inv ∧ live.Inv ∧ live.opstate = .idle := ⟨reading_inv, live_inv, rfl⟩
theorem witness_LinesHoldInStrobe :
    (reading.rdStb = true ∧ ∃ t, step reading = .next t) ∧ writing.wrStb = true ∧ writing.Inv ∧
      ∃ t, step { writing with turn := .wrLane } = .next t := ⟨⟨rfl, _, rfl⟩, rfl, writing_inv, _, rfl⟩
theorem witness_SequencerOwns : live.por = false ∧ live.turn = .sequencer ∧ ∃ t, step (asking .retime) = .next t :=
  ⟨rfl, rfl, _, rfl⟩
theorem witness_LanesOwn :
    (∃ t, step { reading with turn := .rdLane } = .next t) ∧ (∃ t, step { writing with turn := .wrLane } = .next t) ∧
      reading.por = false ∧ writing.por = false := ⟨⟨_, rfl⟩, ⟨_, rfl⟩, rfl, rfl⟩
theorem witness_DivisorOnlyByConfigure :
    field (step (asking (.command 0x0000025800000001#64 Cdb.zero))) State.div = some 19#16 ∧ live.div = 1#16 ∧
      field (step { live with por := true }) State.enRd = some false ∧ live.enRd = true ∧
      field (step { live with div := 19#16, turn := .rdLane }) State.phaseRd = some 1#16 ∧ live.phaseRd = 0#16 ∧
      field (step { live with div := 19#16, phaseWr := 18#16, turn := .wrLane }) State.phaseWr = some 0#16 := by decide
theorem witness_StalledFlagOwners :
    (live.stalledRd = false ∧ field (step { live with turn := .rdLane }) State.stalledRd = some true) ∧
      (live.stalledWr = false ∧ field (step { live with turn := .wrLane }) State.stalledWr = some true) ∧
      field (step { busyAt [.clearStalled .rd] with stalledRd := true }) State.stalledRd = some false ∧
      field (step { busyAt [.clearStalled .wr] with stalledWr := true }) State.stalledWr = some false := by decide
theorem witness_PinOwners :
    field (step (busyAt [.setAddr 0xE#4])) State.cs = some 0b10#2 ∧ field (step (busyAt [.setRst true])) State.rst = some true ∧
      live.cs = 0b00#2 ∧ live.rst = false ∧ word 0x4 = .ok .hwreset ∧
      field (step (asking (.command 0x4#64 Cdb.zero))) State.opstate =
        some (.busy [.setRst true, .delay 25000, .setRst false, .delay 2000000, .pollStart .notBusy]) := by decide
theorem witness_EventsOnlyAdded : ∃ t, step (busyAt [.setRst true]) = .next t := ⟨_, rfl⟩
theorem witness_ResetValues :
    { reading with por := true }.por = true ∧ { live with opstate := .faulted, por := true }.opstate = .faulted ∧
      ∃ t, step { live with opstate := .faulted, por := true } = .next t := ⟨rfl, rfl, _, rfl⟩
theorem witness_FaultedUntilPowerOn :
    { live with opstate := .faulted }.opstate = .faulted ∧ { live with opstate := .faulted }.por = false ∧
      { reading with por := true }.por = true := by decide

/-! ### Hypotheses that are met: operands and the divisor -/

theorem witness_ReservedRaise : live.opstate = .idle ∧ (∃ f, Instr.reservedOpc0 f = .reservedOpc0 f) :=
  ⟨rfl, ⟨0, 0, 0, 0, 0, 0⟩, rfl⟩
theorem witness_OperandViolations :
    live.opstate = .idle ∧ isEnumerator 0x8#4 = false ∧ isEnumerator 0xD#4 = false ∧ isEnumerator 0xF#4 = false ∧
      65535 < divisor live.params (2097121#32).toNat ∧ ((0#16).toNat = 0 ∨ 256 < (0#16).toNat) ∧ 256 < (257#16).toNat ∧
      (1 ≤ (1#16).toNat ∧ (256#16).toNat ≤ 256 ∧ 2 ^ 28 ≤ (0x10000000#32).toNat) := by decide
theorem witness_ConfigureInstalls :
    live.opstate = .idle ∧ live.lanesIdle = true ∧ live.access = .none ∧
      divisor live.params (2097120#32).toNat ≤ 65535 ∧ divisor live.params (0#32).toNat ≤ 65535 ∧
      65535 < divisor live.params (2097121#32).toNat := by decide
theorem witness_ConfigureNeedsIdle :
    { live with pcRd := 1#3 }.opstate = .idle ∧ { live with pcRd := 1#3 }.lanesIdle = false ∧
      divisor live.params (600#32).toNat ≤ 65535 := by decide
theorem witness_DivisorBounds : 119 ≤ 120 := by decide
theorem witness_DivisorLeast :
    1 ≤ 19 ∧ 600 * Config.Params.default.fSysHz ≤ 19 * Config.ipl * 10 ^ 9 ∧
      65535 * Config.ipl * 10 ^ 9 < 2097121 * Config.Params.default.fSysHz := by decide

/-! ### Hypotheses that are met: the host operations -/

/-- With this script the engine is live. -/
theorem scripted_live (script : List BusWord) : (scripted script).Live :=
  ⟨rfl, rfl, by show (0 : Nat) < 1; decide, by show (0 : Nat) < 1; decide, by show 1 ≤ 4; decide, rfl⟩
theorem scripted_waiting (script : List BusWord) : (scripted script).Waiting := ⟨scripted_live script, rfl, rfl, rfl⟩

/-- The same with a poll limit. -/
def limited (limit : Nat) (script : List BusWord) : State :=
  { scripted script with params := { Config.Params.default with pollLimit := some limit } }
/-- With turns withheld from the sequencer, as the late pop of V-L4 asks. -/
theorem withheld_waiting (script : List BusWord) (pace : List Bool) : { scripted script with pace := pace }.Waiting :=
  ⟨⟨rfl, rfl, by show (0 : Nat) < 1; decide, by show (0 : Nat) < 1; decide, by show 1 ≤ 4; decide, rfl⟩, rfl, rfl, rfl⟩
theorem limited_waiting (limit : Nat) (script : List BusWord) : (limited limit script).Waiting :=
  ⟨⟨rfl, rfl, by show (0 : Nat) < 1; decide, by show (0 : Nat) < 1; decide, by show 1 ≤ 4; decide, rfl⟩, rfl, rfl, rfl⟩

/-- V-P1, V-P2: the loop until BSY clears, with and without discarded samples. -/
theorem polls_notBusy :
    (scripted [0x0080, 0x0080, 0x0050]).PollEnds .notBusy 2 true ∧ (scripted [0x0000]).PollEnds .notBusy 0 true :=
  ⟨⟨by decide, by decide, nofun⟩, ⟨by decide, by decide, nofun⟩⟩
/-- V-P5, V-P6: the ready wait. -/
theorem polls_ready : (scripted [0x0080, 0x0000, 0x0040]).PollEnds .ready 2 true ∧ (scripted [0x0041]).PollEnds .ready 0 true :=
  ⟨⟨by decide, by decide, nofun⟩, ⟨by decide, by decide, nofun⟩⟩
/-- V-P10, V-P13: the data-request gate ending well. -/
theorem polls_drq :
    (scripted [0x0080, 0x0000, 0x0008]).PollEnds .drq 2 true ∧ (scripted [0x0059]).PollEnds .drq 0 true :=
  ⟨⟨by decide, by decide, nofun⟩, ⟨by decide, by decide, nofun⟩⟩
/-- V-P9, V-P11: the data-request gate with a device error. -/
theorem polls_error :
    (scripted [0x0081, 0x0051]).PollEnds .drq 1 false ∧ (scripted [0x0051]).PollEnds .drq 0 false :=
  ⟨⟨by decide, by decide, nofun⟩, ⟨by decide, by decide, nofun⟩⟩
/-- V-P17: the limit is tested before a poll, not after. -/
theorem polls_at_limit : (limited 1 [0x0058]).PollEnds .drq 0 true :=
  ⟨by decide, by decide, fun limit h => by cases h; decide⟩
/-- P6, V-P18: loops that use their limit up. -/
theorem polls_timeOut :
    (limited 3 [0x0080, 0x0080, 0x0081]).PollTimesOut .drq 3 ∧ (limited 1 [0x0080]).PollTimesOut .drq 1 ∧
      (limited 1 [0x0080]).PollTimesOut .notBusy 1 ∧ (limited 2 [0x0000, 0x0010]).PollTimesOut .ready 2 :=
  ⟨⟨rfl, by decide, by decide⟩, ⟨rfl, by decide, by decide⟩, ⟨rfl, by decide, by decide⟩, ⟨rfl, by decide, by decide⟩⟩

theorem witness_RdregRuns :
    (scripted [0xAB50]).Waiting ∧ { scripted [0xAB50] with pace := [false, true, true] }.Waiting ∧
      isEnumerator 0xE#4 = true ∧ isEnumerator 0x8#4 = false :=
  ⟨scripted_waiting _, withheld_waiting _ _, by decide, by decide⟩
theorem witness_WrregRuns : live.Waiting ∧ isEnumerator 0x7#4 = true ∧ isEnumerator 0xF#4 = false :=
  ⟨scripted_waiting [], by decide, by decide⟩
theorem witness_HwresetRuns :
    ((scripted [0x0080, 0x0080, 0x0050]).Waiting ∧ (scripted [0x0080, 0x0080, 0x0050]).PollEnds .notBusy 2 true) ∧
      (limited 1 [0x0080]).Waiting ∧ (limited 1 [0x0080]).PollTimesOut .notBusy 1 :=
  ⟨⟨scripted_waiting _, polls_notBusy.1⟩, limited_waiting _ _, polls_timeOut.2.2.1⟩
theorem witness_DevresetRuns :
    ((scripted [0x0000]).Waiting ∧ (scripted [0x0000]).PollEnds .notBusy 0 true) ∧ (limited 1 [0x0080]).Waiting ∧
      (limited 1 [0x0080]).PollTimesOut .notBusy 1 :=
  ⟨⟨scripted_waiting _, polls_notBusy.2⟩, limited_waiting _ _, polls_timeOut.2.2.1⟩
theorem witness_IsreadyRuns : (scripted [0x00C0]).Waiting := scripted_waiting _
theorem witness_PioreadRuns :
    (0#32 = 0#32 ∧ (1#32 : BitVec 32) ≠ 0#32) ∧ ((scripted [0x0059]).Waiting ∧ (scripted [0x0059]).PollEnds .drq 0 true) ∧
      ((scripted [0x0051]).Waiting ∧ (scripted [0x0051]).PollEnds .drq 0 false) ∧
      (limited 3 [0x0080, 0x0080, 0x0081]).Waiting ∧ (limited 3 [0x0080, 0x0080, 0x0081]).PollTimesOut .drq 3 :=
  ⟨⟨rfl, by decide⟩, ⟨scripted_waiting _, polls_drq.2⟩, ⟨scripted_waiting _, polls_error.2⟩, limited_waiting _ _,
    polls_timeOut.1⟩
/-- V-X7: the largest LBA, one sector, ready at the first poll, the gate open at the second. -/
theorem witness_RdsectRuns :
    (scripted [0x0050, 0x0080, 0x0058]).Waiting ∧ wellFormed (.rdsect 0#1 0x0FFFFFFF#32 1#16) = true ∧
      (scripted [0x0050, 0x0080, 0x0058]).PollEnds .ready 0 true ∧
      (((scripted [0x0050, 0x0080, 0x0058]).restarted.didPolls 1).didSectorSetup 0#1 0x0FFFFFFF#32 1#16).SectorsReady [1] ∧
      [1].length = (1#16 : BitVec 16).toNat :=
  ⟨scripted_waiting _, by decide, ⟨by decide, by decide, nofun⟩, ⟨⟨by decide, by decide, nofun⟩, trivial⟩, by decide⟩
/-- 256 sectors and a device error at the gate of the first. -/
theorem witness_RdsectFails :
    (scripted [0x0050, 0x0051]).Waiting ∧ wellFormed (.rdsect 0#1 0#32 256#16) = true ∧
      (scripted [0x0050, 0x0051]).PollEnds .ready 0 true ∧
      (((scripted [0x0050, 0x0051]).restarted.didPolls 1).didSectorSetup 0#1 0#32 256#16).SectorsReady [] ∧
      ([] : List Nat).length < (256#16 : BitVec 16).toNat ∧
      ((((scripted [0x0050, 0x0051]).restarted.didPolls 1).didSectorSetup 0#1 0#32 256#16).didSectors []).PollEnds .drq 0
        false :=
  ⟨scripted_waiting _, by decide, ⟨by decide, by decide, nofun⟩, trivial, by decide, ⟨by decide, by decide, nofun⟩⟩
/-- The limit used up in the ready wait, and at the gate of the first sector. -/
theorem witness_RdsectFails_timeout :
    ((limited 2 [0x0000, 0x0010]).Waiting ∧ (limited 2 [0x0000, 0x0010]).PollTimesOut .ready 2) ∧
      (limited 1 [0x0050, 0x0080]).Waiting ∧ (limited 1 [0x0050, 0x0080]).PollEnds .ready 0 true ∧
      ((((limited 1 [0x0050, 0x0080]).restarted.didPolls 1).didSectorSetup 0#1 0#32 1#16).didSectors []).PollTimesOut .drq
        1 :=
  ⟨⟨limited_waiting _ _, polls_timeOut.2.2.2⟩, limited_waiting _ _,
    ⟨by decide, by decide, fun limit h => by cases h; decide⟩, ⟨rfl, by decide, by decide⟩⟩
theorem witness_IdentRuns :
    ((scripted [0x0059]).Waiting ∧ (scripted [0x0059]).PollEnds .drq 0 true) ∧
      ((scripted [0x0081, 0x0051]).Waiting ∧ (scripted [0x0081, 0x0051]).PollEnds .drq 1 false) ∧
      (limited 1 [0x0080]).Waiting ∧ (limited 1 [0x0080]).PollTimesOut .drq 1 :=
  ⟨⟨scripted_waiting _, polls_drq.2⟩, ⟨scripted_waiting _, polls_error.1⟩, limited_waiting _ _, polls_timeOut.2.1⟩
theorem witness_PacketRuns :
    ((scripted [0x0080, 0x0000, 0x0008]).Waiting ∧ (scripted [0x0080, 0x0000, 0x0008]).PollEnds .drq 2 true) ∧
      ((scripted [0x0051]).Waiting ∧ (scripted [0x0051]).PollEnds .drq 0 false) ∧ (limited 1 [0x0058]).Waiting ∧
      (limited 1 [0x0058]).PollEnds .drq 0 true ∧ (limited 1 [0x0080]).PollTimesOut .drq 1 :=
  ⟨⟨scripted_waiting _, polls_drq.1⟩, ⟨scripted_waiting _, polls_error.2⟩, limited_waiting _ _, polls_at_limit,
    polls_timeOut.2.1⟩
theorem witness_SetupWrites :
    live.params.devFixed = 0#8 ∧ 1 ≤ (1#16).toNat ∧ (256#16).toNat ≤ 256 ∧ (0x0FFFFFFF#32).toNat < 2 ^ 28 := by decide
theorem witness_UnboundedLoopHangs :
    (scripted [0x0080, 0x0080]).Waiting ∧ (scripted [0x0080, 0x0080]).params.pollLimit = none ∧
      wellFormed .hwreset = true ∧ firstLoop .hwreset = some .notBusy ∧
      ∀ j, j < 2 → pollOutcome .notBusy ((scripted [0x0080, 0x0080]).sampleAt j) = none :=
  ⟨scripted_waiting _, rfl, rfl, rfl, by decide⟩
/-- The gate of the only sector, not open at its first poll; and a first sector read before the gate of the second. -/
theorem witness_SectorGateHangs :
    (scripted [0x0050, 0x0080]).Waiting ∧ (scripted [0x0050, 0x0080]).params.pollLimit = none ∧
      wellFormed (.rdsect 0#1 0#32 1#16) = true ∧ (scripted [0x0050, 0x0080]).PollEnds .ready 0 true ∧
      (((scripted [0x0050, 0x0080]).restarted.didPolls 1).didSectorSetup 0#1 0#32 1#16).SectorsReady [] ∧
      ([] : List Nat).length < (1#16 : BitVec 16).toNat ∧
      (∀ j, j < 1 → pollOutcome .drq
        (((((scripted [0x0050, 0x0080]).restarted.didPolls 1).didSectorSetup 0#1 0#32 1#16).didSectors []).sampleAt j) =
          none) ∧
      (((scripted [0x0050, 0x0058]).restarted.didPolls 1).didSectorSetup 0#1 0#32 2#16).SectorsReady [0] ∧
      [0].length < (2#16 : BitVec 16).toNat :=
  ⟨scripted_waiting _, rfl, by decide, ⟨by decide, by decide, nofun⟩, trivial, by decide, by decide,
    ⟨⟨by decide, by decide, nofun⟩, trivial⟩, by decide⟩
theorem witness_UnconfiguredHangs :
    State.reset.opstate = .idle ∧ State.reset.lanesIdle = true ∧ State.reset.access = .none ∧ State.reset.enRd = false ∧
      State.reset.enWr = false ∧ State.reset.por = false ∧ State.reset.params.pollLimit ≠ some 0 ∧
      accessesBus (.rdreg 0x7#4) = true := by decide
theorem witness_BurstFillsBuffer : live.buf.wf ∧ 0 < 1 ∧ (5 < 2 * 3 ∨ 2 * (0 + 1) ≤ 5) := by decide
theorem witness_SectorsFillBuffer :
    live.buf.wf ∧ live.emitted = 0 ∧ { live with sectRem := 2#9 }.sectRem.toNat = [0, 1].length ∧ 1 < [0, 1].length ∧
      255 < 256 := by decide

/-! ### Hypotheses that are met: the sequencer's instructions and the lanes -/

theorem witness_SetAddrDrives : (busyAt []).access = .none ∧ (busyAt []).lanesIdle = true := by decide
theorem witness_OverlapFaults : { live with access := .addressed }.access ≠ .none ∧ writing.lanesIdle = false := by decide
theorem witness_StatusBitTests : (Instr.stDf, 5) ∈ [(Instr.stBsy, 7), (.stDrdy, 6), (.stDf, 5), (.stDrq, 3), (.stErr, 0)] := by
  decide
theorem witness_GateBranches :
    (0x0088#16).getLsbD 7 = true ∧ ((0x0009#16).getLsbD 7 = false ∧ (0x0009#16).getLsbD 3 = true) ∧
      ((0x0051#16).getLsbD 7 = false ∧ (0x0051#16).getLsbD 3 = false ∧ (0x0051#16).getLsbD 0 = true) ∧
      ((0x0050#16).getLsbD 7 = false ∧ (0x0050#16).getLsbD 3 = false ∧ (0x0050#16).getLsbD 0 = false) ∧
      live.access = .none ∧ live.cond = false ∧ { live with cond := true }.cond = true := by decide
theorem witness_CommandsIssued :
    live.Live ∧ live.lanesIdle = true ∧ live.access = .none ∧ (busyAt [.sectTop]).opstate = .busy [.sectTop] ∧
      live.opstate = .idle := ⟨scripted_live [], by decide, by decide, by decide, by decide⟩
theorem witness_PacketForwarded :
    (busyAt []).Live ∧ (busyAt []).lanesIdle = true ∧ (busyAt []).access = .none ∧ (busyAt []).opstate = .busy [] ∧
      (Instr.scsiInquiry inquiryBlock.body, 0x12#8) ∈ [(Instr.scsiTestUnitReady inquiryBlock.body, 0x00#8),
        (.scsiInquiry inquiryBlock.body, 0x12#8), (.scsiRead10 inquiryBlock.body, 0x28#8)] :=
  ⟨⟨rfl, rfl, by decide, by decide, by decide, rfl⟩, by decide, by decide, by decide, by decide⟩
theorem witness_LaneSlots :
    live.inqRd = [] ∧ { live with inqRd := [0#32] }.inqRd = [0#32] ∧ live.x = 0#32 ∧ { live with x := 1#32 }.x ≠ 0#32 ∧
      live.inqWr = [] ∧ { live with inqWr := [7#16] }.inqWr = [7#16] := by decide
theorem witness_LaneEvents :
    { live with rxq := [1, 2, 3, 4] }.params.fifoDepth ≤ [1, 2, 3, 4].length ∧
      { live with rxq := [1, 2, 3] }.rxq.length < live.params.fifoDepth := by decide

/-! ### Hypotheses that are met: the identify decoder -/

theorem witness_IdentifyWordZero : 0x85C0 = ((withId [(0, 0x85C0#16)]).idArr.readWord 0).toNat := by decide
theorem witness_IdentifyStrings :
    (Instr.idModelNumber, 27, 20) ∈
      [(Instr.idSerialNumber, 10, 10), (.idFirmwareRevision, 23, 4), (.idModelNumber, 27, 20)] ∧ 19 < 20 := by decide
theorem witness_IdentifyTiming :
    ((withId [(53, 2#16)]).idArr.readWord 53).getLsbD 1 = true ∧
      ((withId [(53, 5#16)]).idArr.readWord 53).getLsbD 1 = false := by decide
theorem witness_IdentifyNumbers :
    live.idArr.readWord 80 = 0#16 ∧ ((withId [(80, 0x003E#16)]).idArr.readWord 80).getLsbD 5 = true ∧
      ∀ j, 5 < j → ((withId [(80, 0x003E#16)]).idArr.readWord 80).getLsbD j = false := by
  refine ⟨by decide, by decide, fun j hj => ?_⟩
  rcases Nat.lt_or_ge j 16 with h | h
  · exact (by decide : ∀ j, j < 16 → 5 < j → ((withId [(80, 0x003E#16)]).idArr.readWord 80).getLsbD j = false) j h hj
  · exact BitVec.getLsbD_of_ge _ _ h
theorem witness_IdentifyFeature :
    (FeatureWord.w83, 83) ∈ [(FeatureWord.w82, 82), (.w83, 83), (.w84, 84), (.w119, 119)] ∧
      (((withId [(83, 0x4400#16)]).idArr.readWord 83).getLsbD 15 = false ∧
        ((withId [(83, 0x4400#16)]).idArr.readWord 83).getLsbD 14 = true) ∧
      ¬(((withId [(83, 0xC400#16)]).idArr.readWord 83).getLsbD 15 = false ∧
        ((withId [(83, 0xC400#16)]).idArr.readWord 83).getLsbD 14 = true) := by decide
theorem witness_IdentifyChecksum :
    (withId [(255, 0x5BA5#16)]).idArr.readByte 510 = 0xA5#8 ∧ live.idArr.readByte 510 ≠ 0xA5#8 := by decide
theorem witness_ChecksumSeesEveryBit :
    (withId [(255, 0x5BA5#16)]).idArr.wf ∧ checksumSumOk (withId [(255, 0x5BA5#16)]).idArr = some true ∧
      (0 < 256 ∧ 0 < 16 ∧ ¬(0 = 255 ∧ 0 < 8)) ∧ (255 < 256 ∧ 8 < 16 ∧ ¬(255 = 255 ∧ 8 < 8)) :=
  ⟨by decide, by decide +kernel, by decide, by decide⟩
theorem witness_RetimeRuns :
    (asking .retime).port = [.retime] ∧ live.por = false ∧ live.turn = .sequencer ∧ live.opstate = .idle ∧
      (((withId [(53, 7#16), (64, 2#16), (68, 0x78#16)]).idArr.readWord 53).getLsbD 1 = true ∧
        ((withId [(53, 7#16), (64, 2#16), (68, 0x78#16)]).idArr.readWord 64).toNat % 4 ≠ 0) ∧
      (live.idArr.readWord 53).getLsbD 1 = false ∧
      ((withId [(53, 2#16), (64, 0xFF00#16)]).idArr.readWord 64).toNat % 4 = 0 := by decide

end Sys2Proof.Tests
end

namespace Sys2Proof.Machine

/-! Proofs of the statements on the machine's scope: who drives the pins, what the event record can do, how a placed code, a
request and a line of pseudocode come to be executed, and the two lane slots that record an event. -/

/-! ### The lanes leave the sequencer's pins and its position alone (R20) -/

/-- The address lines, the reset line and the sequencer's position of `s` are those of `t` too. -/
structure State.PinsKept (s t : State) : Prop where
  cs : t.cs = s.cs
  da : t.da = s.da
  rst : t.rst = s.rst
  opstate : t.opstate = s.opstate

theorem RdCase.pinsKept {s t : State} (h : RdCase s t) : s.PinsKept t := by
  cases h <;> rename_i h <;> subst h <;> exact ⟨rfl, rfl, rfl, rfl⟩

theorem WrCase.pinsKept {s t : State} (h : WrCase s t) : s.PinsKept t := by
  cases h <;> rename_i h <;> subst h <;> exact ⟨rfl, rfl, rfl, rfl⟩

/-- Without power-on reset a step is a turn of the sequencer, or a lane's turn, which keeps the sequencer's pins. -/
theorem step_sequencer_or_lane {s t : State} (hr : s.por = false) (h : step s = .next t) :
    s.turn = .sequencer ∧ sequencerTurn { s with turn := .rdLane } = .next t ∨ s.PinsKept t := by
  rcases step_cases h with ⟨hpor, -⟩ | ⟨-, -, hseq | ⟨-, hrd⟩ | ⟨-, hwr⟩⟩
  · simp [hr] at hpor
  · exact .inl hseq
  · obtain ⟨hcs, hda, hrst, hop⟩ := (rd_cases hrd).pinsKept
    exact .inr ⟨hcs, hda, hrst, hop⟩
  · obtain ⟨hcs, hda, hrst, hop⟩ := (wr_cases hwr).pinsKept
    exact .inr ⟨hcs, hda, hrst, hop⟩

/-! ### The pins the sequencer drives -/

/-- The sequencer drives the address lines in `SetAddr` alone (R31, R180). -/
theorem SeqCase.address {s t : State} (h : SeqCase s t) :
    t.cs = s.cs ∧ t.da = s.da ∨
      ∃ ra rest, s.opstate = .busy (.setAddr ra :: rest) ∧ t.cs = csOf ra ∧ t.da = daOf ra := by
  cases h with
  | setAddr _ ra rest ho _ _ h => subst h; exact .inr ⟨ra, rest, ho, rfl, rfl⟩
  | _ => rename_i h; subst h; exact .inl ⟨rfl, rfl⟩

/-- The sequencer drives the reset line in the line that assigns it alone (R35, R204). -/
theorem SeqCase.resetLine {s t : State} (h : SeqCase s t) :
    t.rst = s.rst ∨ ∃ rest, s.opstate = .busy (.setRst t.rst :: rest) := by
  cases h with
  | setRst _ rest _ ho h => subst h; exact .inr ⟨rest, ho⟩
  | _ => rename_i h; subst h; exact .inl rfl

/-! ### HWRESET alone brings in an assignment of the reset line -/

/-- Where a result is a next state in BUSY, no assignment of the reset line stands in the sequencer's position. -/
def BringsNoResetLine (r : Result) : Prop :=
  ∀ t code, r = .next t → t.opstate = .busy code → ∀ level, SeqOp.setRst level ∉ code

namespace BringsNoResetLine

theorem of_busy {u : State} {code : List SeqOp} (hu : u.opstate = .busy code) (hc : ∀ level, SeqOp.setRst level ∉ code) :
    BringsNoResetLine (.next u) := by
  rintro t code' ⟨⟩ ht
  rw [hu] at ht
  cases ht
  exact hc

theorem of_idle {u : State} (hu : u.opstate = .idle) : BringsNoResetLine (.next u) := by
  rintro t code ⟨⟩ ht
  simp [hu] at ht

theorem of_raise (v : Violation) (s : State) : BringsNoResetLine (raiseViolation v s) := by
  rintro t code ⟨⟩ ⟨⟩

theorem of_finish (c : ResCode) (s : State) : BringsNoResetLine (finish c s) := by
  intro t code h ht
  obtain ⟨-, rfl⟩ := finish_next h
  cases ht

theorem of_fault (f : Fault) : BringsNoResetLine (.fault f) := by
  rintro t code ⟨⟩

theorem of_refused (f : Refusal) : BringsNoResetLine (.refused f) := by
  rintro t code ⟨⟩

theorem of_accept {s : State} {body : Result} (h : BringsNoResetLine body) : BringsNoResetLine (accept s body) :=
  fun t code ht => h t code (accept_next ht).2

theorem of_ite {c : Prop} [Decidable c] {a b : Result} (ha : BringsNoResetLine a) (hb : BringsNoResetLine b) :
    BringsNoResetLine (if c then a else b) := by
  split
  · exact ha
  · exact hb

end BringsNoResetLine

section AccessLines
variable (level : Bool) (ra : BitVec 4) (p : Config.Params) (dev : BitVec 1)

@[simp] theorem setRst_not_mem_memRead : SeqOp.setRst level ∉ memRead ra := by simp [memRead]

@[simp] theorem setRst_not_mem_memWrite (v : BusWord) : SeqOp.setRst level ∉ memWrite ra v := by simp [memWrite]

@[simp] theorem setRst_not_mem_pioRead (n : BitVec 32) : SeqOp.setRst level ∉ pioRead n := by
  simp [pioRead, memReadBurst]

@[simp] theorem setRst_not_mem_selectDevice : SeqOp.setRst level ∉ selectDevice p dev := by simp [selectDevice]

@[simp] theorem setRst_not_mem_selectDeviceLba (lba : BitVec 32) : SeqOp.setRst level ∉ selectDeviceLba p dev lba := by
  simp [selectDeviceLba]

@[simp] theorem setRst_not_mem_packetRegisters (limit : BitVec 16) :
    SeqOp.setRst level ∉ packetRegisters p dev limit := by
  simp [packetRegisters]

end AccessLines

/-- What a command word can stand for: the ten host operations of R100 and the six reserved operation codes of R105. -/
inductive HostOp : Instr → Prop
  | configure (ct : BitVec 32) : HostOp (.configure ct)
  | rdreg (ra : BitVec 4) : HostOp (.rdreg ra)
  | wrreg (ra : BitVec 4) (v : BusWord) : HostOp (.wrreg ra v)
  | hwreset : HostOp .hwreset
  | devreset (dev : BitVec 1) : HostOp (.devreset dev)
  | isready : HostOp .isready
  | pioread (n : BitVec 32) : HostOp (.pioread n)
  | rdsect (dev : BitVec 1) (lba : BitVec 32) (count : BitVec 16) : HostOp (.rdsect dev lba count)
  | ident (dev idc : BitVec 1) : HostOp (.ident dev idc)
  | packet (dev : BitVec 1) (limit : BitVec 16) (cdb : Cdb) : HostOp (.packet dev limit cdb)
  | reservedOpc0 (f : H64Fields) : HostOp (.reservedOpc0 f)
  | reservedOpcB (f : H64Fields) : HostOp (.reservedOpcB f)
  | reservedOpcC (f : H64Fields) : HostOp (.reservedOpcC f)
  | reservedOpcD (f : H64Fields) : HostOp (.reservedOpcD f)
  | reservedOpcE (f : H64Fields) : HostOp (.reservedOpcE f)
  | reservedOpcF (f : H64Fields) : HostOp (.reservedOpcF f)

theorem onlyFields_ok {f used : H64Fields} {i j : Instr} (h : onlyFields f used i = .ok j) : i = j := by
  unfold onlyFields at h
  split at h
  · exact Except.ok.inj h
  · cases h

theorem hostOp_of_decode {cw : BitVec 64} {cdb : Cdb} {i : Instr} (h : decode (.h64 cw cdb) = .ok i) : HostOp i := by
  simp only [decode, decodeH64] at h
  split at h <;> first
    | cases h; constructor
    | obtain rfl := onlyFields_ok h; constructor

/-- No host operation but HWRESET installs lines that assign the reset line (R35). -/
theorem exec_bringsNoResetLine {i : Instr} (hi : HostOp i) (hne : i ≠ .hwreset) (s : State) :
    BringsNoResetLine (exec i s) := by
  cases hi with
  | hwreset => exact absurd rfl hne
  | configure ct => exact .of_accept (.of_ite (.of_raise _ _) (.of_ite (.of_finish _ _) (.of_fault _)))
  | rdreg ra => exact .of_accept (.of_ite (.of_busy rfl (by simp)) (.of_raise _ _))
  | wrreg ra v => exact .of_accept (.of_ite (.of_busy rfl (by simp)) (.of_raise _ _))
  | devreset dev => exact .of_accept (.of_busy rfl (by simp))
  | isready => exact .of_accept (.of_busy rfl (by simp))
  | pioread n => exact .of_accept (.of_ite (.of_raise _ _) (.of_busy rfl (by simp)))
  | rdsect dev lba count => exact .of_accept (.of_ite (.of_raise _ _) (.of_ite (.of_raise _ _) (.of_busy rfl (by simp))))
  | ident dev idc => exact .of_accept (.of_busy rfl (by simp))
  | packet dev limit cdb => exact .of_accept (.of_busy rfl (by simp))
  | reservedOpc0 | reservedOpcB | reservedOpcC | reservedOpcD | reservedOpcE | reservedOpcF => exact .of_accept (.of_raise _ _)

/-- Every accessor of the identify decoder only answers (R280). -/
theorem exec_decodeIdField (f : IdField) (s : State) : ∃ v, exec (decodeIdField f) s = tell v s := by
  cases f <;> exact ⟨_, rfl⟩

theorem tell_bringsNoResetLine (v : IdValue) {s : State} (ho : s.opstate = .idle) : BringsNoResetLine (tell v s) :=
  .of_idle ho

theorem runCode_of_decode {c : Code} {i : Instr} (h : decode c = .ok i) (s : State) : runCode c s = exec i s := by
  simp [runCode, h]

/-- Of the host's requests a command word that decodes to HWRESET alone brings in an assignment of the reset line. -/
theorem runRequest_resetLine {r : HostReq} {s : State} (ho : s.opstate = .idle)
    (hr : ∀ cw cdb, r = .command cw cdb → decode (.h64 cw cdb) ≠ .ok .hwreset) : BringsNoResetLine (runRequest r s) := by
  cases r with
  | command cw cdb =>
    simp only [runRequest, runCode]
    split
    case h_1 i hd => exact exec_bringsNoResetLine (hostOp_of_decode hd) (fun e => hr cw cdb rfl (e ▸ hd)) s
    case h_2 => exact .of_accept (.of_raise _ _)
    case h_3 => exact .of_fault _
    case h_4 => exact .of_refused _
  | accessor f =>
    obtain ⟨v, hv⟩ := exec_decodeIdField f s
    rw [runRequest, runCode_of_decode (i := decodeIdField f) rfl, hv]
    exact tell_bringsNoResetLine v ho
  | isAta => exact tell_bringsNoResetLine _ ho
  | maxPioMode => exact tell_bringsNoResetLine _ ho
  | capacity => exact tell_bringsNoResetLine _ ho
  | namedFlag n =>
    simp only [runRequest, tellNamedFlag]
    split <;> exact tell_bringsNoResetLine _ ho
  | retime =>
    simp only [runRequest]
    split
    · exact exec_bringsNoResetLine (.configure _) nofun s
    · exact .of_idle ho

theorem sequencerTurn_idle_nil {s : State} (ho : s.opstate = .idle) (hp : s.port = []) : sequencerTurn s = .next s := by
  unfold sequencerTurn
  split <;> simp_all

theorem sequencerTurn_idle_cons {s : State} {r : HostReq} {more : List HostReq} (ho : s.opstate = .idle)
    (hp : s.port = r :: more) : sequencerTurn s = runRequest r { s with port := more } := by
  unfold sequencerTurn
  split <;> simp_all

/-- An assignment of the reset line that stands in the position after an idle engine's turn came with HWRESET (R35, R204). -/
theorem idle_resetLines {s t : State} {code : List SeqOp} {level : Bool} (ho : s.opstate = .idle)
    (h : sequencerTurn s = .next t) (ht : t.opstate = .busy code) (hm : SeqOp.setRst level ∈ code) :
    ∃ cw cdb more, s.port = .command cw cdb :: more ∧ decode (.h64 cw cdb) = .ok .hwreset := by
  cases hp : s.port with
  | nil =>
    rw [sequencerTurn_idle_nil ho hp] at h
    exact absurd hm (BringsNoResetLine.of_idle ho t code h ht level)
  | cons r more =>
    rw [sequencerTurn_idle_cons ho hp] at h
    by_contra hno
    refine runRequest_resetLine (s := { s with port := more }) ho (fun cw cdb hr hd => hno ?_) t code h ht level hm
    exact ⟨cw, cdb, more, by rw [hr], hd⟩

/-- Settles O18: the lanes leave these pins and the position alone, and the sequencer's turn is taken apart by its cases. -/
theorem pinOwners : Obligations.PinOwners := by
  intro s t hr h
  rcases step_sequencer_or_lane hr h with ⟨hturn, hseq⟩ | ⟨hcs, hda, hrst, hop⟩
  · refine ⟨fun hne => ?_, fun hne => (seq_cases hseq).resetLine.resolve_left hne, fun code level ht hm => ?_⟩
    · rcases (seq_cases hseq).address with ⟨hcs, hda⟩ | hset
      · exact absurd hne (by simp [hcs, hda])
      · exact hset
    · cases ho : s.opstate with
      | idle => exact .inr ⟨hturn, rfl, idle_resetLines (s := { s with turn := .rdLane }) ho hseq ht hm⟩
      | busy code' => exact .inl ⟨code', rfl, busy_resetLines (s := { s with turn := .rdLane }) ho hseq ht level hm⟩
      | faulted => simp [sequencerTurn, ho] at hseq
  · refine ⟨fun hne => absurd hne (by simp [hcs, hda]), fun hne => absurd hrst hne, fun code level ht hm => ?_⟩
    exact .inl ⟨code, hop ▸ ht, hm⟩

/-! ### The event record -/

/-- The parameters are kept and the record of bus events grows by at most one event, at its end. -/
def State.RecordGrows (s t : State) : Prop :=
  t.params = s.params ∧ ∃ extra, t.trace = s.trace ++ extra ∧ extra.length ≤ 1

theorem State.RecordGrows.of_same {s t : State} (hp : t.params = s.params) (ht : t.trace = s.trace) : s.RecordGrows t :=
  ⟨hp, [], by simp [ht], by simp⟩

theorem State.RecordGrows.of_event {s t : State} (e : BusEvent) (hp : t.params = s.params) (ht : t.trace = s.trace ++ [e]) :
    s.RecordGrows t :=
  ⟨hp, [e], ht, by simp⟩

theorem RdCase.recordGrows {s t : State} (h : RdCase s t) : s.RecordGrows t := by
  cases h with
  | sample v _ _ h => subst h; exact .of_event (.rd s.cs s.da v) rfl rfl
  | _ => rename_i h; subst h; exact .of_same rfl rfl

theorem WrCase.recordGrows {s t : State} (h : WrCase s t) : s.RecordGrows t := by
  cases h with
  | finish _ h => subst h; exact .of_event (.wr s.cs s.da s.osr) rfl rfl
  | _ => rename_i h; subst h; exact .of_same rfl rfl

theorem SeqCase.recordGrows {s t : State} (h : SeqCase s t) : s.RecordGrows t := by
  cases h with
  | setAddr _ ra _ _ _ _ h => subst h; exact .of_event (addrEvent ra) rfl rfl
  | setRst _ _ level _ h => subst h; exact .of_event (.rst level) rfl rfl
  | delay _ _ ns _ h => subst h; exact .of_event (.wait ns) rfl rfl
  | _ => rename_i h; subst h; exact .of_same rfl rfl

/-- Settles O19, by the cases of the agent's turn. -/
theorem eventsOnlyAdded : Obligations.EventsOnlyAdded := by
  intro s t h
  change s.RecordGrows t
  rcases step_cases h with ⟨-, rfl⟩ | ⟨-, -, ⟨-, hseq⟩ | ⟨-, hrd⟩ | ⟨-, hwr⟩⟩
  · exact .of_same (State.powerOnReset_params s) (State.powerOnReset_trace s)
  · exact (seq_cases hseq).recordGrows
  · exact (rd_cases hrd).recordGrows
  · exact (wr_cases hwr).recordGrows

/-! ### A step runs the decoded instruction -/

theorem runPacket_of_decode {cdb : Cdb} {i : Instr} (h : decode (.cdb12 cdb) = .ok i) (s : State) :
    runPacket cdb s = exec i s := by
  simp [runPacket, h]

/-- The lines of pseudocode that carry a code, each with the code it carries (R180, R200, R212, R262). -/
def SeqOp.Carries (op : SeqOp) (c : Code) : Prop :=
  (∃ ra, op = .setAddr ra ∧ c = .regAddr ra) ∨ (∃ b, op = .test b ∧ c = .status b.mask) ∨
    (∃ b, op = .issue b ∧ c = .ataCmd b) ∨ (∃ cdb, op = .sendPacket cdb ∧ c = .cdb12 cdb)

/-- A line that carries a code runs the instruction the code stands for. -/
theorem runLine_carries {op : SeqOp} {c : Code} {i : Instr} (hc : op.Carries c) (hd : decode c = .ok i)
    (rest : List SeqOp) (s : State) : runLine op rest s = exec i s := by
  rcases hc with ⟨ra, rfl, rfl⟩ | ⟨b, rfl, rfl⟩ | ⟨b, rfl, rfl⟩ | ⟨cdb, rfl, rfl⟩
  · exact runCode_of_decode hd s
  · exact runCode_of_decode hd s
  · exact runCode_of_decode hd s
  · exact runPacket_of_decode hd s

/-- While BUSY and given its turn, the sequencer executes the instruction of the line at the head of its position. -/
theorem step_carrying_line {s : State} {op : SeqOp} {rest : List SeqOp} {c : Code} {i : Instr} (hr : s.por = false)
    (ht : s.turn = .sequencer) (hp : s.pace.head? ≠ some true) (ho : s.opstate = .busy (op :: rest)) (hc : op.Carries c)
    (hd : decode c = .ok i) :
    step s = exec i { s with turn := .rdLane, pace := s.pace.tail, opstate := .busy rest } := by
  rw [step_line hr hp ht ho, runLine_carries hc hd]

/-- Settles O6: the obligation's four kinds of line are those that carry a code. -/
theorem stepRunsLine : Obligations.StepRunsLine :=
  fun _ _ _ _ _ hr ht hp ho hc hd => step_carrying_line hr ht hp ho hc hd

/-- While IDLE the sequencer's turn executes the command word at the head of the port (R101). -/
theorem step_command {s : State} {cw : BitVec 64} {cdb : Cdb} {more : List HostReq} {i : Instr} (hr : s.por = false)
    (ht : s.turn = .sequencer) (ho : s.opstate = .idle) (hq : s.port = .command cw cdb :: more)
    (hd : decode (.h64 cw cdb) = .ok i) : step s = exec i { s with turn := .rdLane, port := more } := by
  rw [step_request hr ht ho hq, runRequest, runCode_of_decode hd]

/-- While IDLE the sequencer's turn executes the accessor at the head of the port (log entry 11). -/
theorem step_accessor {s : State} {f : IdField} {more : List HostReq} (hr : s.por = false) (ht : s.turn = .sequencer)
    (ho : s.opstate = .idle) (hq : s.port = .accessor f :: more) :
    step s = exec (decodeIdField f) { s with turn := .rdLane, port := more } := by
  rw [step_request hr ht ho hq, runRequest, runCode_of_decode (i := decodeIdField f) rfl]

/-- Settles O5, by the rule for each of the two kinds of request. -/
theorem stepRunsRequest : Obligations.StepRunsRequest :=
  ⟨fun _ _ _ _ _ hr ht ho hq hd => step_command hr ht ho hq hd, fun _ _ _ hr ht ho hq => step_accessor hr ht ho hq⟩

/-- The status bit a mask is placed as the test of (log entries 13 and 16). -/
def placedBit (b : Byte) : StatusBit :=
  match decodeStatus b with
  | .ok .stDrdy => .drdy
  | .ok .stDf => .df
  | .ok .stDrq => .drq
  | .ok .stErr => .err
  | _ => .bsy

/-- A mask that decodes, and the mask of the one bit placed for it, stand for the same test. -/
theorem decodeStatus_placedBit {b : Byte} {i : Instr} (h : decodeStatus b = .ok i) :
    decodeStatus (placedBit b).mask = .ok i := by
  have hi : i = .stBsy ∨ i = .stDrq ∨ i = .stErr ∨ i = .stDrdy ∨ i = .stDf := by
    unfold decodeStatus at h
    repeat' split at h
    all_goals cases h <;> simp
  rcases hi with rfl | rfl | rfl | rfl | rfl <;> rw [placedBit, h] <;> rfl

/-- A line placed at the head of the sequencer's position, with no turn withheld, is executed by the next step. -/
theorem step_placed_line {op : SeqOp} {c : Code} {i : Instr} (hc : op.Carries c) (hd : decode c = .ok i)
    (rest : List SeqOp) (s : State) :
    step { s with por := false, turn := .sequencer, pace := [], opstate := .busy (op :: rest) } =
      exec i { s with por := false, turn := .rdLane, pace := [], opstate := .busy rest } :=
  step_carrying_line (s := { s with por := false, turn := .sequencer, pace := [], opstate := .busy (op :: rest) })
    rfl rfl (by simp) rfl hc hd

/-- Where a code is placed for the next step, that step is `exec` of its instruction (log entry 16). -/
theorem step_withCode {c : Code} {i : Instr} (h : decode c = .ok i) (s : State) :
    step (s.withCode c) = exec i (s.fetched c) := by
  cases c with
  | h64 cw cdb => exact step_command (s := s.withCode (.h64 cw cdb)) rfl rfl rfl rfl h
  | idField f =>
    cases h
    exact step_accessor (s := s.withCode (.idField f)) rfl rfl rfl rfl
  | regAddr ra => exact step_placed_line (.inl ⟨ra, rfl, rfl⟩) h (memRead ra).tail s
  | status b =>
    have hb : decode (.status (placedBit b).mask) = .ok i := decodeStatus_placedBit h
    exact step_placed_line (.inr (.inl ⟨placedBit b, rfl, rfl⟩)) hb [] s
  | ataCmd b => exact step_placed_line (.inr (.inr (.inl ⟨b, rfl, rfl⟩))) h [] s
  | cdb12 cdb => exact step_placed_line (.inr (.inr (.inr ⟨cdb, rfl, rfl⟩))) h [] s
  | rdSlot k =>
    calc step (s.withCode (.rdSlot k))
        = rdLaneTurn { s.withCode (.rdSlot k) with turn := .wrLane } := step_rdLane (code := []) rfl rfl (.inr rfl)
      _ = runCode (.rdSlot k) (s.fetched (.rdSlot k)) := rdLaneTurn_tick rfl rfl
      _ = exec i (s.fetched (.rdSlot k)) := runCode_of_decode h _
  | wrSlot k =>
    calc step (s.withCode (.wrSlot k))
        = wrLaneTurn { s.withCode (.wrSlot k) with turn := .sequencer } := step_wrLane (code := []) rfl rfl (.inr rfl)
      _ = runCode (.wrSlot k) (s.fetched (.wrSlot k)) := wrLaneTurn_tick rfl rfl
      _ = exec i (s.fetched (.wrSlot k)) := runCode_of_decode h _

theorem decodeTableWord_eq_some {nbits w : Nat} {i : Instr} (h : decodeTableWord nbits w = some i) :
    decode (tableCode nbits w) = .ok i := by
  unfold decodeTableWord at h
  cases hd : decode (tableCode nbits w) with
  | ok j =>
    rw [hd] at h
    exact congrArg Except.ok (Option.some.inj h)
  | error e =>
    rw [hd] at h
    cases h

/-- Settles O4: a table word is placed as its code. -/
theorem stepRunsPlaced : Obligations.StepRunsPlaced :=
  ⟨fun s _ _ h => step_withCode h s, fun s _ _ _ h => step_withCode (decodeTableWord_eq_some h) s⟩

/-! ### The state after reset -/

/-- The values of R8's parameters after reset lie in the ranges R8 allows (log entry 1). -/
theorem paramsLegal_reset : ParamsLegal State.reset.params where
  clock := by decide
  depth := by decide
  limit := nofun

/-- The state after reset meets the invariant (R44, R360). -/
theorem inv_reset : State.reset.Inv where
  divPositive := by decide
  enablesAgree := rfl
  oneSelect := by decide
  rdSlot := by decide
  rdStrobe := rfl
  wrStrobe := rfl
  wrDrives := fun h => absurd rfl h
  rdIdle := fun _ => rfl
  wrIdle := fun _ => rfl
  inqRdOne := by decide
  inqWrDepth := by decide
  rxqDepth := by decide
  idleNoAccess := fun _ => rfl
  phaseRdRange := by decide
  phaseWrRange := by decide
  bufCanonical := by decide
  idCanonical := by decide

/-- Settles O11, by `inv_reset` and `paramsLegal_reset`. -/
theorem resetInv : Obligations.ResetInv := ⟨inv_reset, paramsLegal_reset⟩

/-! ### The lane slots that record an event -/

/-- The value on the data lines is the environment's next (R90, R153). -/
theorem nextSample_eq_sampleAt (s : State) : s.nextSample = s.sampleAt 0 := by
  unfold State.nextSample State.sampleAt
  cases s.samples <;> rfl

/-- SAMPLE with `RXQ` full: the lane stays at its slot (R153). -/
theorem execRdSample_full {s : State} (h : s.params.fifoDepth ≤ s.rxq.length) :
    execRdSample s = .next { s with pcRd := 3#3 } := by
  simp [execRdSample, isFull, h]

/-- SAMPLE with room in `RXQ`: the environment's next value is pushed, and is that of the event `RD` (R13, R153). -/
theorem execRdSample_push {s : State} (h : s.rxq.length < s.params.fifoDepth) :
    execRdSample s = .next { s with
      rxq := s.rxq ++ [s.sampleAt 0], pcRd := 4#3, samples := s.samples.drop 1, drawn := s.drawn + 1
      trace := s.trace ++ [.rd s.cs s.da (s.sampleAt 0)] } := by
  simp [execRdSample, isFull, Nat.not_le.mpr h, nextSample_eq_sampleAt]

/-- Settles O51: the two clauses on SAMPLE are its rules for a full and for a non-full `RXQ`. -/
theorem laneEvents : Obligations.LaneEvents :=
  ⟨Laws.RoundTrip.rdSample, Laws.RoundTrip.wrWstbHi, fun _ => ⟨execRdSample_full, execRdSample_push, rfl⟩⟩

end Sys2Proof.Machine

namespace Sys2Proof.Machine

/-! Proofs of the statements on the state: what every step keeps (R44) and which agent may write which field (R20). -/

/-! ### One clock cycle of a lane (R22, R30, R147) -/

/-- An engine that is not FAULTED is BUSY or IDLE (R36). -/
theorem busy_or_idle {s : State} (ho : s.opstate ≠ .faulted) : ∃ code, s.opstate = .busy code ∨ s.opstate = .idle := by
  cases hop : s.opstate with
  | idle => exact ⟨[], .inr rfl⟩
  | busy code => exact ⟨code, .inl rfl⟩
  | faulted => exact absurd hop ho

/-- While the engine is not FAULTED, the RD lane's turn is one clock cycle of it. -/
theorem step_rdLane_running {s : State} (hr : s.por = false) (ho : s.opstate ≠ .faulted) (ht : s.turn = .rdLane) :
    step s = rdLaneTurn { s with turn := .wrLane } := by
  obtain ⟨_, hop⟩ := busy_or_idle ho
  exact step_rdLane hr ht hop

/-- While the engine is not FAULTED, the WR lane's turn is one clock cycle of it. -/
theorem step_wrLane_running {s : State} (hr : s.por = false) (ho : s.opstate ≠ .faulted) (ht : s.turn = .wrLane) :
    step s = wrLaneTurn { s with turn := .sequencer } := by
  obtain ⟨_, hop⟩ := busy_or_idle ho
  exact step_wrLane hr ht hop

/-- A disabled lane does nothing (R22). -/
theorem rdLaneTurn_disabled {s : State} (he : s.enRd = false) : rdLaneTurn s = .next s := by
  simp [rdLaneTurn, State.rdTicks, he]

theorem wrLaneTurn_disabled {s : State} (he : s.enWr = false) : wrLaneTurn s = .next s := by
  simp [wrLaneTurn, State.wrTicks, he]

/-- Settles O7: each lane's clock cycle, disabled, counting and at its tick. -/
theorem laneTicks : Obligations.LaneTicks := by
  refine ⟨fun s i hr ho ht => ?_, fun s i hr ho ht => ?_⟩
  · rw [step_rdLane_running hr ho ht]
    exact ⟨fun he => rdLaneTurn_disabled he, fun he hp => rdLaneTurn_wait he hp,
      fun he hp hd => (rdLaneTurn_tick (s := { s with turn := .wrLane }) he hp).trans (runCode_of_decode hd _)⟩
  · rw [step_wrLane_running hr ho ht]
    exact ⟨fun he => wrLaneTurn_disabled he, fun he hp => wrLaneTurn_wait he hp,
      fun he hp hd => (wrLaneTurn_tick (s := { s with turn := .sequencer }) he hp).trans (runCode_of_decode hd _)⟩

/-! ### What each agent's turn can change (R20) -/

/-- The frame of the sequencer's turn: no lane register, strobe, data line or sample, no parameter. -/
theorem SeqCase.frame {s t : State} (h : SeqCase s t) :
    t = { s with
      div := t.div, enRd := t.enRd, enWr := t.enWr, inqRd := t.inqRd, inqWr := t.inqWr, rxq := t.rxq
      stalledRd := t.stalledRd, stalledWr := t.stalledWr, phaseRd := t.phaseRd, phaseWr := t.phaseWr, cs := t.cs
      da := t.da, rst := t.rst, opstate := t.opstate, res := t.res, rval := t.rval, sectRem := t.sectRem
      pollCnt := t.pollCnt, smp := t.smp, cond := t.cond, access := t.access, reason := t.reason, trace := t.trace
      emitted := t.emitted, buf := t.buf, idArr := t.idArr, answer := t.answer, port := t.port, pace := t.pace } := by
  cases h <;> rename_i h <;> subst h <;> rfl

/-- The frame of the RD lane's turn: its own fields, the samples drawn and the record of events alone may change. -/
theorem RdCase.frame {s t : State} (h : RdCase s t) :
    t = { s with
      pcRd := t.pcRd, x := t.x, inqRd := t.inqRd, rxq := t.rxq, stalledRd := t.stalledRd, phaseRd := t.phaseRd
      rdStb := t.rdStb, samples := t.samples, drawn := t.drawn, trace := t.trace } := by
  cases h <;> rename_i h <;> subst h <;> rfl

/-- The frame of the WR lane's turn: its own fields and the record of events alone may change. -/
theorem WrCase.frame {s t : State} (h : WrCase s t) :
    t = { s with
      pcWr := t.pcWr, osr := t.osr, inqWr := t.inqWr, stalledWr := t.stalledWr, phaseWr := t.phaseWr
      wrStb := t.wrStb, ddOut := t.ddOut, ddOe := t.ddOe, trace := t.trace } := by
  cases h <;> rename_i h <;> subst h <;> rfl

/-- What a step is, once no power-on reset is requested: the turn of the agent whose turn it is, by its cases. -/
theorem step_turns {s t : State} (hr : s.por = false) (h : step s = .next t) :
    s.turn = .sequencer ∧ SeqCase { s with turn := .rdLane } t ∨
      s.turn = .rdLane ∧ RdCase { s with turn := .wrLane } t ∨
      s.turn = .wrLane ∧ WrCase { s with turn := .sequencer } t := by
  rcases step_cases h with ⟨hpor, -⟩ | ⟨-, -, ⟨ht, hseq⟩ | ⟨ht, hrd⟩ | ⟨ht, hwr⟩⟩
  · simp [hr] at hpor
  · exact .inl ⟨ht, seq_cases hseq⟩
  · exact .inr (.inl ⟨ht, rd_cases hrd⟩)
  · exact .inr (.inr ⟨ht, wr_cases hwr⟩)

/-- Settles O14, by the frame of the sequencer's turn. -/
theorem sequencerOwns : Obligations.SequencerOwns := by
  intro s t hr hturn h
  rcases step_turns hr h with ⟨-, hseq⟩ | ⟨ht, -⟩ | ⟨ht, -⟩
  · exact hseq.frame
  · simp [hturn] at ht
  · simp [hturn] at ht

/-- Settles O15, by the frames of the two lanes' turns. -/
theorem lanesOwn : Obligations.LanesOwn := by
  refine ⟨fun s t hr hturn h => ?_, fun s t hr hturn h => ?_⟩
  · rcases step_turns hr h with ⟨ht, -⟩ | ⟨-, hrd⟩ | ⟨ht, -⟩
    · simp [hturn] at ht
    · exact hrd.frame
    · simp [hturn] at ht
  · rcases step_turns hr h with ⟨ht, -⟩ | ⟨ht, -⟩ | ⟨-, hwr⟩
    · simp [hturn] at ht
    · simp [hturn] at ht
    · exact hwr.frame

/-! ### The completion flags (R29, R75) -/

/-- The sequencer leaves `STALLED[RD]` alone, or clears it at its clearing line (R75). -/
theorem SeqCase.stalledRd {s t : State} (h : SeqCase s t) :
    t.stalledRd = s.stalledRd ∨ t.stalledRd = false ∧ ∃ rest, s.opstate = .busy (.clearStalled .rd :: rest) := by
  cases h with
  | clearRd _ rest ho h => subst h; exact .inr ⟨rfl, rest, ho⟩
  | _ => rename_i h; subst h; exact .inl rfl

/-- The sequencer leaves `STALLED[WR]` alone, or clears it at its clearing line (R75). -/
theorem SeqCase.stalledWr {s t : State} (h : SeqCase s t) :
    t.stalledWr = s.stalledWr ∨ t.stalledWr = false ∧ ∃ rest, s.opstate = .busy (.clearStalled .wr :: rest) := by
  cases h with
  | clearWr _ rest ho h => subst h; exact .inr ⟨rfl, rest, ho⟩
  | _ => rename_i h; subst h; exact .inl rfl

/-- The RD lane leaves its flag alone, or sets it at slot 0 with nothing queued (R150). -/
theorem RdCase.stalledRd {s t : State} (h : RdCase s t) :
    t.stalledRd = s.stalledRd ∨ t.stalledRd = true ∧ s.pcRd = 0#3 ∧ s.inqRd = [] := by
  cases h with
  | starve hpc hq h => subst h; exact .inr ⟨rfl, hpc, hq⟩
  | _ => rename_i h; subst h; exact .inl rfl

/-- The WR lane leaves its flag alone, or sets it at slot 0 with nothing queued (R155). -/
theorem WrCase.stalledWr {s t : State} (h : WrCase s t) :
    t.stalledWr = s.stalledWr ∨ t.stalledWr = true ∧ s.pcWr = 0#2 ∧ s.inqWr = [] := by
  cases h with
  | starve hpc hq h => subst h; exact .inr ⟨rfl, hpc, hq⟩
  | _ => rename_i h; subst h; exact .inl rfl

theorem RdCase.stalledWr_kept {s t : State} (h : RdCase s t) : t.stalledWr = s.stalledWr :=
  (congrArg State.stalledWr h.frame :)

theorem WrCase.stalledRd_kept {s t : State} (h : WrCase s t) : t.stalledRd = s.stalledRd :=
  (congrArg State.stalledRd h.frame :)

/-- How a step can change `STALLED[RD]`: set by the RD lane at slot 0 with nothing queued, cleared by the sequencer at its
clearing line (R29). -/
theorem step_stalledRd {s t : State} (hr : s.por = false) (h : step s = .next t) :
    t.stalledRd = s.stalledRd ∨
      t.stalledRd = true ∧ s.turn = .rdLane ∧ s.pcRd = 0#3 ∧ s.inqRd = [] ∨
      t.stalledRd = false ∧ s.turn = .sequencer ∧ ∃ rest, s.opstate = .busy (.clearStalled .rd :: rest) := by
  rcases step_turns hr h with ⟨ht, hseq⟩ | ⟨ht, hrd⟩ | ⟨-, hwr⟩
  · exact hseq.stalledRd.imp_right fun ⟨hf, hline⟩ => .inr ⟨hf, ht, hline⟩
  · exact hrd.stalledRd.imp_right fun ⟨hf, hslot⟩ => .inl ⟨hf, ht, hslot⟩
  · exact .inl hwr.stalledRd_kept

/-- How a step can change `STALLED[WR]`: set by the WR lane at slot 0 with nothing queued, cleared by the sequencer at its
clearing line (R29). -/
theorem step_stalledWr {s t : State} (hr : s.por = false) (h : step s = .next t) :
    t.stalledWr = s.stalledWr ∨
      t.stalledWr = true ∧ s.turn = .wrLane ∧ s.pcWr = 0#2 ∧ s.inqWr = [] ∨
      t.stalledWr = false ∧ s.turn = .sequencer ∧ ∃ rest, s.opstate = .busy (.clearStalled .wr :: rest) := by
  rcases step_turns hr h with ⟨ht, hseq⟩ | ⟨-, hrd⟩ | ⟨ht, hwr⟩
  · exact hseq.stalledWr.imp_right fun ⟨hf, hline⟩ => .inr ⟨hf, ht, hline⟩
  · exact .inl hrd.stalledWr_kept
  · exact hwr.stalledWr.imp_right fun ⟨hf, hslot⟩ => .inl ⟨hf, ht, hslot⟩

/-- Settles O17: of the ways in which a step can change a flag, its value before and after leaves one. -/
theorem stalledFlagOwners : Obligations.StalledFlagOwners := by
  intro s t hr h
  refine ⟨fun h0 h1 => ?_, fun h0 h1 => ?_, fun h0 h1 => ?_, fun h0 h1 => ?_⟩
  · simpa [h0, h1] using step_stalledRd hr h
  · simpa [h0, h1] using step_stalledWr hr h
  · simpa [h0, h1] using step_stalledRd hr h
  · simpa [h0, h1] using step_stalledWr hr h

/-! ### The divisor, the enables and the phases (R21, R22, R30) -/

/-- `DIV`, both enables and both phases of `s` are those of `t` too. -/
structure State.ClocksKept (s t : State) : Prop where
  div : t.div = s.div
  enRd : t.enRd = s.enRd
  enWr : t.enWr = s.enWr
  phaseRd : t.phaseRd = s.phaseRd
  phaseWr : t.phaseWr = s.phaseWr

/-- The sequencer writes the clock fields at a CONFIGURE or a RETIME it takes from the port, and nowhere else. -/
theorem SeqCase.clocks {s t : State} (h : SeqCase s t) :
    s.ClocksKept t ∨ s.opstate = .idle ∧ ∃ more, s.port = .retime :: more ∨
      ∃ cw cdb ct, s.port = .command cw cdb :: more ∧ decode (.h64 cw cdb) = .ok (.configure ct) := by
  cases h with
  | configure r more ct ho hp hr =>
    refine .inr ⟨ho, more, ?_⟩
    rcases hr with rfl | ⟨cw, cdb, rfl, hd⟩
    · exact .inl hp
    · exact .inr ⟨cw, cdb, ct, hp, hd⟩
  | _ => rename_i h; subst h; exact .inl ⟨rfl, rfl, rfl, rfl, rfl⟩

/-- The RD lane leaves `DIV`, both enables and the other lane's phase alone. -/
theorem RdCase.clocks {s t : State} (h : RdCase s t) :
    t.div = s.div ∧ t.enRd = s.enRd ∧ t.enWr = s.enWr ∧ t.phaseWr = s.phaseWr :=
  ⟨(congrArg State.div h.frame :), (congrArg State.enRd h.frame :), (congrArg State.enWr h.frame :),
    (congrArg State.phaseWr h.frame :)⟩

/-- The WR lane leaves `DIV`, both enables and the other lane's phase alone. -/
theorem WrCase.clocks {s t : State} (h : WrCase s t) :
    t.div = s.div ∧ t.enRd = s.enRd ∧ t.enWr = s.enWr ∧ t.phaseRd = s.phaseRd :=
  ⟨(congrArg State.div h.frame :), (congrArg State.enRd h.frame :), (congrArg State.enWr h.frame :),
    (congrArg State.phaseRd h.frame :)⟩

/-- The RD lane's clock cycle keeps its phase, counts it up short of the tick, or restarts it. -/
theorem RdCase.phaseRd {s t : State} (h : RdCase s t) :
    t.phaseRd = s.phaseRd ∨ s.phaseRd ≠ s.div - 1#16 ∧ t.phaseRd = s.phaseRd + 1#16 ∨ t.phaseRd = 0#16 := by
  cases h with
  | disabled h => subst h; exact .inl rfl
  | count hn h => subst h; exact .inr (.inl ⟨hn, rfl⟩)
  | _ => rename_i h; subst h; exact .inr (.inr rfl)

/-- The WR lane's clock cycle keeps its phase, counts it up short of the tick, or restarts it. -/
theorem WrCase.phaseWr {s t : State} (h : WrCase s t) :
    t.phaseWr = s.phaseWr ∨ s.phaseWr ≠ s.div - 1#16 ∧ t.phaseWr = s.phaseWr + 1#16 ∨ t.phaseWr = 0#16 := by
  cases h with
  | disabled h => subst h; exact .inl rfl
  | count hn h => subst h; exact .inr (.inl ⟨hn, rfl⟩)
  | _ => rename_i h; subst h; exact .inr (.inr rfl)

/-- An RD lane whose phase moves is enabled, and its phase goes to the next value (R30). -/
theorem rdLaneTurn_phase {s t : State} (h : rdLaneTurn s = .next t) :
    t.phaseRd = s.phaseRd ∨ s.enRd = true ∧ t.phaseRd = nextPhase s.div s.phaseRd := by
  cases he : s.enRd with
  | false =>
    rw [rdLaneTurn_disabled he] at h
    cases h
    exact .inl rfl
  | true =>
    rcases (rd_cases h).phaseRd with hsame | ⟨hn, hcount⟩ | hzero
    · exact .inl hsame
    · exact .inr ⟨rfl, by rw [hcount, nextPhase, if_neg hn]⟩
    · by_cases hp : s.phaseRd = s.div - 1#16
      · exact .inr ⟨rfl, by rw [hzero, nextPhase, if_pos hp]⟩
      · rw [rdLaneTurn_wait he hp] at h
        cases h
        exact .inr ⟨rfl, by rw [nextPhase, if_neg hp]⟩

/-- A WR lane whose phase moves is enabled, and its phase goes to the next value (R30). -/
theorem wrLaneTurn_phase {s t : State} (h : wrLaneTurn s = .next t) :
    t.phaseWr = s.phaseWr ∨ s.enWr = true ∧ t.phaseWr = nextPhase s.div s.phaseWr := by
  cases he : s.enWr with
  | false =>
    rw [wrLaneTurn_disabled he] at h
    cases h
    exact .inl rfl
  | true =>
    rcases (wr_cases h).phaseWr with hsame | ⟨hn, hcount⟩ | hzero
    · exact .inl hsame
    · exact .inr ⟨rfl, by rw [hcount, nextPhase, if_neg hn]⟩
    · by_cases hp : s.phaseWr = s.div - 1#16
      · exact .inr ⟨rfl, by rw [hzero, nextPhase, if_pos hp]⟩
      · rw [wrLaneTurn_wait he hp] at h
        cases h
        exact .inr ⟨rfl, by rw [nextPhase, if_neg hp]⟩

/-- Settles O16: power-on reset and the sequencer's CONFIGURE reconfigure; a lane's turn moves its own phase at most. -/
theorem divisorOnlyByConfigure : Obligations.DivisorOnlyByConfigure := by
  intro s t h
  rcases step_cases h with ⟨hpor, -⟩ | ⟨-, -, ⟨hturn, hseq⟩ | ⟨hturn, hrd⟩ | ⟨hturn, hwr⟩⟩
  · have hrc : s.Reconfigures := .inl hpor
    exact ⟨fun _ => hrc, fun _ => .inl hrc, fun _ => .inl hrc⟩
  · rcases (seq_cases hseq).clocks with ⟨hdiv, henRd, henWr, hrd, hwr⟩ | hconf
    · exact ⟨fun hne => by simp [hdiv, henRd, henWr] at hne, fun hne => absurd hrd hne, fun hne => absurd hwr hne⟩
    · have hrc : s.Reconfigures := .inr ⟨hturn, hconf⟩
      exact ⟨fun _ => hrc, fun _ => .inl hrc, fun _ => .inl hrc⟩
  · obtain ⟨hdiv, henRd, henWr, hphase⟩ := (rd_cases hrd).clocks
    refine ⟨fun hne => by simp [hdiv, henRd, henWr] at hne, fun hne => .inr ⟨hturn, ?_⟩, fun hne => absurd hphase hne⟩
    exact (rdLaneTurn_phase hrd).resolve_left hne
  · obtain ⟨hdiv, henRd, henWr, hphase⟩ := (wr_cases hwr).clocks
    refine ⟨fun hne => by simp [hdiv, henRd, henWr] at hne, fun hne => absurd hphase hne, fun hne => .inr ⟨hturn, ?_⟩⟩
    exact (wrLaneTurn_phase hwr).resolve_left hne

/-! ### What the invariant says of the bus (R44) -/

/-- An RD lane that is not idle has a read under way (R74). -/
theorem State.Inv.reading_of_busy {s : State} (hs : s.Inv) (h : s.idleRd ≠ true) : s.access = .reading :=
  by_contra fun ha => h (hs.rdIdle ha)

/-- A WR lane that is not idle has a write under way (R74). -/
theorem State.Inv.writing_of_busy {s : State} (hs : s.Inv) (h : s.idleWr ≠ true) : s.access = .writing :=
  by_contra fun ha => h (hs.wrIdle ha)

/-- One access at most is under way, so one lane at least is idle (R44 (vi)). -/
theorem State.Inv.idleRd_or_idleWr {s : State} (hs : s.Inv) : s.idleRd = true ∨ s.idleWr = true := by
  cases ha : s.access with
  | writing => exact .inl (hs.rdIdle (by simp [ha]))
  | none | addressed | reading => exact .inr (hs.wrIdle (by simp [ha]))

/-- During a read strobe the WR lane neither strobes nor drives (R44 (iv), (v)). -/
theorem State.Inv.busSafe {s : State} (hs : s.Inv) : s.BusSafe := by
  rcases hs.idleRd_or_idleWr with hrd | hwr
  · obtain ⟨-, -, -, hstb⟩ := s.idleRd_iff.mp hrd
    exact ⟨by simp [hstb], fun _ => hstb⟩
  · obtain ⟨-, -, hstb, hoe⟩ := s.idleWr_iff.mp hwr
    exact ⟨by simp [hstb], by simp [hoe]⟩

/-- At most one of the two chip selects is asserted (R44 (iii)). -/
theorem one_select {cs : BitVec 2} (h : cs ≠ 0b11#2) : ¬(cs.getLsbD 0 = true ∧ cs.getLsbD 1 = true) := by
  revert cs
  decide

/-- While IDLE both lanes are idle (R44 (viii)). -/
theorem State.Inv.lanes_of_idle {s : State} (hs : s.Inv) (ho : s.opstate = .idle) :
    s.idleRd = true ∧ s.idleWr = true := by
  have ha := hs.idleNoAccess ho
  exact ⟨hs.rdIdle (by simp [ha]), hs.wrIdle (by simp [ha])⟩

/-- Settles O12, clause by clause of R44. -/
theorem invGivesBusRules : Obligations.InvGivesBusRules := by
  intro s hs
  obtain ⟨hstrobes, hdrive⟩ := hs.busSafe
  exact ⟨⟨hs.divPositive, Nat.le_of_lt_succ s.div.isLt⟩, hs.enablesAgree, one_select hs.oneSelect, hstrobes, hdrive,
    hs.idleRd_or_idleWr, hs.inqRdOne, hs.lanes_of_idle⟩

/-! ### Every step keeps the invariant (R44) -/

/-- Off slot 0 the RD lane has a read under way. -/
theorem State.Inv.reading_of_slot {s : State} (hs : s.Inv) (h : s.pcRd ≠ 0#3) : s.access = .reading :=
  hs.reading_of_busy fun hi => h (s.idleRd_iff.mp hi).1

/-- Off slot 0 the WR lane has a write under way. -/
theorem State.Inv.writing_of_slot {s : State} (hs : s.Inv) (h : s.pcWr ≠ 0#2) : s.access = .writing :=
  hs.writing_of_busy fun hi => h (s.idleWr_iff.mp hi).1

/-- A phase that counts up short of the tick stays below the divisor (R30). -/
theorem phase_succ_lt {div ph : BitVec 16} (h : ph.toNat < div.toNat) (hn : ph ≠ div - 1#16) :
    (ph + 1#16).toNat < div.toNat := by
  simpa [nextPhase, hn] using nextPhase_lt h

/-- A phase that restarts is below the divisor (R30). -/
theorem phase_zero_lt {div : BitVec 16} (h : 1 ≤ div.toNat) : (0#16).toNat < div.toNat := h

/-- A turn of the RD lane keeps the invariant: off slot 0, and on taking a hand-off, a read is under way. -/
theorem RdCase.keepsInv {s t : State} (hs : s.Inv) (h : RdCase s t) : t.Inv := by
  have hslot := hs.reading_of_slot
  have hzero := phase_zero_lt hs.divPositive
  cases h with
  | disabled h => subst h; exact hs
  | count hn h => subst h; exact { hs with phaseRdRange := phase_succ_lt hs.phaseRdRange hn }
  | starve hpc hq h =>
    subst h
    rw [← hpc]
    exact { hs with phaseRdRange := hzero }
  | getcnt w more hpc hq h =>
    subst h
    have ha : s.access = .reading := hs.reading_of_busy fun hi => by simp [s.idleRd_iff, hq] at hi
    have hstb : s.rdStb = false := by simp [hs.rdStrobe, hpc]
    have hlen : (w :: more).length ≤ 1 := hq ▸ hs.inqRdOne
    exact { hs with
      rdSlot := (by decide : (1#3).toNat ≤ 4), rdStrobe := hstb, rdIdle := absurd ha
      inqRdOne := Nat.le_of_succ_le hlen, phaseRdRange := hzero }
  | strobe hpc h =>
    subst h
    have ha := hslot (by simp [hpc])
    exact { hs with
      rdSlot := (by decide : (2#3).toNat ≤ 4), rdStrobe := rfl, rdIdle := absurd ha, phaseRdRange := hzero }
  | hold hpc h =>
    subst h
    have ha := hslot (by simp [hpc])
    have hstb : s.rdStb = true := by simp [hs.rdStrobe, hpc]
    exact { hs with
      rdSlot := (by decide : (3#3).toNat ≤ 4), rdStrobe := hstb, rdIdle := absurd ha, phaseRdRange := hzero }
  | full hpc hf h =>
    subst h
    rw [← hpc]
    exact { hs with phaseRdRange := hzero }
  | sample v hpc hf h =>
    subst h
    have ha := hslot (by simp [hpc])
    have hstb : s.rdStb = true := by simp [hs.rdStrobe, hpc]
    have hroom : (s.rxq ++ [v]).length ≤ s.params.fifoDepth := by simpa [isFull] using hf
    exact { hs with
      rdSlot := (by decide : (4#3).toNat ≤ 4), rdStrobe := hstb, rdIdle := absurd ha, rxqDepth := hroom
      phaseRdRange := hzero }
  | last hpc hx h =>
    subst h
    have ha := hslot (by simp [hpc])
    exact { hs with
      rdSlot := (by decide : (0#3).toNat ≤ 4), rdStrobe := rfl, rdIdle := absurd ha, phaseRdRange := hzero }
  | again hpc hx h =>
    subst h
    have ha := hslot (by simp [hpc])
    exact { hs with
      rdSlot := (by decide : (1#3).toNat ≤ 4), rdStrobe := rfl, rdIdle := absurd ha, phaseRdRange := hzero }

/-- A turn of the WR lane keeps the invariant: off slot 0, and on taking a word, a write is under way. -/
theorem WrCase.keepsInv {s t : State} (hs : s.Inv) (h : WrCase s t) : t.Inv := by
  have hslot := hs.writing_of_slot
  have hzero := phase_zero_lt hs.divPositive
  cases h with
  | disabled h => subst h; exact hs
  | count hn h => subst h; exact { hs with phaseWrRange := phase_succ_lt hs.phaseWrRange hn }
  | starve hpc hq h =>
    subst h
    have hstb : s.wrStb = false := by simp [hs.wrStrobe, hpc]
    exact { hs with
      wrStrobe := hstb, wrDrives := absurd rfl, wrIdle := fun _ => by simp [State.idleWr_iff, hq, hstb]
      phaseWrRange := hzero }
  | getdata w more hpc hq h =>
    subst h
    have ha : s.access = .writing := hs.writing_of_busy fun hi => by simp [s.idleWr_iff, hq] at hi
    have hstb : s.wrStb = false := by simp [hs.wrStrobe, hpc]
    have hlen : (w :: more).length ≤ s.params.fifoDepth := hq ▸ hs.inqWrDepth
    exact { hs with
      wrStrobe := hstb, wrDrives := fun _ => rfl, wrIdle := absurd ha, inqWrDepth := Nat.le_of_succ_le hlen
      phaseWrRange := hzero }
  | strobe hpc h =>
    subst h
    have ha := hslot (by simp [hpc])
    have hoe := hs.wrDrives (by simp [hpc])
    exact { hs with wrStrobe := rfl, wrDrives := fun _ => hoe, wrIdle := absurd ha, phaseWrRange := hzero }
  | hold hpc h =>
    subst h
    have ha := hslot (by simp [hpc])
    have hoe := hs.wrDrives (by simp [hpc])
    have hstb : s.wrStb = true := by simp [hs.wrStrobe, hpc]
    exact { hs with wrStrobe := hstb, wrDrives := fun _ => hoe, wrIdle := absurd ha, phaseWrRange := hzero }
  | finish hpc h =>
    subst h
    have ha := hslot (by simp [hpc])
    exact { hs with wrStrobe := rfl, wrDrives := absurd rfl, wrIdle := absurd ha, phaseWrRange := hzero }

/-- `SetAddr` asserts one chip select (R108, R180). -/
theorem csOf_ne_both (ra : BitVec 4) : csOf ra ≠ 0b11#2 := by
  unfold csOf
  split <;> decide

/-- A divisor in range, put into `DIV`, is at least 1 there (R141). -/
theorem one_le_toNat_divisor {p : Config.Params} {ct : Nat} (h : divisor p ct ≤ 65535) :
    1 ≤ (BitVec.ofNat 16 (divisor p ct)).toNat := by
  have hpos : 1 ≤ divisor p ct := Nat.le_max_left ..
  rw [BitVec.toNat_ofNat, Nat.mod_eq_of_lt (by omega)]
  exact hpos

/-- CONFIGURE, with no access under way, keeps the invariant at every divisor of at least 1 (R143). -/
theorem State.Inv.configured {s : State} (hs : s.Inv) (ha : s.access = .none) {d : BitVec 16} (hd : 1 ≤ d.toNat)
    (m : List HostReq) :
    { s with
      port := m, enRd := true, enWr := true, div := d, phaseRd := 0#16, phaseWr := 0#16, res := .ok
      opstate := .idle }.Inv :=
  { hs with
    divPositive := hd, enablesAgree := rfl, idleNoAccess := fun _ => ha, phaseRdRange := phase_zero_lt hd
    phaseWrRange := phase_zero_lt hd }

/-- A turn of the sequencer keeps the invariant: it hands over only to idle lanes and ends an access only with both idle. -/
theorem SeqCase.keepsInv {s t : State} (hs : s.Inv) (h : SeqCase s t) : t.Inv := by
  cases h with
  | stay h => subst h; exact hs
  | withheld _ h | answer _ _ _ _ _ h | noop _ _ _ _ h => subst h; exact { hs with }
  | clearRd _ _ _ h | clearWr _ _ _ h | moves _ _ _ _ _ _ _ h | setRst _ _ _ _ h | delay _ _ _ _ h
  | violation _ _ _ _ _ h | badAddress _ _ _ _ _ h | accepted _ _ _ _ _ _ h =>
    subst h; exact { hs with idleNoAccess := nofun }
  | done _ _ _ ha h => subst h; exact { hs with idleNoAccess := fun _ => ha }
  | configure _ m _ _ _ _ _ ha hd h => subst h; exact hs.configured ha (one_le_toNat_divisor hd) m
  | setAddr _ ra _ _ _ hi h =>
    subst h
    obtain ⟨hrd, hwr⟩ := s.lanesIdle_iff.mp hi
    exact { hs with
      oneSelect := csOf_ne_both ra, rdIdle := fun _ => hrd, wrIdle := fun _ => hwr, idleNoAccess := nofun }
  | pushRd _ w _ _ ha h =>
    subst h
    obtain ⟨-, hq, -, -⟩ := s.idleRd_iff.mp (hs.rdIdle (by simp [ha]))
    exact { hs with
      rdIdle := absurd rfl, wrIdle := fun _ => hs.wrIdle (by simp [ha]), inqRdOne := by simp [hq], idleNoAccess := nofun }
  | pushWr _ w _ _ ha hf h =>
    subst h
    have hroom : (s.inqWr ++ [w]).length ≤ s.params.fifoDepth := by simpa [isFull] using hf
    have hrd : s.idleRd = true := hs.rdIdle (by rcases ha with ha | ha <;> simp [ha])
    exact { hs with rdIdle := fun _ => hrd, wrIdle := absurd rfl, inqWrDepth := hroom, idleNoAccess := nofun }
  | endAccess _ _ q _ _ hi h =>
    subst h
    obtain ⟨hrd, hwr⟩ := (State.lanesIdle_iff _).mp hi
    obtain ⟨-, -, hq, -⟩ := (State.idleRd_iff _).mp hrd
    have hdepth : q.length ≤ s.params.fifoDepth := by simp [show q = [] from hq]
    exact { hs with rdIdle := fun _ => hrd, wrIdle := fun _ => hwr, rxqDepth := hdepth, idleNoAccess := nofun }
  | emit _ _ v q _ hq h =>
    subst h
    have ha : s.access = .reading := hs.reading_of_busy fun hi => by simp [s.idleRd_iff, hq] at hi
    have hdepth : (v :: q).length ≤ s.params.fifoDepth := hq ▸ hs.rxqDepth
    exact { hs with
      rdIdle := absurd ha, rxqDepth := Nat.le_of_succ_le hdepth, idleNoAccess := nofun
      bufCanonical := Memory.wf_writeWord _ _ _ hs.bufCanonical }
  | capture _ _ _ h =>
    subst h
    exact { hs with idleNoAccess := nofun, idCanonical := Memory.wf_firstWords _ _ hs.bufCanonical }

/-- Power-on reset keeps the invariant: the reset state meets it, and the host's memories stay canonical (R360). -/
theorem State.Inv.powerOnReset {s : State} (hs : s.Inv) : s.powerOnReset.Inv :=
  { inv_reset with
    inqWrDepth := Nat.zero_le _, rxqDepth := Nat.zero_le _, bufCanonical := hs.bufCanonical
    idCanonical := hs.idCanonical }

/-- The invariant does not speak of whose turn it is. -/
theorem State.Inv.withTurn {s : State} (hs : s.Inv) (u : Turn) : { s with turn := u }.Inv := { hs with }

/-- Settles O10: power-on reset and the turn of each agent keep the invariant. -/
theorem stepKeepsInv : Obligations.StepKeepsInv := by
  intro s t hs h
  rcases step_cases h with ⟨-, rfl⟩ | ⟨-, -, ⟨-, hseq⟩ | ⟨-, hrd⟩ | ⟨-, hwr⟩⟩
  · exact hs.powerOnReset
  · exact (seq_cases hseq).keepsInv (hs.withTurn .rdLane)
  · exact (rd_cases hrd).keepsInv (hs.withTurn .wrLane)
  · exact (wr_cases hwr).keepsInv (hs.withTurn .sequencer)

end Sys2Proof.Machine

namespace Sys2Proof.Machine

/-! Proofs of the statements on the registers and the memory: the address lines and who may drive them when (R74, R83, R180), a
one-word read as an operation of its own (R76, R184), and what a burst leaves in the caller's buffer (R80, R232). -/

/-! ### An operation from its acceptance to its end (R101) -/

/-- An accepted operation ends as its code leads it, from its first line on, whatever the loose fields there. -/
theorem endsAs_of_leadsTo {i : Instr} {s u : State} {code : List SeqOp} (hs : s.Waiting)
    (he : exec i s = .next (s.begin code))
    (h : ∀ f : Loose, ((s.atCode code).withLoose f).Between → LeadsTo Loose.any ((s.atCode code).withLoose f) (u.withLoose f)) :
    EndsAs i s u := by
  refine ⟨_, he, LeadsTo.reaches (P := Loose.any) ((leads_accepted hs code).trans rfl fun f _ hp hr => ?_)⟩
  exact h f ((hs.atCode code).withLoose hp hr)

/-- `RVAL <- v` (R184). -/
theorem leads_setRval {s : State} {rest : List SeqOp} (hs : s.Between) (ho : s.opstate = .busy (.setRval :: rest)) :
    LeadsTo Loose.any s (State.atCode { s with rval := s.smp } rest) :=
  leads_line (t := { s with rval := s.smp }) hs ho (fun _ _ _ _ _ => rfl)
    (hs.live.of_eq rfl hs.live.phaseRdRange hs.live.phaseWrRange) hs.lanesIdle rfl (fun _ _ _ => trivial)

/-- RDREG from its first line to its end: the access, the sampled word to `RVAL`, `return OK` (R184). -/
theorem leads_rdreg {s : State} {ra : BitVec 4} (hs : s.Between) (hra : isEnumerator ra = true)
    (ho : s.opstate = .busy (memRead ra ++ [.setRval])) :
    LeadsTo Loose.any s ({ s.didRead ra with rval := s.sampleAt 0 }.ended .ok) := by
  refine (leads_memRead hs hra ho).trans rfl fun f hsmp hp hr => ?_
  have hread : (((s.didRead ra).atCode [.setRval]).withLoose f).Between := ((hs.didRead ra).atCode _).withLoose hp hr
  rw [← hsmp]
  refine (leads_setRval hread rfl).trans rfl fun g _ hp hr => ?_
  exact leads_end (s := State.withLoose (State.atCode { s.didRead ra with rval := f.smp } []) g)
    (hread.of_eq rfl hp hr rfl rfl rfl) rfl

/-- RDREG of no enumerator is refused in IDLE (R104). -/
theorem exec_rdreg_refused {s : State} {ra : BitVec 4} (ho : s.opstate = .idle) (hra : isEnumerator ra = false) :
    exec (.rdreg ra) s = raiseViolation .reservedEncoding s := by
  simp [exec, execRdreg, accept_idle _ ho, hra]

/-- RDREG of an enumerator is accepted in IDLE (R101). -/
theorem exec_rdreg_accepted {s : State} {ra : BitVec 4} (ho : s.opstate = .idle) (hra : isEnumerator ra = true) :
    exec (.rdreg ra) s = .next (s.begin (memRead ra ++ [.setRval])) := by
  simp [exec, execRdreg, accept_idle _ ho, hra]

/-- Settles O28: refused at acceptance, or accepted and led to its end by its lines. -/
theorem rdregRuns : Obligations.RdregRuns := by
  intro s ra hs
  refine ⟨exec_rdreg_refused hs.idle, fun hra => ?_⟩
  refine endsAs_of_leadsTo hs (exec_rdreg_accepted hs.idle hra) fun f hf => ?_
  exact leads_rdreg hf hra rfl

/-! ### The lines hold during a strobe (R83) -/

/-- While a strobe is asserted its lane is at work (R37). -/
theorem State.lanesIdle_ne_of_strobe {s : State} (h : s.rdStb = true ∨ s.wrStb = true) : s.lanesIdle ≠ true := by
  intro hi
  obtain ⟨hrd, hwr⟩ := s.lanesIdle_iff.mp hi
  obtain ⟨-, -, -, hrdStb⟩ := s.idleRd_iff.mp hrd
  obtain ⟨-, -, hwrStb, -⟩ := s.idleWr_iff.mp hwr
  simp [hrdStb, hwrStb] at h

/-- With a lane at work the sequencer leaves the address lines alone, for `SetAddr` needs both idle (R74, R180). -/
theorem SeqCase.address_kept {s t : State} (h : SeqCase s t) (hi : s.lanesIdle ≠ true) : t.cs = s.cs ∧ t.da = s.da := by
  cases h with
  | setAddr _ _ _ _ _ hidle _ => exact absurd hidle hi
  | _ => rename_i h; subst h; exact ⟨rfl, rfl⟩

/-- The sequencer drives no data line (R20). -/
theorem SeqCase.data_kept {s t : State} (h : SeqCase s t) : t.ddOut = s.ddOut ∧ t.ddOe = s.ddOe := by
  rw [h.frame]
  exact ⟨rfl, rfl⟩

/-- The RD lane drives no data line (R20). -/
theorem RdCase.data_kept {s t : State} (h : RdCase s t) : t.ddOut = s.ddOut ∧ t.ddOe = s.ddOe := by
  rw [h.frame]
  exact ⟨rfl, rfl⟩

/-- The WR lane changes the data it drives in slot 0 alone (R155). -/
theorem WrCase.data_kept {s t : State} (h : WrCase s t) (hpc : s.pcWr ≠ 0#2) : t.ddOut = s.ddOut ∧ t.ddOe = s.ddOe := by
  cases h with
  | starve hzero _ _ | getdata _ _ hzero _ _ => exact absurd hzero hpc
  | _ => rename_i h; subst h; exact ⟨rfl, rfl⟩

/-- During the write strobe the WR lane is past slot 0 (R156, R158). -/
theorem State.Inv.pcWr_ne_of_strobe {s : State} (hs : s.Inv) (h : s.wrStb = true) : s.pcWr ≠ 0#2 := by
  intro hpc
  simp [hs.wrStrobe, hpc] at h

/-- Settles O13: the address lines are driven only with both lanes idle, the data only by the WR lane in its slot 0. -/
theorem linesHoldInStrobe : Obligations.LinesHoldInStrobe := by
  intro s t hr h
  refine ⟨fun hstb => ?_, fun hs hstb => ?_⟩
  · rcases step_sequencer_or_lane hr h with ⟨-, hseq⟩ | hkept
    · exact (seq_cases hseq).address_kept (State.lanesIdle_ne_of_strobe (s := s) hstb)
    · exact ⟨hkept.cs, hkept.da⟩
  · rcases step_turns hr h with ⟨-, hseq⟩ | ⟨-, hrd⟩ | ⟨-, hwr⟩
    · exact hseq.data_kept
    · exact hrd.data_kept
    · exact hwr.data_kept (hs.pcWr_ne_of_strobe hstb)

/-! ### Words stored one after the other (R80, R107) -/

/-- Storing words keeps the canonical form. -/
theorem Memory.wf_writeWords (ws : List BusWord) (m : Memory) (i : Nat) (h : m.wf) : (m.writeWords i ws).wf := by
  induction ws generalizing m i with
  | nil => exact h
  | cons w ws ih => exact ih _ _ (Memory.wf_writeWord _ _ _ h)

/-- A byte outside the stored words reads as before. -/
theorem Memory.readByte_writeWords_other (ws : List BusWord) (m : Memory) (i a : Nat) (h : m.wf)
    (ha : a < 2 * i ∨ 2 * (i + ws.length) ≤ a) : (m.writeWords i ws).readByte a = m.readByte a := by
  induction ws generalizing m i with
  | nil => rfl
  | cons w ws ih =>
    rw [List.length_cons] at ha
    rw [Memory.writeWords, ih _ _ (Memory.wf_writeWord _ _ _ h) (by omega),
      Memory.readByte_writeWord_other _ _ _ _ (by omega) (by omega) h]

/-- A word before the stored ones reads as before. -/
theorem Memory.readWord_writeWords_below (ws : List BusWord) (m : Memory) (i j : Nat) (h : m.wf) (hj : j < i) :
    (m.writeWords i ws).readWord j = m.readWord j := by
  unfold Memory.readWord
  rw [Memory.readByte_writeWords_other ws m i _ h (by omega), Memory.readByte_writeWords_other ws m i _ h (by omega)]

/-- The `k`-th stored word reads back at index `k` from the first. -/
theorem Memory.readWord_writeWords (ws : List BusWord) (m : Memory) (i k : Nat) (h : m.wf) (hk : k < ws.length) :
    (m.writeWords i ws).readWord (i + k) = ws[k] := by
  induction ws generalizing m i k with
  | nil => simp at hk
  | cons w ws ih =>
    have hw := Memory.wf_writeWord m i w h
    cases k with
    | zero =>
      exact (Memory.readWord_writeWords_below ws _ _ _ hw (Nat.lt_succ_self i)).trans
        (Memory.readWord_writeWord_same m i w h)
    | succ k =>
      rw [Memory.writeWords, show i + (k + 1) = i + 1 + k by omega]
      exact ih _ _ _ hw (Nat.lt_of_succ_lt_succ hk)

@[simp] theorem State.firstSamples_getElem (s : State) (n k : Nat) (h : k < (s.firstSamples n).length) :
    (s.firstSamples n)[k] = s.sampleAt k := by
  simp [State.firstSamples]

/-- What a burst leaves in the caller's buffer (R232). -/
theorem State.didBurst_buf (s : State) (ra : BitVec 4) (n : Nat) :
    (s.didBurst ra n).buf = s.buf.writeWords s.emitted (s.firstSamples n) := rfl

/-- Settles O42, by the laws of storing words one after the other. -/
theorem burstFillsBuffer : Obligations.BurstFillsBuffer := by
  intro s ra n hwf
  rw [State.didBurst_buf]
  refine ⟨fun i hi => ?_, fun a ha => ?_, Memory.wf_writeWords _ _ _ hwf⟩
  · rw [Memory.readWord_writeWords _ _ _ _ hwf (by simpa using hi), State.firstSamples_getElem]
  · exact Memory.readByte_writeWords_other _ _ _ _ hwf (by simpa using ha)

/-! ### The register codes as `SetAddr` (R180) -/

/-- The instruction of each enumerator's register address code, and that code (R71). -/
inductive RegisterCode : Instr → BitVec 4 → Prop
  | data : RegisterCode .raData Config.raData
  | errorFeatures : RegisterCode .raErrorFeatures Config.raError
  | sectorCount : RegisterCode .raSectorCount Config.raSectorCount
  | lbaLow : RegisterCode .raLbaLow Config.raLbaLow
  | lbaMid : RegisterCode .raLbaMid Config.raLbaMid
  | lbaHigh : RegisterCode .raLbaHigh Config.raLbaHigh
  | device : RegisterCode .raDevice Config.raDevice
  | statusCommand : RegisterCode .raStatusCommand Config.raStatus
  | altStatus : RegisterCode .raAltStatus Config.raAltStatus

theorem RegisterCode.exec_eq {i : Instr} {ra : BitVec 4} (h : RegisterCode i ra) (s : State) : exec i s = setAddr ra s := by
  cases h <;> rfl

/-- Between two accesses `SetAddr` drives the lines and begins an access (R74, R180). -/
theorem setAddr_of_idle (ra : BitVec 4) {s : State} (ha : s.access = .none) (hi : s.lanesIdle = true) :
    setAddr ra s =
      .next { s with cs := csOf ra, da := daOf ra, access := .addressed, trace := s.trace ++ [addrEvent ra] } :=
  if_pos ⟨ha, hi⟩

/-- With an access under way or a lane at work `SetAddr` is a fault (R74, R183). -/
theorem setAddr_of_overlap (ra : BitVec 4) {s : State} (h : s.access ≠ .none ∨ s.lanesIdle = false) :
    setAddr ra s = .fault .overlappingAccess := by
  refine if_neg fun ⟨ha, hi⟩ => ?_
  simp [ha, hi] at h

/-- Settles O44: each of the nine codes is `SetAddr`, and its chip select and offset are the listed ones. -/
theorem setAddrDrives : Obligations.SetAddrDrives := by
  intro s ha hi i cs da hmem
  obtain ⟨ra, hcode, rfl, rfl⟩ : ∃ ra, RegisterCode i ra ∧ csOf ra = cs ∧ daOf ra = da := by
    simp only [List.mem_cons, List.not_mem_nil, or_false, Prod.mk.injEq] at hmem
    rcases hmem with ⟨rfl, rfl, rfl⟩ | ⟨rfl, rfl, rfl⟩ | ⟨rfl, rfl, rfl⟩ | ⟨rfl, rfl, rfl⟩ | ⟨rfl, rfl, rfl⟩ |
      ⟨rfl, rfl, rfl⟩ | ⟨rfl, rfl, rfl⟩ | ⟨rfl, rfl, rfl⟩ | ⟨rfl, rfl, rfl⟩ <;>
    exact ⟨_, by constructor, rfl, rfl⟩
  rw [hcode.exec_eq]
  exact setAddr_of_idle ra ha hi

/-- Settles O45: each of the nine codes is `SetAddr`, which faults there. -/
theorem overlapFaults : Obligations.OverlapFaults := by
  intro s i hover hi
  obtain ⟨ra, hcode⟩ : ∃ ra, RegisterCode i ra := by
    rcases hi with rfl | rfl | rfl | rfl | rfl | rfl | rfl | rfl | rfl <;> exact ⟨_, by constructor⟩
  rw [hcode.exec_eq]
  exact setAddr_of_overlap ra hover

end Sys2Proof.Machine

namespace Sys2Proof.Machine

/-! Proofs of the statements on the encodings: which words stand for which instruction, which words and operands are refused,
what the port does while BUSY, and the bytes and words the encoded commands put on the bus. -/

/-! ### What a command word stands for (R100, R102, R105) -/

/-- The operation code, the fields and the instruction of a command word that decodes, with `cdb` as its side operand: a field
the operation does not use is zero (R105), and PACKET alone takes the side operand (R100). -/
inductive CommandWord (cdb : Cdb) : BitVec 4 → H64Fields → Instr → Prop
  | configure (ct : BitVec 32) : CommandWord cdb 0x1#4 ⟨0, 0, 0, 0, 0, ct⟩ (.configure ct)
  | rdreg (ra : BitVec 4) : CommandWord cdb 0x2#4 ⟨0, ra, 0, 0, 0, 0⟩ (.rdreg ra)
  | wrreg (ra : BitVec 4) (v : BusWord) : CommandWord cdb 0x3#4 ⟨0, ra, 0, 0, v, 0⟩ (.wrreg ra v)
  | hwreset : CommandWord cdb 0x4#4 ⟨0, 0, 0, 0, 0, 0⟩ .hwreset
  | devreset (dev : BitVec 1) : CommandWord cdb 0x5#4 ⟨dev, 0, 0, 0, 0, 0⟩ (.devreset dev)
  | isready : CommandWord cdb 0x6#4 ⟨0, 0, 0, 0, 0, 0⟩ .isready
  | pioread (n : BitVec 32) : CommandWord cdb 0x7#4 ⟨0, 0, 0, 0, 0, n⟩ (.pioread n)
  | rdsect (dev : BitVec 1) (lba : BitVec 32) (count : BitVec 16) :
      CommandWord cdb 0x8#4 ⟨dev, 0, 0, 0, count, lba⟩ (.rdsect dev lba count)
  | ident (dev idc : BitVec 1) : CommandWord cdb 0x9#4 ⟨dev, 0, idc, 0, 0, 0⟩ (.ident dev idc)
  | packet (dev : BitVec 1) (limit : BitVec 16) : CommandWord cdb 0xA#4 ⟨dev, 0, 0, 0, limit, 0⟩ (.packet dev limit cdb)
  | reservedOpc0 (f : H64Fields) : CommandWord cdb 0x0#4 f (.reservedOpc0 f)
  | reservedOpcB (f : H64Fields) : CommandWord cdb 0xB#4 f (.reservedOpcB f)
  | reservedOpcC (f : H64Fields) : CommandWord cdb 0xC#4 f (.reservedOpcC f)
  | reservedOpcD (f : H64Fields) : CommandWord cdb 0xD#4 f (.reservedOpcD f)
  | reservedOpcE (f : H64Fields) : CommandWord cdb 0xE#4 f (.reservedOpcE f)
  | reservedOpcF (f : H64Fields) : CommandWord cdb 0xF#4 f (.reservedOpcF f)

theorem onlyFields_of_eq {f used : H64Fields} (h : f = used) (i : Instr) : onlyFields f used i = .ok i := if_pos h

theorem onlyFields_of_ne {f used : H64Fields} (h : f ≠ used) (i : Instr) :
    onlyFields f used i = .error .reservedField := if_neg h

/-- A field test fails as a reserved field, or passes with exactly the used fields set (R105). -/
theorem onlyFields_cases (f used : H64Fields) (i : Instr) :
    onlyFields f used i = .error .reservedField ∨ f = used ∧ onlyFields f used i = .ok i := by
  by_cases h : f = used
  · exact .inr ⟨h, onlyFields_of_eq h i⟩
  · exact .inl (onlyFields_of_ne h i)

/-- A field test on an operation's fields gives what the word decodes to. -/
theorem onlyFields_commandWord {cdb : Cdb} {opc : BitVec 4} {f used : H64Fields} {i : Instr}
    (h : f = used → CommandWord cdb opc f i) :
    onlyFields f used i = .error .reservedField ∨ ∃ j, onlyFields f used i = .ok j ∧ CommandWord cdb opc f j := by
  rcases onlyFields_cases f used i with herr | ⟨hf, hok⟩
  · exact .inl herr
  · exact .inr ⟨i, hok, h hf⟩

/-- The decoder of command words, by its cases: it refuses a word for a reserved field, or reads the word's instruction. -/
theorem decodeH64_cases (opc : BitVec 4) (f : H64Fields) (cdb : Cdb) :
    decodeH64 opc f cdb = .error .reservedField ∨ ∃ i, decodeH64 opc f cdb = .ok i ∧ CommandWord cdb opc f i := by
  have ofNat : ∀ k, opc.toNat = k → opc = BitVec.ofNat 4 k := fun k h => by rw [← h, BitVec.ofNat_toNat, BitVec.setWidth_eq]
  obtain ⟨dev, ra, idc, rsv, imm, w⟩ := f
  unfold decodeH64
  split
  case h_1 h => rw [ofNat _ h]; exact .inr ⟨_, rfl, .reservedOpc0 _⟩
  case h_2 h => rw [ofNat _ h]; exact onlyFields_commandWord fun hf => by cases hf; exact .configure _
  case h_3 h => rw [ofNat _ h]; exact onlyFields_commandWord fun hf => by cases hf; exact .rdreg _
  case h_4 h => rw [ofNat _ h]; exact onlyFields_commandWord fun hf => by cases hf; exact .wrreg _ _
  case h_5 h => rw [ofNat _ h]; exact onlyFields_commandWord fun hf => by cases hf; exact .hwreset
  case h_6 h => rw [ofNat _ h]; exact onlyFields_commandWord fun hf => by cases hf; exact .devreset _
  case h_7 h => rw [ofNat _ h]; exact onlyFields_commandWord fun hf => by cases hf; exact .isready
  case h_8 h => rw [ofNat _ h]; exact onlyFields_commandWord fun hf => by cases hf; exact .pioread _
  case h_9 h => rw [ofNat _ h]; exact onlyFields_commandWord fun hf => by cases hf; exact .rdsect _ _ _
  case h_10 h => rw [ofNat _ h]; exact onlyFields_commandWord fun hf => by cases hf; exact .ident _ _
  case h_11 h => rw [ofNat _ h]; exact onlyFields_commandWord fun hf => by cases hf; exact .packet _ _
  case h_12 h => rw [ofNat _ h]; exact .inr ⟨_, rfl, .reservedOpcB _⟩
  case h_13 h => rw [ofNat _ h]; exact .inr ⟨_, rfl, .reservedOpcC _⟩
  case h_14 h => rw [ofNat _ h]; exact .inr ⟨_, rfl, .reservedOpcD _⟩
  case h_15 h => rw [ofNat _ h]; exact .inr ⟨_, rfl, .reservedOpcE _⟩
  case h_16 => rw [ofNat 15 (by simp only [imp_false] at *; omega)]; exact .inr ⟨_, rfl, .reservedOpcF _⟩

/-- The decoder on a command word, by its cases. -/
theorem decode_h64_cases (cw : BitVec 64) (cdb : Cdb) :
    decode (.h64 cw cdb) = .error .reservedField ∨
      ∃ i, decode (.h64 cw cdb) = .ok i ∧ CommandWord cdb (h64Opc cw) (h64Fields cw) i :=
  decodeH64_cases (h64Opc cw) (h64Fields cw) cdb

theorem commandWord_of_decode {cw : BitVec 64} {cdb : Cdb} {i : Instr} (h : decode (.h64 cw cdb) = .ok i) :
    CommandWord cdb (h64Opc cw) (h64Fields cw) i := by
  rcases decode_h64_cases cw cdb with herr | ⟨j, hok, hj⟩
  · cases h.symm.trans herr
  · cases h.symm.trans hok
    exact hj

/-- What an instruction is encoded as is the word it stands for; PACKET alone has a side operand (R100, R102). -/
theorem CommandWord.encode_eq {cdb : Cdb} {opc : BitVec 4} {f : H64Fields} {i : Instr} (h : CommandWord cdb opc f i) :
    ∃ c, encode i = .h64 (h64Pack opc f) c ∧ ∀ dev limit body, i = .packet dev limit body → c = cdb ∧ body = cdb := by
  cases h with
  | packet dev limit => exact ⟨cdb, rfl, by rintro _ _ _ ⟨⟩; exact ⟨rfl, rfl⟩⟩
  | _ => exact ⟨Cdb.zero, rfl, nofun⟩

/-- Settles O2: a word is its operation code and its fields packed together, and a word that decodes packs those of its
instruction. -/
theorem commandWordUnique : Obligations.CommandWordUnique := by
  intro cw cdb i h
  obtain ⟨c, hc, hpacket⟩ := (commandWord_of_decode h).encode_eq
  exact ⟨c, by rw [hc, h64Pack_fields], hpacket⟩

/-- Settles O1, by the round trip of each instruction: the command words, whose fields carry the operands, and the short codes,
which an evaluation of the decoder reads back. -/
theorem decodeEncode : Obligations.DecodeEncode := by
  intro i
  cases i with
  | configure ct => exact Laws.RoundTrip.configure ct
  | rdreg ra => exact Laws.RoundTrip.rdreg ra
  | wrreg ra v => exact Laws.RoundTrip.wrreg ra v
  | devreset dev => exact Laws.RoundTrip.devreset dev
  | pioread n => exact Laws.RoundTrip.pioread n
  | rdsect dev lba count => exact Laws.RoundTrip.rdsect dev lba count
  | ident dev idc => exact Laws.RoundTrip.ident dev idc
  | packet dev limit cdb => exact Laws.RoundTrip.packet dev limit cdb
  | reservedOpc0 f => exact Laws.RoundTrip.reservedOpc0 f
  | reservedOpcB f => exact Laws.RoundTrip.reservedOpcB f
  | reservedOpcC f => exact Laws.RoundTrip.reservedOpcC f
  | reservedOpcD f => exact Laws.RoundTrip.reservedOpcD f
  | reservedOpcE f => exact Laws.RoundTrip.reservedOpcE f
  | reservedOpcF f => exact Laws.RoundTrip.reservedOpcF f
  | _ => rfl

/-- Settles O3: the decoder, evaluated on each word. -/
theorem wordsDecode : Obligations.WordsDecode :=
  ⟨rfl, rfl, rfl, rfl, rfl, rfl, rfl, rfl, rfl, rfl, rfl, rfl⟩

/-! ### The bits an operation does not use (R105) -/

/-- `OPC` as a number is the word's residue modulo 16 (R102). -/
theorem h64Opc_toNat (cw : BitVec 64) : (h64Opc cw).toNat = cw.toNat % 16 := by
  simp [h64Opc]

/-- The masks of the fields that an operation code uses (R100, R102). -/
def usedFields (opc : BitVec 4) : H64Fields :=
  match opc.toNat with
  | 0x1 | 0x7 => ⟨0, 0, 0, 0, 0, -1⟩
  | 0x2 => ⟨0, -1, 0, 0, 0, 0⟩
  | 0x3 => ⟨0, -1, 0, 0, -1, 0⟩
  | 0x4 | 0x6 => ⟨0, 0, 0, 0, 0, 0⟩
  | 0x5 => ⟨-1, 0, 0, 0, 0, 0⟩
  | 0x8 => ⟨-1, 0, 0, 0, -1, -1⟩
  | 0x9 => ⟨-1, 0, -1, 0, 0, 0⟩
  | 0xA => ⟨-1, 0, 0, 0, -1, 0⟩
  | _ => ⟨-1, -1, -1, -1, -1, -1⟩

/-- The used bits of a word are the operation code's four and those of the used fields. -/
theorem usedBits_eq_pack (opc : BitVec 4) : usedBits opc.toNat = h64Pack 0xF#4 (usedFields opc) := by
  revert opc; decide

/-- Of two concatenations, the bits of one outside the other are those of each part outside its own. -/
theorem append_and_not_append {v w : Nat} {x y : BitVec v} {a b c : BitVec w} (h : a &&& ~~~b = c) :
    (x ++ a) &&& ~~~(y ++ b) = (x &&& ~~~y) ++ c := by
  rw [BitVec.not_append, BitVec.and_append, h]

/-- The bits of a word outside a mask are those of each field outside its own mask. -/
theorem h64Pack_and_not (o m : BitVec 4) (f g : H64Fields) :
    h64Pack o f &&& ~~~h64Pack m g =
      h64Pack (o &&& ~~~m) ⟨f.dev &&& ~~~g.dev, f.ra &&& ~~~g.ra, f.idc &&& ~~~g.idc, f.rsv &&& ~~~g.rsv,
        f.imm16 &&& ~~~g.imm16, f.w32 &&& ~~~g.w32⟩ := by
  unfold h64Pack
  iterate 6 refine append_and_not_append ?_
  rfl

/-- A word that decodes has no bit set that its operation does not use (R105). -/
theorem CommandWord.unused_eq_zero {cdb : Cdb} {opc : BitVec 4} {f : H64Fields} {i : Instr} (h : CommandWord cdb opc f i) :
    h64Pack opc f &&& ~~~usedBits opc.toNat = 0#64 := by
  rw [usedBits_eq_pack, h64Pack_and_not]
  cases h <;> simp [usedFields, h64Pack]

/-! ### What is refused in IDLE (R104, R105, R333) -/

/-- A reserved operation code is refused in IDLE (R105). -/
theorem exec_reservedOpc {i : Instr} {f : H64Fields} {s : State} (ho : s.opstate = .idle)
    (hi : i = .reservedOpc0 f ∨ i = .reservedOpcB f ∨ i = .reservedOpcC f ∨ i = .reservedOpcD f ∨ i = .reservedOpcE f ∨
      i = .reservedOpcF f) : exec i s = raiseViolation .reservedEncoding s := by
  rcases hi with rfl | rfl | rfl | rfl | rfl | rfl <;> exact accept_idle _ ho

/-- WRREG to no enumerator is refused in IDLE (R104). -/
theorem exec_wrreg_refused {s : State} {ra : BitVec 4} (v : BusWord) (ho : s.opstate = .idle)
    (hra : isEnumerator ra = false) : exec (.wrreg ra v) s = raiseViolation .reservedEncoding s := by
  simp [exec, execWrreg, accept_idle _ ho, hra]

/-- CONFIGURE with a divisor beyond the largest legal one is refused in IDLE (R104, R142). -/
theorem exec_configure_refused {s : State} {ct : BitVec 32} (ho : s.opstate = .idle)
    (hd : Config.divMax < divisor s.params ct.toNat) : exec (.configure ct) s = raiseViolation .divisorRange s :=
  (accept_idle _ ho).trans (if_pos hd)

/-- PIOREAD of no word is refused in IDLE (R104). -/
theorem exec_pioread_refused {s : State} (ho : s.opstate = .idle) :
    exec (.pioread 0#32) s = raiseViolation .wordCount s :=
  (accept_idle _ ho).trans (if_pos rfl)

/-- RDSECT with a count outside 1 to 256 is refused in IDLE, whatever its LBA (R104, R338). -/
theorem exec_rdsect_count_refused {s : State} (dev : BitVec 1) (lba : BitVec 32) {count : BitVec 16}
    (ho : s.opstate = .idle) (hc : count.toNat = 0 ∨ 256 < count.toNat) :
    exec (.rdsect dev lba count) s = raiseViolation .sectorCount s :=
  (accept_idle _ ho).trans (if_pos hc)

/-- RDSECT with a legal count and an LBA of more than 28 bits is refused in IDLE (R104, R338). -/
theorem exec_rdsect_lba_refused {s : State} (dev : BitVec 1) {lba : BitVec 32} {count : BitVec 16}
    (ho : s.opstate = .idle) (hc : ¬(count.toNat = 0 ∨ 256 < count.toNat)) (hl : 2 ^ 28 ≤ lba.toNat) :
    exec (.rdsect dev lba count) s = raiseViolation .lbaRange s :=
  (accept_idle _ ho).trans ((if_neg hc).trans (if_pos hl))

/-- Settles O23: one rule for each operand check. -/
theorem operandViolations : Obligations.OperandViolations := by
  intro s ho
  refine ⟨fun ra v hra => ⟨exec_rdreg_refused ho hra, exec_wrreg_refused v ho hra⟩, fun ct hd => ?_,
    exec_pioread_refused ho, fun dev lba count hc => exec_rdsect_count_refused dev lba ho hc,
    fun dev lba count hpos hmax hl => exec_rdsect_lba_refused dev ho (by omega) hl⟩
  exact exec_configure_refused ho hd

/-- A reserved register address code is refused in any state (R109; log entry 12). -/
theorem exec_reservedRegister {i : Instr} (s : State)
    (hi : i = .raReserved8 ∨ i = .raReserved9 ∨ i = .raReservedA ∨ i = .raReservedB ∨ i = .raReservedC ∨
      i = .raReservedD ∨ i = .raReservedF) : exec i s = raiseViolation .reservedEncoding s := by
  rcases hi with rfl | rfl | rfl | rfl | rfl | rfl | rfl <;> rfl

/-- Settles O22, by the rules for the reserved codes of the two kinds. -/
theorem reservedRaise : Obligations.ReservedRaise :=
  fun s => ⟨fun _ _ ho hi => exec_reservedOpc ho hi, fun _ hi => exec_reservedRegister s hi⟩

/-- A word whose operation code is reserved is refused in IDLE (R105). -/
theorem CommandWord.exec_of_reservedOpc {cdb : Cdb} {opc : BitVec 4} {f : H64Fields} {i : Instr} {s : State}
    (h : CommandWord cdb opc f i) (ho : s.opstate = .idle) (hopc : opc.toNat = 0 ∨ 0xB ≤ opc.toNat) :
    exec i s = raiseViolation .reservedEncoding s := by
  cases h with
  | reservedOpc0 | reservedOpcB | reservedOpcC | reservedOpcD | reservedOpcE | reservedOpcF =>
    exact exec_reservedOpc (f := f) ho (by simp)
  | _ => simp at hopc

/-- A RDREG or WRREG word whose register address names no enumerator is refused in IDLE (R105). -/
theorem CommandWord.exec_of_reservedRegister {cdb : Cdb} {opc : BitVec 4} {f : H64Fields} {i : Instr} {s : State}
    (h : CommandWord cdb opc f i) (ho : s.opstate = .idle) (hopc : opc.toNat = 2 ∨ opc.toNat = 3)
    (hra : isEnumerator f.ra = false) : exec i s = raiseViolation .reservedEncoding s := by
  cases h with
  | rdreg ra => exact exec_rdreg_refused ho hra
  | wrreg ra v => exact exec_wrreg_refused v ho hra
  | _ => simp at hopc

/-- A word that decodes to no instruction is a reserved encoding, wherever a command word is accepted (R101, R105). -/
theorem runCode_of_reservedField {c : Code} (h : decode c = .error .reservedField) (s : State) :
    runCode c s = accept s (raiseViolation .reservedEncoding s) := by
  simp [runCode, h]

/-- A reserved encoding is refused in IDLE, in each of the three ways a word can be one (R105). -/
theorem runCode_reservedWord {cw : BitVec 64} {s : State} (cdb : Cdb) (ho : s.opstate = .idle) (hw : ReservedWord cw) :
    runCode (.h64 cw cdb) s = raiseViolation .reservedEncoding s := by
  rcases decode_h64_cases cw cdb with herr | ⟨i, hok, hi⟩
  · rw [runCode_of_reservedField herr, accept_idle _ ho]
  · rw [runCode_of_decode hok]
    rw [ReservedWord, ← h64Opc_toNat] at hw
    rcases hw with hopc | hbit | ⟨hopc, hra⟩
    · exact hi.exec_of_reservedOpc ho hopc
    · have hunused := hi.unused_eq_zero
      rw [h64Pack_fields] at hunused
      exact absurd hunused hbit
    · exact hi.exec_of_reservedRegister ho hopc hra

/-- Settles O8: the step takes the word from the port, and the word is refused. -/
theorem reservedWordRefused : Obligations.ReservedWordRefused := by
  intro s cw cdb more hr ht ho hq hw
  rw [step_request hr ht ho hq]
  exact runCode_reservedWord (s := { s with turn := .rdLane, port := more }) cdb ho hw

/-! ### The port while BUSY (R101) -/

/-- While BUSY the sequencer leaves the port alone. -/
theorem SeqCase.port_kept {s t : State} {code : List SeqOp} (h : SeqCase s t) (hb : s.opstate = .busy code) :
    t.port = s.port := by
  cases h with
  | answer _ _ _ ho _ _ | noop _ _ ho _ _ | violation _ _ _ ho _ _ | configure _ _ _ ho _ _ _ _ _ _
  | accepted _ _ _ _ ho _ _ => simp [hb] at ho
  | _ => rename_i h; subst h; rfl

/-- While BUSY a step leaves the port alone, power-on reset included (R101). -/
theorem step_port_kept {s t : State} {code : List SeqOp} (hb : s.opstate = .busy code) (h : step s = .next t) :
    t.port = s.port := by
  rcases step_cases h with ⟨-, rfl⟩ | ⟨-, -, ⟨-, hseq⟩ | ⟨-, hrd⟩ | ⟨-, hwr⟩⟩
  · exact State.powerOnReset_port s
  · exact (seq_cases hseq).port_kept hb
  · exact (congrArg State.port (rd_cases hrd).frame :)
  · exact (congrArg State.port (wr_cases hwr).frame :)

/-- Every host operation presented in BUSY is turned away, before any check of its operands (R101; log entry 24). -/
theorem HostOp.exec_busy {i : Instr} {s : State} {code : List SeqOp} (h : HostOp i) (hb : s.opstate = .busy code) :
    exec i s = .refused .portBusy := by
  cases h <;> exact accept_busy _ hb

/-- Every command word presented in BUSY is turned away (R101; log entry 24). -/
theorem runCode_h64_busy {s : State} {code : List SeqOp} (cw : BitVec 64) (cdb : Cdb) (hb : s.opstate = .busy code) :
    runCode (.h64 cw cdb) s = .refused .portBusy := by
  rcases decode_h64_cases cw cdb with herr | ⟨i, hok, -⟩
  · rw [runCode_of_reservedField herr, accept_busy _ hb]
  · rw [runCode_of_decode hok]
    exact (hostOp_of_decode hok).exec_busy hb

/-- Settles O9: steps leave the port alone, and words and the instructions they stand for are turned away. -/
theorem portClosedWhileBusy : Obligations.PortClosedWhileBusy :=
  ⟨fun _ _ _ hb h => step_port_kept hb h,
    fun _ _ cw cdb hb => ⟨runCode_h64_busy cw cdb hb, fun _ hd => (hostOp_of_decode hd).exec_busy hb⟩⟩

/-! ### The status bit tests (R110, R200) -/

/-- The named bits lie in the low byte of the sampled word, so the test reads the word's own bit (R73, R110). -/
theorem statusBit_eq_getLsbD (b : StatusBit) (v : BusWord) : statusBit b v = v.getLsbD (statusPosition b) := by
  cases b <;> simp [statusBit, statusByte, statusPosition]

/-- A test of a status bit leaves that bit of the sampled word as its outcome (R110, R200). -/
theorem testStatus_eq (b : StatusBit) (s : State) :
    testStatus b s = .next { s with cond := s.smp.getLsbD (statusPosition b) } := by
  rw [testStatus, statusBit_eq_getLsbD]

/-- Settles O46: each of the five instructions is the test of its own bit. -/
theorem statusBitTests : Obligations.StatusBitTests := by
  intro s i n hmem
  simp only [List.mem_cons, List.not_mem_nil, or_false, Prod.mk.injEq] at hmem
  rcases hmem with ⟨rfl, rfl⟩ | ⟨rfl, rfl⟩ | ⟨rfl, rfl⟩ | ⟨rfl, rfl⟩ | ⟨rfl, rfl⟩
  · exact testStatus_eq .bsy s
  · exact testStatus_eq .drdy s
  · exact testStatus_eq .df s
  · exact testStatus_eq .drq s
  · exact testStatus_eq .err s

/-! ### The bytes and words that go out on the bus (R73, R103) -/

/-- A byte is driven with a zero byte above it (R73). -/
theorem zext16_eq_append (b : Byte) : zext16 b = 0x00#8 ++ b := by
  exact BitVec.setWidth_eq_append (by decide)

theorem zext16_toNat (b : Byte) : (zext16 b).toNat = b.toNat := by
  simp [zext16]
  omega

/-- With `DEV_FIXED` 0 the Device byte of an operation without an LBA is the device index in bit 4 (R111). -/
theorem devByteSel_toNat {p : Config.Params} (hp : p.devFixed = 0#8) (dev : BitVec 1) :
    (devByteSel p dev).toNat = 16 * dev.toNat := by
  have hsel : ∀ dev : BitVec 1, (0#8 &&& Config.devFixedMask ||| dev.setWidth 8 <<< 4).toNat = 16 * dev.toNat := by decide
  rw [devByteSel, devFixedBits, hp, hsel]

/-- With `DEV_FIXED` 0 the Device byte of an operation with an LBA is LBA mode, the device index and the LBA's top four of 28
bits (R111). -/
theorem devByteLba_toNat {p : Config.Params} (hp : p.devFixed = 0#8) (dev : BitVec 1) {lba : BitVec 32}
    (hl : lba.toNat < 2 ^ 28) : (devByteLba p dev lba).toNat = 64 + 16 * dev.toNat + lba.toNat / 2 ^ 24 := by
  have hbits : ∀ (dev : BitVec 1) (top : BitVec 4),
      (0#8 &&& Config.devFixedMask ||| 0x40#8 ||| dev.setWidth 8 <<< 4 ||| top.setWidth 8).toNat =
        64 + 16 * dev.toNat + top.toNat := by decide
  rw [devByteLba, devFixedBits, hp, hbits, BitVec.extractLsb'_toNat, Nat.shiftRight_eq_div_pow]
  omega

/-- The `i`-th byte of an operand is its digit base 256 (R112, R260). -/
theorem extractLsb'_byte_toNat {w : Nat} (x : BitVec w) (k : Nat) : (x.extractLsb' k 8).toNat = x.toNat / 2 ^ k % 2 ^ 8 := by
  rw [BitVec.extractLsb'_toNat, Nat.shiftRight_eq_div_pow]

/-- The command byte of IDENT, by its `IDC` (R240). -/
theorem zext16_identCommand (idc : BitVec 1) :
    zext16 (identCommand idc) = if idc = 0#1 then 0x00EC#16 else 0x00A1#16 := by
  revert idc; decide

/-- Settles O38: the words written are the zero-extended bytes of the operands, and each byte is the number stated. -/
theorem setupWrites : Obligations.SetupWrites := by
  intro s dev idc lba count limit hp _ _ hl
  refine ⟨zext16 (devByteSel s.params dev), zext16 (devByteLba s.params dev lba), ?_, ?_,
    zext16 (sectorCountByte count), zext16 (lbaLow lba), zext16 (lbaMid lba), zext16 (lbaHigh lba), ?_, ?_, ?_, ?_,
    zext16 (limitLow limit), zext16 (limitHigh limit), ?_, ?_, rfl, rfl, ?_, rfl⟩
  · rw [zext16_toNat, devByteSel_toNat hp]
  · rw [zext16_toNat, devByteLba_toNat hp dev hl]
  · rw [zext16_toNat, sectorCountByte, BitVec.toNat_setWidth]
  · rw [zext16_toNat, lbaLow, extractLsb'_byte_toNat, Nat.pow_zero, Nat.div_one]
  · rw [zext16_toNat, lbaMid, extractLsb'_byte_toNat]
  · rw [zext16_toNat, lbaHigh, extractLsb'_byte_toNat]
  · rw [zext16_toNat, limitLow, extractLsb'_byte_toNat, Nat.pow_zero, Nat.div_one, show 2 ^ 8 = 256 from rfl]
  · rw [zext16_toNat, limitHigh, extractLsb'_byte_toNat]
    have := limit.isLt
    omega
  · rw [← zext16_identCommand]
    rfl

/-! ### The commands and packets issued by the sequencer (R114, R115, R212, R262) -/

/-- A live engine with idle lanes that is given this code comes to its first line with the loose fields alone changed. -/
theorem leads_given {s : State} (hl : s.Live) (hi : s.lanesIdle = true) (code : List SeqOp) :
    LeadsTo Loose.any { s with opstate := .busy code } (s.atCode code) := by
  obtain ⟨a, b, p, r, hp, hr, hreach⟩ := quiet_sequencer (s := { s with opstate := .busy code }) (code := code)
    (hl.of_eq rfl hl.phaseRdRange hl.phaseWrRange) hi (.inl rfl)
  exact ⟨⟨a, b, p, r, s.smp, s.cond, s.pace⟩, trivial, hp, hr, hreach⟩

/-- A write burst put before what is left of the running operation: the words go out, and the sequencer goes on with what was
left (R79). -/
theorem leads_calledWrite {s : State} {ra : BitVec 4} {ws : List BusWord} (rest : List SeqOp) (hl : s.Live)
    (hi : s.lanesIdle = true) (ha : s.access = .none) (hra : isEnumerator ra = true) (hws : ws ≠ []) :
    LeadsTo Loose.any { s with opstate := .busy (memWriteBurst ra ws ++ rest) } ((s.didWrite ra ws).atCode rest) := by
  refine (leads_given hl hi _).trans rfl fun f _ hp hr => ?_
  have hbetween : ((s.atCode (memWriteBurst ra ws ++ rest)).withLoose f).Between := ⟨hl.of_eq rfl hp hr, rfl, hi, ha⟩
  exact (leads_memWriteBurst (rest := rest) hbetween hra hws rfl :)

theorem callProc_busy {s : State} {rest : List SeqOp} (code : List SeqOp) (ho : s.opstate = .busy rest) :
    callProc code s = .next { s with opstate := .busy (code ++ rest) } := by
  simp [callProc, ho]

theorem callProc_idle {s : State} (code : List SeqOp) (ho : s.opstate = .idle) :
    callProc code s = .next { s with opstate := .busy code } := by
  simp [callProc, ho]

/-- An instruction that is a write burst, within an operation: the words go out and the sequencer goes on with what was left. -/
theorem calledWrite_runs {i : Instr} {s : State} {ra : BitVec 4} {ws : List BusWord} {rest : List SeqOp} (hl : s.Live)
    (hi : s.lanesIdle = true) (ha : s.access = .none) (hra : isEnumerator ra = true) (hws : ws ≠ [])
    (he : exec i s = callProc (memWriteBurst ra ws) s) (ho : s.opstate = .busy rest) :
    ∃ t, exec i s = .next t ∧ ∃ f, Reaches t ({ s.didWrite ra ws with turn := .sequencer }.withLoose f) := by
  refine ⟨_, he.trans (callProc_busy _ ho), ?_⟩
  have hcode : { s.didWrite ra ws with turn := .sequencer } = (s.didWrite ra ws).atCode rest := by
    rw [State.atCode, ← ho]
    rfl
  rw [hcode]
  exact (leads_calledWrite rest hl hi ha hra hws).reaches

/-- The same issued while IDLE: the words are the whole operation, which ends OK (log entry 14). -/
theorem calledWrite_endsAs {i : Instr} {s : State} {ra : BitVec 4} {ws : List BusWord} (hl : s.Live)
    (hi : s.lanesIdle = true) (ha : s.access = .none) (hra : isEnumerator ra = true) (hws : ws ≠ [])
    (he : exec i s = callProc (memWriteBurst ra ws) s) (ho : s.opstate = .idle) :
    EndsAs i s ((s.didWrite ra ws).ended .ok) := by
  refine ⟨_, he.trans (callProc_idle _ ho), LeadsTo.reaches (P := Loose.any) ?_⟩
  rw [← List.append_nil (memWriteBurst ra ws)]
  refine (leads_calledWrite [] hl hi ha hra hws).trans rfl fun f _ hp hr => ?_
  exact leads_end (s := ((s.didWrite ra ws).atCode []).withLoose f) ⟨hl.of_eq rfl hp hr, rfl, hi, ha⟩ rfl

/-- Settles O48: each of the five instructions is a one-word write of its byte to the Command register. -/
theorem commandsIssued : Obligations.CommandsIssued := by
  intro s i byte hl hi ha hmem
  have he : exec i s = callProc (memWriteBurst 0x7#4 [byte]) s := by
    simp only [List.mem_cons, List.not_mem_nil, or_false, Prod.mk.injEq] at hmem
    rcases hmem with ⟨rfl, rfl⟩ | ⟨rfl, rfl⟩ | ⟨rfl, rfl⟩ | ⟨rfl, rfl⟩ | ⟨rfl, rfl⟩ <;> rfl
  exact ⟨fun rest => calledWrite_runs hl hi ha (by decide) (by simp) he,
    calledWrite_endsAs hl hi ha (by decide) (by simp) he⟩

/-- Settles O49: each of the three instructions is the write burst of its six packet words to the Data register. -/
theorem packetForwarded : Obligations.PacketForwarded := by
  intro s i op b hl hi ha hmem
  have he : exec i s = callProc (memWriteBurst 0x0#4 (packetWords ⟨op, b⟩)) s := by
    simp only [List.mem_cons, List.not_mem_nil, or_false, Prod.mk.injEq] at hmem
    rcases hmem with ⟨rfl, rfl⟩ | ⟨rfl, rfl⟩ | ⟨rfl, rfl⟩ <;> rfl
  exact ⟨fun rest => calledWrite_runs hl hi ha (by decide) (by simp) he,
    calledWrite_endsAs hl hi ha (by decide) (by simp) he⟩

/-! ### The pseudo-operations (R119) -/

/-- The READ_10 CDB carries the block address and the block count most significant byte first (R119). -/
theorem read10Cdb_eq (b3 b2 b1 b0 n1 n0 : Byte) :
    read10Cdb (b3 ++ b2 ++ b1 ++ b0) (n1 ++ n0) = ⟨0x28#8, ⟨0, b3, b2, b1, b0, 0, n1, n0, 0, 0, 0⟩⟩ := by
  simp only [read10Cdb, Cdb.mk.injEq, CdbBody.mk.injEq, true_and, and_true]
  refine ⟨rfl, ?_, ?_, ?_, ?_, ?_, ?_⟩ <;>
  · ext i hi
    simp [BitVec.getElem_extractLsb']
    grind

/-- Settles O60: each line's expansion, its bytes written as R119 writes them. -/
theorem pseudoOperations : Obligations.PseudoOperations := by
  refine ⟨fun c => ?_, rfl, rfl, fun dev => rfl, fun dev len => ?_, fun dev b3 b2 b1 b0 n1 n0 limit => ?_, rfl⟩
  · rw [← zext16_eq_append]
    rfl
  · rw [← zext16_eq_append]
    rfl
  · exact congrArg (fun c => requestOf (.packet dev limit c)) (read10Cdb_eq b3 b2 b1 b0 n1 n0)

end Sys2Proof.Machine

namespace Sys2Proof.Machine

/-! Proofs of the statements on the timing engine: the divisor's arithmetic, what CONFIGURE does with it, and the lanes'
micro-instructions that record no event. -/

/-! ### The divisor (R141, R142, R145) -/

/-- The rounding of R141 is the library's division rounded up. -/
theorem ceilDiv_eq_ceilDiv (a b : Nat) : ceilDiv a b = a ⌈/⌉ b := rfl

theorem one_le_divisor (p : Config.Params) (ct : Nat) : 1 ≤ divisor p ct := le_max_left ..

/-- The divisor is the least positive one whose bus cycle is not shorter than asked (R141): its bounds, its minimality, its
monotonicity and its range all follow from this. -/
theorem divisor_le_iff {p : Config.Params} {ct d : Nat} :
    divisor p ct ≤ d ↔ 1 ≤ d ∧ ct * p.fSysHz ≤ d * Config.ipl * 10 ^ 9 := by
  have hpos : 0 < Config.ipl * 10 ^ 9 := by decide
  rw [divisor, max_le_iff, ceilDiv_eq_ceilDiv, ceilDiv_le_iff_le_mul hpos, mul_comm _ d, mul_assoc d]

theorem le_divisor_cycle (p : Config.Params) (ct : Nat) : ct * p.fSysHz ≤ divisor p ct * Config.ipl * 10 ^ 9 :=
  (divisor_le_iff.mp le_rfl).2

/-- A longer cycle time asks for no smaller divisor, since its bus cycle is long enough for the shorter one too (R145). -/
theorem divisor_mono (p : Config.Params) : Monotone (divisor p) := fun _ ct' h =>
  divisor_le_iff.mpr ⟨one_le_divisor p ct', (Nat.mul_le_mul_right _ h).trans (le_divisor_cycle p ct')⟩

/-- Where the divisor leaves a range that holds 1 (R142). -/
theorem lt_divisor_iff {p : Config.Params} {ct d : Nat} (hd : 1 ≤ d) :
    d < divisor p ct ↔ d * Config.ipl * 10 ^ 9 < ct * p.fSysHz := by
  rw [← not_le, divisor_le_iff, and_iff_right hd, not_le]

/-- Settles O26, by the three bounds of R145. -/
theorem divisorBounds : Obligations.DivisorBounds :=
  fun p ct => ⟨one_le_divisor p ct, le_divisor_cycle p ct, fun _ h => divisor_mono p h⟩

/-- Settles O27: both clauses are the divisor's characterization as a least one. -/
theorem divisorLeast : Obligations.DivisorLeast :=
  ⟨fun _ _ _ hd hcycle => divisor_le_iff.mpr ⟨hd, hcycle⟩, fun _ _ => lt_divisor_iff (by decide)⟩

/-! ### CONFIGURE (R143, R144) -/

/-- A packed command word decodes by its operation code and its fields, whatever the side operand (R100, R102). -/
theorem decode_h64Pack (opc : BitVec 4) (f : H64Fields) (cdb : Cdb) :
    decode (.h64 (h64Pack opc f) cdb) = decodeH64 opc f cdb := by
  rw [decode, h64Opc_pack, h64Fields_pack]

/-- CONFIGURE's word is its cycle time above its operation code (R102, R143). -/
theorem configureWord_eq_pack (ct : BitVec 32) : ct ++ 0x00000001#32 = h64Pack 0x1#4 ⟨0, 0, 0, 0, 0, ct⟩ :=
  congrArg (ct ++ ·) (by decide : 0x00000001#32 = 0#16 ++ (0#6 ++ (0#1 ++ (0#4 ++ (0#1 ++ 0x1#4)))))

/-- CONFIGURE with a divisor in range comes to the requirement of idle lanes (R143). -/
theorem exec_configure_inRange {s : State} {ct : BitVec 32} (ho : s.opstate = .idle)
    (hd : divisor s.params ct.toNat ≤ Config.divMax) :
    exec (.configure ct) s = if s.lanesIdle = true then
      finish .ok { s with
        enRd := true, enWr := true, div := BitVec.ofNat 16 (divisor s.params ct.toNat)
        phaseRd := 0#16, phaseWr := 0#16 }
    else .fault .reconfigureInFlight :=
  (accept_idle _ ho).trans (if_neg (Nat.not_lt.mpr hd))

/-- CONFIGURE with a divisor in range and idle lanes, in an engine that waits: R143's five assignments, `RES` OK, no more. -/
theorem exec_configure_installs {s : State} {ct : BitVec 32} (ho : s.opstate = .idle) (hi : s.lanesIdle = true)
    (ha : s.access = .none) (hd : divisor s.params ct.toNat ≤ Config.divMax) :
    exec (.configure ct) s = .next { s with
      div := BitVec.ofNat 16 (divisor s.params ct.toNat), enRd := true, enWr := true
      phaseRd := 0#16, phaseWr := 0#16, res := .ok } := by
  rw [exec_configure_inRange ho hd, if_pos hi, finish_idle, ho]
  exact ha

/-- Settles O24: the word, the refused range, and the divisor installed; one in range fits the 16 bits of `DIV`. -/
theorem configureInstalls : Obligations.ConfigureInstalls := by
  refine ⟨fun ct cdb => ?_, fun s ct ho hd => exec_configure_refused ho hd, fun s ct ho hi ha hd => ?_⟩
  · rw [configureWord_eq_pack, decode_h64Pack]
    exact onlyFields_of_eq rfl _
  · have hfits : divisor s.params ct.toNat < 2 ^ 16 := Nat.lt_succ_of_le hd
    exact ⟨_, (BitVec.toNat_ofNat ..).trans (Nat.mod_eq_of_lt hfits), exec_configure_installs ho hi ha hd⟩

/-- Settles O25: in range the requirement of idle lanes decides, and it fails. -/
theorem configureNeedsIdle : Obligations.ConfigureNeedsIdle := by
  intro s ct ho hi hd
  rw [exec_configure_inRange ho hd, if_neg (Bool.eq_false_iff.mp hi)]

/-! ### The lane slots that record no event (R150 to R152, R154 to R157) -/

/-- GETCNT with nothing handed over: the RD lane stalls at slot 0 (R150). -/
theorem execRdGetcnt_stall {s : State} (h : s.inqRd = []) :
    execRdGetcnt s = .next { s with stalledRd := true, pcRd := 0#3 } := by
  simp [execRdGetcnt, h]

/-- GETCNT with a word count handed over: it is popped into `X` (R150). -/
theorem execRdGetcnt_pop {s : State} {w : BitVec 32} {rest : List (BitVec 32)} (h : s.inqRd = w :: rest) :
    execRdGetcnt s = .next { s with x := w, inqRd := rest, pcRd := 1#3 } := by
  simp [execRdGetcnt, h]

/-- RSTB_HI_LOOP after the last word: the RD lane returns to waiting (R154). -/
theorem execRdRstbHiLoop_last {s : State} (h : s.x = 0#32) :
    execRdRstbHiLoop s = .next { s with rdStb := false, pcRd := 0#3 } := if_pos h

/-- RSTB_HI_LOOP with words left: the RD lane counts one off and starts the next (R154). -/
theorem execRdRstbHiLoop_again {s : State} (h : s.x ≠ 0#32) :
    execRdRstbHiLoop s = .next { s with rdStb := false, x := s.x - 1#32, pcRd := 1#3 } := if_neg h

/-- GETDATA with nothing queued: the WR lane stalls at slot 0 and releases the data lines (R155). -/
theorem execWrGetdata_stall {s : State} (h : s.inqWr = []) :
    execWrGetdata s = .next { s with stalledWr := true, ddOe := false, pcWr := 0#2 } := by
  simp [execWrGetdata, h]

/-- GETDATA with a word queued: it is popped into `OSR` and driven on the data lines (R155). -/
theorem execWrGetdata_pop {s : State} {w : BusWord} {rest : List BusWord} (h : s.inqWr = w :: rest) :
    execWrGetdata s = .next { s with osr := w, inqWr := rest, ddOut := w, ddOe := true, pcWr := 1#2 } := by
  simp [execWrGetdata, h]

/-- Settles O50: the round trip of each slot, then each rule by its cases; the four slots without cases are their rules. -/
theorem laneSlots : Obligations.LaneSlots := by
  refine ⟨⟨Laws.RoundTrip.rdGetcnt, Laws.RoundTrip.rdRstbLo, Laws.RoundTrip.rdRhold, Laws.RoundTrip.rdRstbHiLoop,
    Laws.RoundTrip.wrGetdata, Laws.RoundTrip.wrWstbLo, Laws.RoundTrip.wrWhold⟩, fun s => ?_⟩
  exact ⟨execRdGetcnt_stall, fun _ _ => execRdGetcnt_pop, rfl, rfl, execRdRstbHiLoop_last, execRdRstbHiLoop_again,
    execWrGetdata_stall, fun _ _ => execWrGetdata_pop, rfl, rfl⟩

end Sys2Proof.Machine

namespace Sys2Proof.Machine

/-! Proofs of the statements on register access: a one-word write as an operation of its own (R77, R185). -/

/-- WRREG's word is its operation code, its register address and its value, all else zero (R102). -/
theorem wrregWord_eq_pack (ra : BitVec 4) (v : BusWord) :
    0#32 ++ (v ++ (0#6 ++ (0#1 ++ (ra ++ (0#1 ++ 0x3#4))))) = h64Pack 0x3#4 ⟨0, ra, 0, 0, v, 0⟩ := rfl

/-- WRREG to an enumerator is accepted in IDLE (R101). -/
theorem exec_wrreg_accepted {s : State} {ra : BitVec 4} (v : BusWord) (ho : s.opstate = .idle)
    (hra : isEnumerator ra = true) : exec (.wrreg ra v) s = .next (s.begin (memWrite ra v)) := by
  simp [exec, execWrreg, accept_idle _ ho, hra]

/-- WRREG from its first line to its end: the access, `return OK` (R185). -/
theorem leads_wrreg {s : State} {ra : BitVec 4} {v : BusWord} (hs : s.Between) (hra : isEnumerator ra = true)
    (ho : s.opstate = .busy (memWrite ra v)) : LeadsTo Loose.any s ((s.didWrite ra [v]).ended .ok) := by
  rw [← List.append_nil (memWrite ra v)] at ho
  refine (leads_memWrite hs hra ho).trans rfl fun f _ hp hr => ?_
  have hwritten : (((s.didWrite ra [v]).atCode []).withLoose f).Between := ((hs.didWrite ra [v]).atCode []).withLoose hp hr
  exact leads_end hwritten rfl

/-- Settles O29: its word packs its operands; refused at acceptance, or accepted and led to its end by its lines. -/
theorem wrregRuns : Obligations.WrregRuns := by
  refine ⟨fun ra v cdb => ?_, fun s ra v hs => ⟨exec_wrreg_refused v hs.idle, fun hra => ?_⟩⟩
  · rw [wrregWord_eq_pack, decode_h64Pack]
    exact onlyFields_of_eq rfl _
  · refine endsAs_of_leadsTo hs (exec_wrreg_accepted v hs.idle hra) fun f hf => ?_
    exact leads_wrreg hf hra rfl

end Sys2Proof.Machine

namespace Sys2Proof.Machine

/-! An operation's lines followed from its acceptance: from one position to the next, through accesses and polling loops, but for
the loose fields. The proofs on HWRESET, DEVRESET, ISREADY, IDENT and RDSECT, and on loops that go on, are chains of these. -/

/-! ### A position come to, but for the loose fields -/

/-- From `s` the engine comes to what `a` describes, between two accesses, with `code` still to run. -/
structure ComesTo (s a : State) (code : List SeqOp) : Prop where
  leads : LeadsTo Loose.any s (a.atCode code)
  between : (a.atCode code).Between
  div : a.div = s.div

/-- `b` is as live and as idle as `a`. -/
def State.SameFrame (a b : State) : Prop :=
  (b.enRd, b.enWr, b.div, b.params, b.por, b.phaseRd, b.phaseWr, b.access) =
    (a.enRd, a.enWr, a.div, a.params, a.por, a.phaseRd, a.phaseWr, a.access) ∧ b.lanesIdle = a.lanesIdle

/-- Being between two accesses depends on the frame alone. -/
theorem State.SameFrame.between {a b : State} {code : List SeqOp} (e : a.SameFrame b) (h : (a.atCode code).Between)
    (rest : List SeqOp) : (b.atCode rest).Between := by
  obtain ⟨e, hidle⟩ := e
  simp only [Prod.mk.injEq] at e
  obtain ⟨enRd, enWr, div, params, por, phaseRd, phaseWr, access⟩ := e
  refine h.of_eq ?_ ?_ ?_ rfl hidle access
  · exact Prod.ext enRd (Prod.ext enWr (Prod.ext div (Prod.ext params por)))
  · exact (congrArg BitVec.toNat phaseRd).trans_lt h.live.phaseRdRange
  · exact (congrArg BitVec.toNat phaseWr).trans_lt h.live.phaseWrRange

theorem State.SameFrame.div {a b : State} (e : a.SameFrame b) : b.div = a.div := by
  obtain ⟨e, -⟩ := e
  simp only [Prod.mk.injEq] at e
  obtain ⟨-, -, hdiv, -⟩ := e
  exact hdiv

/-- What leads to a description does so whatever loose fields the description has. -/
theorem leadsTo_withLoose_iff {P : Loose → Prop} {s u : State} {f : Loose} :
    LeadsTo P s (u.withLoose f) ↔ LeadsTo P s u := Iff.rfl

namespace ComesTo

/-- Where a position leads, whatever the loose fields there. -/
theorem onward {P : Loose → Prop} {s a u : State} {code : List SeqOp} (h : ComesTo s a code)
    (h' : ∀ f : Loose, ((a.atCode code).withLoose f).Between →
      LeadsTo P ((a.atCode code).withLoose f) (u.withLoose f)) : LeadsTo P s u :=
  h.leads.trans h.div fun f _ hphr hphw => leadsTo_withLoose_iff.mp (h' f (h.between.withLoose hphr hphw))

/-- From one position to a next one in the same frame. -/
theorem next {s a b : State} {code rest : List SeqOp} (h : ComesTo s a code) (e : a.SameFrame b)
    (h' : ∀ f : Loose, ((a.atCode code).withLoose f).Between →
      LeadsTo Loose.any ((a.atCode code).withLoose f) ((b.atCode rest).withLoose f)) : ComesTo s b rest :=
  ⟨h.onward h', e.between h.between rest, e.div.trans h.div⟩

/-- One line that leaves the lanes alone. -/
theorem line {s a b : State} {op : SeqOp} {rest code : List SeqOp} (h : ComesTo s a (op :: rest)) (e : a.SameFrame b)
    (hop : ∀ f : Loose, runLine op rest { a.withLoose f with turn := .rdLane, opstate := .busy rest } =
      .next { b.withLoose f with turn := .rdLane, opstate := .busy code }) : ComesTo s b code := by
  refine h.next e fun f hf => ?_
  have hb : ((b.atCode code).withLoose f).Between :=
    (e.between h.between code).withLoose (e.div ▸ hf.live.phaseRdRange) (e.div ▸ hf.live.phaseWrRange)
  exact leads_line (t := (b.atCode code).withLoose f) hf rfl (fun x y p r w => hop ⟨x, y, p, r, f.smp, f.cond, w⟩) hb.live
    hb.lanesIdle e.div (fun _ _ _ => trivial)

/-- `return OK` at the end of the lines. -/
theorem done {s a : State} (h : ComesTo s a []) : LeadsTo Loose.any s (a.ended .ok) :=
  h.onward fun f hf => leads_end (s := (a.atCode []).withLoose f) hf rfl

/-! The accesses of R76 to R78. -/

theorem write {s a : State} {ra : BitVec 4} {v : BusWord} {rest : List SeqOp} (h : ComesTo s a (memWrite ra v ++ rest))
    (hra : isEnumerator ra = true) : ComesTo s (a.didWrite ra [v]) rest :=
  h.next ⟨rfl, rfl⟩ fun _ hf => leads_memWrite hf hra rfl

/-- A read whose sample the lines after it use. -/
theorem read_sample {s a u : State} {ra : BitVec 4} {rest : List SeqOp} (h : ComesTo s a (memRead ra ++ rest))
    (hra : isEnumerator ra = true)
    (h' : ∀ f : Loose, f.smp = a.sampleAt 0 → (((a.didRead ra).atCode rest).withLoose f).Between →
      LeadsTo Loose.any (((a.didRead ra).atCode rest).withLoose f) (u.withLoose f)) : LeadsTo Loose.any s u := by
  refine h.onward fun f hf => (leads_memRead hf hra rfl).trans rfl fun g hsmp hphr hphw => ?_
  have e : a.SameFrame (a.didRead ra) := ⟨rfl, rfl⟩
  have hread := h' g hsmp ((e.between h.between rest).withLoose hphr hphw)
  exact leadsTo_withLoose_iff.mpr (leadsTo_withLoose_iff.mp hread)

theorem burst {s a : State} {ra : BitVec 4} {n : BitVec 32} {rest : List SeqOp}
    (h : ComesTo s a (memReadBurst ra n ++ rest)) (hra : isEnumerator ra = true) (hn : n ≠ 0#32) :
    ComesTo s (a.didBurst ra n.toNat) rest :=
  h.next ⟨rfl, rfl⟩ fun _ hf => leads_memReadBurst hf hra hn rfl

end ComesTo

/-- The five ATA command bytes (R114). -/
def commandBytes : List Byte :=
  [Config.cmdDeviceReset, Config.cmdReadSectors, Config.cmdPacket, Config.cmdIdentifyPacketDevice,
    Config.cmdIdentifyDevice]

/-- Each command byte runs `IssueCommand` of that byte (R114, R212). -/
theorem runCode_ataCmd {c : Byte} (hc : c ∈ commandBytes) (s : State) :
    runCode (.ataCmd c) s = callProc (issueCommand c) s := by
  simp only [commandBytes, List.mem_cons, List.not_mem_nil, or_false] at hc
  rcases hc with rfl | rfl | rfl | rfl | rfl <;> rfl

theorem identCommand_mem (idc : BitVec 1) : identCommand idc ∈ commandBytes := by
  revert idc; decide

/-- `IssueCommand(c)`: the call, then the write of the byte to the Command register (R212). -/
theorem ComesTo.issue {s a : State} {c : Byte} {rest : List SeqOp} (h : ComesTo s a (.issue c :: rest))
    (hc : c ∈ commandBytes) : ComesTo s (a.didWrite Config.raStatus [zext16 c]) rest := by
  have hcalled : ComesTo s a (issueCommand c ++ rest) :=
    h.line ⟨rfl, rfl⟩ fun _ => (runCode_ataCmd hc _).trans (callProc_busy _ rfl)
  exact hcalled.write (by decide)

/-! ### Loops at a position -/

section WriteInputs
variable (s : State) (ra : BitVec 4) (ws : List BusWord)

@[simp] theorem State.didWrite_samples : (s.didWrite ra ws).samples = s.samples := rfl
@[simp] theorem State.didWrite_drawn : (s.didWrite ra ws).drawn = s.drawn := rfl
@[simp] theorem State.didWrite_params : (s.didWrite ra ws).params = s.params := rfl
@[simp] theorem State.didWrite_port : (s.didWrite ra ws).port = s.port := rfl

end WriteInputs

/-- What a loop will meet depends on the samples to come and the parameters alone (R90). -/
def State.SameInputs (s t : State) : Prop := (t.samples, t.drawn, t.params) = (s.samples, s.drawn, s.params)

theorem State.SameInputs.sampleAt {s t : State} (e : s.SameInputs t) (i : Nat) : t.sampleAt i = s.sampleAt i := by
  simp only [State.SameInputs, Prod.mk.injEq] at e
  obtain ⟨hsamples, hdrawn, -⟩ := e
  simp [State.sampleAt, hsamples, hdrawn]

theorem State.SameInputs.params {s t : State} (e : s.SameInputs t) : t.params = s.params := by
  simp only [State.SameInputs, Prod.mk.injEq] at e
  obtain ⟨-, -, hparams⟩ := e
  exact hparams

theorem State.SameInputs.drawn {s t : State} (e : s.SameInputs t) : t.drawn = s.drawn := by
  simp only [State.SameInputs, Prod.mk.injEq] at e
  obtain ⟨-, hdrawn, -⟩ := e
  exact hdrawn

theorem State.PollEnds.of_inputs {s t : State} {k : PollLoop} {n : Nat} {ok : Bool} (h : s.PollEnds k n ok)
    (e : s.SameInputs t) : t.PollEnds k n ok :=
  ⟨fun i hi => by rw [e.sampleAt]; exact h.discarded i hi, by rw [e.sampleAt]; exact h.decided,
    fun limit hl => h.within limit (by rw [← e.params]; exact hl)⟩

theorem State.PollTimesOut.of_inputs {s t : State} {k : PollLoop} {limit : Nat} (h : s.PollTimesOut k limit)
    (e : s.SameInputs t) : t.PollTimesOut k limit :=
  ⟨by rw [e.params]; exact h.limited, h.positive, fun i hi => by rw [e.sampleAt]; exact h.discarded i hi⟩

namespace ComesTo

variable {s a : State} {k : PollLoop} {rest : List SeqOp} {n : Nat}

/-- A loop that ends well. -/
theorem loop_exit (h : ComesTo s a (.pollStart k :: rest)) (hp : a.PollEnds k n true) :
    ComesTo s (a.didPolls (n + 1)) rest :=
  h.next ⟨rfl, rfl⟩ fun _ hf => (leads_loop_exit hf rfl (hp.of_inputs rfl)).weaken

/-- The same for lines that use the sample the loop ended on. -/
theorem loop_exit_sample {u : State} (h : ComesTo s a (.pollStart k :: rest)) (hp : a.PollEnds k n true)
    (h' : ∀ f : Loose, f.smp = a.sampleAt n → (((a.didPolls (n + 1)).atCode rest).withLoose f).Between →
      LeadsTo Loose.any (((a.didPolls (n + 1)).atCode rest).withLoose f) (u.withLoose f)) : LeadsTo Loose.any s u := by
  refine h.onward fun f hf => (leads_loop_exit hf rfl (hp.of_inputs rfl)).trans rfl fun g hsmp hphr hphw => ?_
  have e : a.SameFrame (a.didPolls (n + 1)) := ⟨rfl, rfl⟩
  have hpolled := h' g hsmp ((e.between h.between rest).withLoose hphr hphw)
  exact leadsTo_withLoose_iff.mpr (leadsTo_withLoose_iff.mp hpolled)

theorem loop_fail (h : ComesTo s a (.pollStart k :: rest)) (hp : a.PollEnds k n false) :
    LeadsTo Loose.any s ((a.didPolls (n + 1)).ended .fail) :=
  h.onward fun _ hf => leads_loop_fail hf rfl (hp.of_inputs rfl)

theorem loop_timeout (h : ComesTo s a (.pollStart k :: rest)) (hp : a.PollTimesOut k n) :
    LeadsTo Loose.any s ((a.didPolls n).ended .timeout) :=
  h.onward fun _ hf => leads_loop_timeout hf rfl (hp.of_inputs rfl)

/-- Without a poll limit a loop comes to its head again after any number of polls that decide nothing (R202, R335). -/
theorem loop_goes_on (h : ComesTo s a (.pollStart k :: rest)) (hl : a.params.pollLimit = none) (hn : 1 ≤ n)
    (hv : ∀ j, j < n → pollOutcome k (a.sampleAt j) = none) : ComesTo s (a.didPolls n) (.pollTop k :: rest) := by
  refine h.next ⟨rfl, rfl⟩ fun f hf => ?_
  obtain ⟨u, hleads, -, -, -, -, -, -, hu⟩ := leads_turns hf rfl n (fun i _ => hl ▸ nofun) hv
  obtain rfl := hu hn
  exact hleads

end ComesTo

/-! ### From the acceptance of an instruction (R101) -/

/-- Issuing `i` in `s` installs the lines of an operation, and the run comes from there to what `a` describes with `code` still
to run. -/
def Brings (i : Instr) (s a : State) (code : List SeqOp) : Prop :=
  ∃ lines e, exec i s = .next { s.begin lines with emitted := e } ∧ ComesTo { s.begin lines with emitted := e } a code

theorem State.Waiting.restarted {s : State} (hs : s.Waiting) : s.restarted.Waiting :=
  ⟨hs.live.of_eq rfl hs.live.phaseRdRange hs.live.phaseWrRange, hs.lanesIdle, hs.noAccess, hs.idle⟩

theorem comesTo_accepted {s : State} (hs : s.Waiting) (lines : List SeqOp) : ComesTo (s.begin lines) s lines :=
  ⟨leads_accepted hs lines, hs.atCode lines, rfl⟩

/-- An operation that emits nothing is accepted with its lines. -/
theorem brings_of_begin {i : Instr} {s : State} {lines : List SeqOp} (hs : s.Waiting)
    (he : exec i s = .next (s.begin lines)) : Brings i s s lines := ⟨lines, s.emitted, he, comesTo_accepted hs lines⟩

/-- An operation that emits is accepted with its lines and the word stream restarted (R107). -/
theorem brings_of_restart {i : Instr} {s : State} {lines : List SeqOp} (hs : s.Waiting)
    (he : exec i s = .next { s.begin lines with emitted := 0 }) : Brings i s s.restarted lines :=
  ⟨lines, 0, he, comesTo_accepted hs.restarted lines⟩

theorem Brings.goesOn {i : Instr} {s a b : State} {code rest : List SeqOp} (h : Brings i s a code)
    (h' : ∀ t, ComesTo t a code → ComesTo t b rest) : Brings i s b rest := by
  obtain ⟨lines, e, he, hc⟩ := h
  exact ⟨lines, e, he, h' _ hc⟩

theorem Brings.endsAs {i : Instr} {s a u : State} {code : List SeqOp} (h : Brings i s a code)
    (h' : ∀ t, ComesTo t a code → LeadsTo Loose.any t u) : EndsAs i s u := by
  obtain ⟨lines, e, he, hc⟩ := h
  exact ⟨_, he, (h' _ hc).reaches⟩

end Sys2Proof.Machine

namespace Sys2Proof.Machine

/-! Proofs of the statements on HWRESET, DEVRESET, ISREADY and IDENT (R204, R205, R208, R240), and on the data-request gate
(R209, R210). -/

/-! ### The gate's decision (R209, R210) -/

/-- The gate's outcome in the sampled word's own bits. -/
theorem drqOutcome_eq (v : BusWord) :
    drqOutcome v =
      if v.getLsbD 7 then none else if v.getLsbD 3 then some true else if v.getLsbD 0 then some false else none := by
  simp only [drqOutcome, statusBit_eq_getLsbD, statusPosition]

/-- Settles O47: the outcome by the three bits, then the two ways of each branch; ERR ends the operation with no access under
way. -/
theorem gateBranches : Obligations.GateBranches := by
  refine ⟨fun v => ⟨fun h7 => ?_, fun h7 h3 => ?_, fun h7 h3 h0 => ?_, fun h7 h3 h0 => ?_⟩, fun s rest ha => ?_⟩
  · rw [drqOutcome_eq, h7]
    rfl
  · rw [drqOutcome_eq, h7, h3]
    rfl
  · rw [drqOutcome_eq, h7, h3, h0]
    rfl
  · rw [drqOutcome_eq, h7, h3, h0]
    rfl
  · exact ⟨fun hc => if_pos hc, fun hc => if_neg (by simp [hc]), fun hc => if_pos hc, fun hc => if_neg (by simp [hc]),
      fun hc => (if_pos hc).trans (finish_idle .fail ha), fun hc => if_neg (by simp [hc])⟩

/-! ### HWRESET (R204) -/

/-- The reset line at a level, and its event (R13, R204). -/
def State.didSetRst (s : State) (level : Bool) : State := { s with rst := level, trace := s.trace ++ [.rst level] }

/-- `RST <- level`. -/
theorem ComesTo.setRst {s a : State} {level : Bool} {rest : List SeqOp} (h : ComesTo s a (.setRst level :: rest)) :
    ComesTo s (a.didSetRst level) rest := h.line ⟨rfl, rfl⟩ fun _ => rfl

/-- `Delay(ns)` (R203). -/
theorem ComesTo.delay {s a : State} {ns : Nat} {rest : List SeqOp} (h : ComesTo s a (.delay ns :: rest)) :
    ComesTo s (a.event (.wait ns)) rest := h.line ⟨rfl, rfl⟩ fun _ => rfl

/-- HWRESET is accepted in IDLE with its lines (R101). -/
theorem exec_hwreset_accepted {s : State} (ho : s.opstate = .idle) :
    exec .hwreset s = .next (s.begin
      [.setRst true, .delay s.params.tRstLowNs, .setRst false, .delay s.params.tRstSettleNs, .pollStart .notBusy]) :=
  accept_idle _ ho

/-- HWRESET up to its loop: the pulse and the two delays. -/
theorem hwreset_toLoop {s : State} (hs : s.Waiting) : Brings .hwreset s s.didReset [.pollStart .notBusy] := by
  have hpulse : s.didReset = ((((s.didSetRst true).event (.wait s.params.tRstLowNs)).didSetRst false).event
      (.wait s.params.tRstSettleNs)) := by
    simp [State.didReset, State.didSetRst, State.event]
  rw [hpulse]
  exact (brings_of_begin hs (exec_hwreset_accepted hs.idle)).goesOn fun _ h => h.setRst.delay.setRst.delay

/-- Settles O30: the word, then the pulse and the delays, and the loop by either of its ends. -/
theorem hwresetRuns : Obligations.HwresetRuns := by
  refine ⟨fun _ => rfl, fun s hs => ⟨fun n hp => ?_, fun limit hp => ?_⟩⟩
  · exact (hwreset_toLoop hs).endsAs fun _ h => (h.loop_exit (hp.of_inputs rfl)).done
  · exact (hwreset_toLoop hs).endsAs fun _ h => h.loop_timeout (hp.of_inputs rfl)

/-! ### DEVRESET (R205) -/

/-- DEVRESET is accepted in IDLE with its lines (R101). -/
theorem exec_devreset_accepted {s : State} (dev : BitVec 1) (ho : s.opstate = .idle) :
    exec (.devreset dev) s = .next (s.begin (selectDevice s.params dev ++
      [.issue Config.cmdDeviceReset, .pollStart .notBusy, .test .err, .branch .devResetErr])) :=
  accept_idle _ ho

/-- DEVRESET up to its loop: the selector and the command. -/
theorem devreset_toLoop {s : State} (hs : s.Waiting) (dev : BitVec 1) :
    Brings (.devreset dev) s (s.didDevResetSetup dev) [.pollStart .notBusy, .test .err, .branch .devResetErr] := by
  refine (brings_of_begin hs (exec_devreset_accepted dev hs.idle)).goesOn fun _ h => ?_
  exact (h.write (by decide)).issue (by decide)

/-- The ERR test of DEVRESET on the sample in hand ends it, OK exactly if ERR is clear. -/
theorem leads_devResetErr {s : State} {rest : List SeqOp} (hs : s.Between)
    (ho : s.opstate = .busy (.test .err :: .branch .devResetErr :: rest)) :
    LeadsTo Loose.any s (s.ended (if s.smp.getLsbD 0 then .fail else .ok)) := by
  refine leads_decide_end hs ho fun u hu => ?_
  rw [statusBit_eq_getLsbD] at hu
  rw [takeBranch, hu]
  rfl

/-- DEVRESET's word is its operation code and its device, all else zero (R102). -/
theorem devresetWord_eq_pack (dev : BitVec 1) :
    0#32 ++ (0#16 ++ (0#6 ++ (0#1 ++ (0#4 ++ (dev ++ 0x5#4))))) = h64Pack 0x5#4 ⟨dev, 0, 0, 0, 0, 0⟩ := rfl

/-- Settles O31: the word, then the set-up and the loop, which leaves its last sample in hand for the ERR test. -/
theorem devresetRuns : Obligations.DevresetRuns := by
  refine ⟨fun dev cdb => ?_, fun s dev hs => ⟨fun n hp => ?_, fun limit hp => ?_⟩⟩
  · rw [devresetWord_eq_pack, decode_h64Pack]
    exact onlyFields_of_eq rfl _
  · refine (devreset_toLoop hs dev).endsAs fun t h => h.loop_exit_sample (hp.of_inputs rfl) fun f hsmp hf => ?_
    have hsample : s.sampleAt n = f.smp := hsmp.symm
    rw [hsample]
    exact leads_devResetErr hf rfl
  · exact (devreset_toLoop hs dev).endsAs fun _ h => h.loop_timeout (hp.of_inputs rfl)

/-! ### ISREADY (R208) -/

/-- The test of a status bit and a branch after it that answers in `RVAL`. -/
theorem leads_answer {s : State} {b : StatusBit} {d : Decision} {rest : List SeqOp} {v : BusWord} (hs : s.Between)
    (ho : s.opstate = .busy (.test b :: .branch d :: rest))
    (h : ∀ u : State, u.cond = statusBit b s.smp → takeBranch d rest u = .next { u with rval := v, opstate := .busy rest }) :
    LeadsTo Loose.any s (State.atCode { s with rval := v } rest) := by
  refine (leads_test hs ho).trans rfl fun f hf hp hr => ?_
  have hb : ({ s with rval := v }.withLoose f).Between := hs.of_eq rfl hp hr hs.turn rfl rfl
  refine leads_line (t := { s with rval := v }.withLoose f) ((hs.atCode _).withLoose hp hr) rfl (fun x y p r w => ?_)
    hb.live hb.lanesIdle rfl (fun _ _ _ => trivial)
  exact h { (s.withLoose f).withLanes x y p r w with turn := .rdLane, opstate := .busy rest } hf.2

/-- ISREADY is accepted in IDLE with its lines (R101). -/
theorem exec_isready_accepted {s : State} (ho : s.opstate = .idle) :
    exec .isready s = .next (s.begin (memRead Config.raStatus ++ [.test .bsy, .branch .isReadyBsy])) :=
  accept_idle _ ho

/-- What ISREADY answers for a sample (R208). -/
def readyAnswer (v : BusWord) : BusWord := if v.getLsbD 7 = false ∧ v.getLsbD 6 = true then 1#16 else 0#16

/-- The tests of ISREADY on the sample in hand: BSY, and with BSY clear DRDY. -/
theorem leads_isreadyTests {s : State} (hs : s.Between) (ho : s.opstate = .busy [.test .bsy, .branch .isReadyBsy]) :
    LeadsTo Loose.any s (State.atCode { s with rval := readyAnswer s.smp } []) := by
  have hbit : ∀ b, statusBit b s.smp = s.smp.getLsbD (statusPosition b) := fun b => statusBit_eq_getLsbD b s.smp
  cases h7 : s.smp.getLsbD 7 with
  | true =>
    refine leads_answer hs ho fun u hu => ?_
    have hcond : u.cond = true := hu.trans ((hbit .bsy).trans h7)
    rw [takeBranch, hcond, readyAnswer, h7]
    rfl
  | false =>
    refine (leads_decide (code := [.test .drdy, .branch .isReadyDrdy]) hs ho fun u hu => ?_).trans rfl
      fun f hsmp hp hr => ?_
    · have hcond : u.cond = false := hu.trans ((hbit .bsy).trans h7)
      rw [takeBranch, hcond]
      rfl
    · have hb : ((s.atCode [.test .drdy, .branch .isReadyDrdy]).withLoose f).Between := (hs.atCode _).withLoose hp hr
      refine leads_answer (v := readyAnswer s.smp) hb rfl fun u hu => ?_
      have hcond : u.cond = s.smp.getLsbD 6 := hu.trans ((congrArg (statusBit .drdy) hsmp).trans (hbit .drdy))
      simp only [takeBranch, readyAnswer, hcond, h7, true_and]

/-- Settles O32: the word, one poll, the tests on its sample, `return OK`. -/
theorem isreadyRuns : Obligations.IsreadyRuns := by
  refine ⟨fun _ => rfl, fun s hs => ?_⟩
  refine (brings_of_begin hs (exec_isready_accepted hs.idle)).endsAs fun t h => ?_
  refine h.read_sample (by decide) fun f hsmp hf => ?_
  rw [← hsmp]
  refine (leads_isreadyTests hf rfl).trans rfl fun g _ hphr hphw => ?_
  exact leads_end (hf.of_eq rfl hphr hphw rfl rfl rfl) rfl

/-! ### IDENT (R240) -/

/-- The lines of IDENT after its gate. -/
def identTransfer : List SeqOp := memReadBurst Config.raData 256#32 ++ [.capture]

/-- IDENT is accepted in IDLE with its lines and the word stream restarted (R101, R107). -/
theorem exec_ident_accepted {s : State} (dev idc : BitVec 1) (ho : s.opstate = .idle) :
    exec (.ident dev idc) s = .next { s.begin (selectDevice s.params dev ++
      (.issue (identCommand idc) :: .pollStart .drq :: identTransfer)) with emitted := 0 } :=
  accept_idle _ ho

/-- IDENT up to its gate: the selector and the command, no readiness wait. -/
theorem ident_toGate {s : State} (hs : s.Waiting) (dev idc : BitVec 1) :
    Brings (.ident dev idc) s (s.restarted.didIdentSetup dev idc) (.pollStart .drq :: identTransfer) := by
  refine (brings_of_restart hs (exec_ident_accepted dev idc hs.idle)).goesOn fun _ h => ?_
  exact (h.write (by decide)).issue (identCommand_mem idc)

/-- The host keeps the words in the buffer as its identify array (R241; log entry 10). -/
theorem ComesTo.capture {s a : State} {rest : List SeqOp} (h : ComesTo s a (.capture :: rest)) :
    ComesTo s { a with idArr := a.buf.firstWords 256 } rest := h.line ⟨rfl, rfl⟩ fun _ => rfl

/-- IDENT's word is its operation code, its device and `IDC`, all else zero (R102). -/
theorem identWord_eq_pack (dev idc : BitVec 1) :
    0#32 ++ (0#16 ++ (0#6 ++ (idc ++ (0#4 ++ (dev ++ 0x9#4))))) = h64Pack 0x9#4 ⟨dev, 0, idc, 0, 0, 0⟩ := rfl

/-- Settles O36: the word, then the set-up, and the gate by each of its ends, the good one with the burst after it. -/
theorem identRuns : Obligations.IdentRuns := by
  refine ⟨fun dev idc cdb => ?_, fun s dev idc hs => ⟨fun k hp => ?_, fun k hp => ?_, fun limit hp => ?_⟩⟩
  · rw [identWord_eq_pack, decode_h64Pack]
    exact onlyFields_of_eq rfl _
  · exact (ident_toGate hs dev idc).endsAs fun _ h =>
      ((h.loop_exit (hp.of_inputs rfl)).burst (by decide) (by decide)).capture.done
  · exact (ident_toGate hs dev idc).endsAs fun _ h => h.loop_fail (hp.of_inputs rfl)
  · exact (ident_toGate hs dev idc).endsAs fun _ h => h.loop_timeout (hp.of_inputs rfl)

end Sys2Proof.Machine

namespace Sys2Proof.Machine

/-! Proofs of the statements on the operations that do not come to a good end: RDSECT that fails or times out (R202, R231,
R236), and loops that go on for want of a limit (R214, R335). -/

/-! ### RDSECT up to its sectors (R236, R238) -/

/-- The lines of RDSECT after its ready wait: the six task-file writes in their order, `SECT_REM`, the sectors. -/
def rdsectTransfer (p : Config.Params) (dev : BitVec 1) (lba : BitVec 32) (count : BitVec 16) : List SeqOp :=
  memWrite Config.raSectorCount (zext16 (sectorCountByte count)) ++ (memWrite Config.raLbaLow (zext16 (lbaLow lba)) ++
    (memWrite Config.raLbaMid (zext16 (lbaMid lba)) ++ (memWrite Config.raLbaHigh (zext16 (lbaHigh lba)) ++
      (selectDeviceLba p dev lba ++ [.issue Config.cmdReadSectors, .setSectRem (count.setWidth 9), .sectTop]))))

theorem wellFormed_rdsect_iff {dev : BitVec 1} {lba : BitVec 32} {count : BitVec 16} :
    wellFormed (.rdsect dev lba count) = true ↔ 1 ≤ count.toNat ∧ count.toNat ≤ 256 ∧ lba.toNat < 2 ^ 28 := by
  simp [wellFormed, and_assoc]

/-- RDSECT with legal operands is accepted in IDLE with its lines (R101, R104). -/
theorem exec_rdsect_accepted {s : State} {dev : BitVec 1} {lba : BitVec 32} {count : BitVec 16} (ho : s.opstate = .idle)
    (hw : wellFormed (.rdsect dev lba count) = true) :
    exec (.rdsect dev lba count) s =
      .next { s.begin (.pollStart .ready :: rdsectTransfer s.params dev lba count) with emitted := 0 } := by
  obtain ⟨hpos, hmax, hlba⟩ := wellFormed_rdsect_iff.mp hw
  exact (accept_idle _ ho).trans ((if_neg (by omega)).trans (if_neg (Nat.not_le.mpr hlba)))

/-- RDSECT up to its ready wait. -/
theorem rdsect_toReadyWait {s : State} {dev : BitVec 1} {lba : BitVec 32} {count : BitVec 16} (hs : s.Waiting)
    (hw : wellFormed (.rdsect dev lba count) = true) :
    Brings (.rdsect dev lba count) s s.restarted (.pollStart .ready :: rdsectTransfer s.params dev lba count) :=
  brings_of_restart hs (exec_rdsect_accepted hs.idle hw)

/-- `SECT_REM <- n` (R236). -/
theorem ComesTo.setSectRem {s a : State} {n : BitVec 9} {rest : List SeqOp} (h : ComesTo s a (.setSectRem n :: rest)) :
    ComesTo s { a with sectRem := n } rest := h.line ⟨rfl, rfl⟩ fun _ => rfl

/-- RDSECT up to its sectors, the ready wait having ended. -/
theorem rdsect_toSectors {s : State} {dev : BitVec 1} {lba : BitVec 32} {count : BitVec 16} {k : Nat} (hs : s.Waiting)
    (hw : wellFormed (.rdsect dev lba count) = true) (hp : s.PollEnds .ready k true) :
    Brings (.rdsect dev lba count) s ((s.restarted.didPolls (k + 1)).didSectorSetup dev lba count) [.sectTop] := by
  refine (rdsect_toReadyWait hs hw).goesOn fun t h => ?_
  have hready : ComesTo t (s.restarted.didPolls (k + 1)) (rdsectTransfer s.params dev lba count) :=
    h.loop_exit (hp.of_inputs rfl)
  have hregisters := ((((hready.write (by decide)).write (by decide)).write (by decide)).write (by decide)).write (by decide)
  exact (hregisters.issue (by decide)).setSectRem

/-! ### One sector after the other (R230, R236) -/

/-- The lines of one sector after its gate. -/
def sectorTransfer (rest : List SeqOp) : List SeqOp :=
  memReadBurst Config.raData (BitVec.ofNat 32 Config.sectorWords) ++ .sectDec :: .sectTop :: rest

namespace ComesTo

variable {s a : State} {rest : List SeqOp}

/-- With sectors left the head of the sector loop comes to the next sector's gate. -/
theorem sectorGate (h : ComesTo s a (.sectTop :: rest)) (hrem : a.sectRem ≠ 0#9) :
    ComesTo s a (.pollStart .drq :: sectorTransfer rest) := h.line ⟨rfl, rfl⟩ fun _ => if_neg hrem

/-- `SECT_REM <- SECT_REM - 1`. -/
theorem sectDec (h : ComesTo s a (.sectDec :: rest)) : ComesTo s { a with sectRem := a.sectRem - 1#9 } rest :=
  h.line ⟨rfl, rfl⟩ fun _ => rfl

/-- One sector whose gate ends well. -/
theorem sector {n : Nat} (h : ComesTo s a (.sectTop :: rest)) (hrem : a.sectRem ≠ 0#9) (hp : a.PollEnds .drq n true) :
    ComesTo s (a.didSector n) (.sectTop :: rest) :=
  (((h.sectorGate hrem).loop_exit hp).burst (by decide) (by decide)).sectDec

end ComesTo

theorem sectRem_ne_zero {r : BitVec 9} (h : 0 < r.toNat) : r ≠ 0#9 := by
  rintro rfl
  exact absurd h (by decide)

/-- A sector takes one off `SECT_REM`. -/
theorem State.didSector_sectRem (a : State) (n : Nat) (h : 0 < a.sectRem.toNat) :
    (a.didSector n).sectRem.toNat = a.sectRem.toNat - 1 := by
  change (a.sectRem - 1#9).toNat = _
  bv_omega

/-- Sectors take their number off `SECT_REM`. -/
theorem State.didSectors_sectRem (gates : List Nat) : ∀ a : State, gates.length ≤ a.sectRem.toNat →
    (a.didSectors gates).sectRem.toNat = a.sectRem.toNat - gates.length := by
  induction gates with
  | nil => intro a _; rfl
  | cons n gates ih =>
    intro a hlen
    rw [List.length_cons] at hlen ⊢
    have hrem := a.didSector_sectRem n (by omega)
    rw [State.didSectors, ih _ (by omega), hrem]
    omega

theorem State.didSectors_params (gates : List Nat) : ∀ a : State, (a.didSectors gates).params = a.params := by
  induction gates with
  | nil => intro a; rfl
  | cons n gates ih => intro a; exact ih (a.didSector n)

/-- Any number of sectors whose gates end well, no more than are left. -/
theorem ComesTo.sectors {s : State} {rest : List SeqOp} (gates : List Nat) : ∀ {a : State}, ComesTo s a (.sectTop :: rest) →
    a.SectorsReady gates → gates.length ≤ a.sectRem.toNat → ComesTo s (a.didSectors gates) (.sectTop :: rest) := by
  induction gates with
  | nil => intro a h _ _; exact h
  | cons n gates ih =>
    rintro a h ⟨hgate, hready⟩ hlen
    rw [List.length_cons] at hlen
    have hrem := a.didSector_sectRem n (by omega)
    exact ih (h.sector (sectRem_ne_zero (by omega)) hgate) hready (by omega)

/-- `SECT_REM` holds every legal count (R113, R236). -/
theorem setWidth_count_toNat {count : BitVec 16} (h : count.toNat ≤ 256) : (count.setWidth 9).toNat = count.toNat := by
  rw [BitVec.toNat_setWidth]
  omega

/-- RDSECT up to the gate of the sector after `gates`. -/
theorem rdsect_toGate {s : State} {dev : BitVec 1} {lba : BitVec 32} {count : BitVec 16} {k : Nat} {gates : List Nat}
    (hs : s.Waiting) (hw : wellFormed (.rdsect dev lba count) = true) (hp : s.PollEnds .ready k true)
    (hgates : ((s.restarted.didPolls (k + 1)).didSectorSetup dev lba count).SectorsReady gates)
    (hlen : gates.length < count.toNat) :
    Brings (.rdsect dev lba count) s (((s.restarted.didPolls (k + 1)).didSectorSetup dev lba count).didSectors gates)
      (.pollStart .drq :: sectorTransfer []) := by
  refine (rdsect_toSectors hs hw hp).goesOn fun t h => ?_
  obtain ⟨-, hmax, -⟩ := wellFormed_rdsect_iff.mp hw
  have hrem : ((s.restarted.didPolls (k + 1)).didSectorSetup dev lba count).sectRem.toNat = count.toNat :=
    setWidth_count_toNat hmax
  generalize (s.restarted.didPolls (k + 1)).didSectorSetup dev lba count = a at h hgates hrem ⊢
  have hleft := a.didSectors_sectRem gates (by omega)
  exact (h.sectors gates hgates (by omega)).sectorGate (sectRem_ne_zero (by omega))

/-- Settles O35: the ready wait timing out, and the gate of the sector after `gates` by each of its bad ends. -/
theorem rdsectFails : Obligations.RdsectFails := by
  intro s dev lba count hs hw
  refine ⟨fun limit hp => ?_, fun k gates hp hgates hlen u hu => ?_⟩
  · exact (rdsect_toReadyWait hs hw).endsAs fun _ h => h.loop_timeout (hp.of_inputs rfl)
  · have hgate := rdsect_toGate hs hw hp hgates hlen
    rw [← hu] at hgate
    exact ⟨fun _ hfail => hgate.endsAs fun _ h => h.loop_fail hfail,
      fun _ hlimit => hgate.endsAs fun _ h => h.loop_timeout hlimit⟩

/-- Settles O40: without a limit the gate's loop comes to its head again after every number of undecided polls. -/
theorem sectorGateHangs : Obligations.SectorGateHangs := by
  intro s dev lba count k gates hs hl hw hp hgates hlen u hu
  obtain ⟨lines, e, hexec, hgate⟩ := rdsect_toGate hs hw hp hgates hlen
  rw [← hu] at hgate
  have hlu : u.params.pollLimit = none := by
    rw [hu, State.didSectors_params]
    exact hl
  exact ⟨_, hexec, fun n hn hv => ⟨_, (hgate.loop_goes_on hlu hn hv).leads.reaches⟩⟩

end Sys2Proof.Machine

namespace Sys2Proof.Machine

/-! Proof of the statement on an operation whose first loop is given no exit sample: without a poll limit it stays BUSY (R214,
R335). The loop's head is reached after any number of polls, and a run that comes to BUSY with the port as it was has been BUSY
all along, for an engine that leaves BUSY comes back to it by a request alone (R101). -/

/-! ### Along a run -/

/-- A run of at least one step is a step and a run. -/
theorem run_succ_iff {s u : State} {n : Nat} : Host.Core.run Sys2Proof.core (n + 1) s = .next u ↔
    ∃ t, step s = .next t ∧ Host.Core.run Sys2Proof.core n t = .next u := by
  constructor
  · intro h
    simp only [Host.Core.run] at h
    split at h
    · exact ⟨_, by assumption, h⟩
    · cases h
    · cases h
  · rintro ⟨t, ht, h⟩
    have hcore : Sys2Proof.core.step s = .next t := ht
    simpa only [Host.Core.run, hcore] using h

/-- A run's first steps and the rest of it. -/
theorem run_split {n : Nat} (m : Nat) : ∀ {s u : State}, Host.Core.run Sys2Proof.core (m + n) s = .next u →
    ∃ v, Host.Core.run Sys2Proof.core m s = .next v ∧ Host.Core.run Sys2Proof.core n v = .next u := by
  induction m with
  | zero => intro s u h; exact ⟨s, rfl, by rwa [Nat.zero_add] at h⟩
  | succ m ih =>
    intro s u h
    rw [Nat.add_right_comm] at h
    obtain ⟨t, ht, h⟩ := run_succ_iff.mp h
    obtain ⟨v, hv, hu⟩ := ih h
    exact ⟨v, run_succ_iff.mpr ⟨t, ht, hv⟩, hu⟩

/-- What every step keeps holds along a run. -/
theorem run_keeps {P : State → Prop} (hstep : ∀ s t, P s → step s = .next t → P t) (n : Nat) :
    ∀ {s u : State}, P s → Host.Core.run Sys2Proof.core n s = .next u → P u := by
  induction n with
  | zero => rintro s u hs ⟨⟩; exact hs
  | succ n ih =>
    intro s u hs h
    obtain ⟨t, ht, h⟩ := run_succ_iff.mp h
    exact ih (hstep s t hs ht) h

/-! ### The samples drawn -/

/-- A turn of the RD lane draws at most one sample. -/
theorem RdCase.drawn_le {s t : State} (h : RdCase s t) : t.drawn ≤ s.drawn + 1 := by
  cases h with
  | sample _ _ _ h => subst h; exact Nat.le_refl _
  | _ => rename_i h; subst h; exact Nat.le_succ _

/-- A step draws at most one sample (R90, R153). -/
theorem step_drawn_le {s t : State} (h : step s = .next t) : t.drawn ≤ s.drawn + 1 := by
  rcases step_cases h with ⟨-, rfl⟩ | ⟨-, -, ⟨-, hseq⟩ | ⟨-, hrd⟩ | ⟨-, hwr⟩⟩
  · exact Nat.le_succ _
  · exact Nat.le_succ_of_le (congrArg State.drawn (seq_cases hseq).frame).le
  · exact (rd_cases hrd).drawn_le
  · exact Nat.le_succ_of_le (congrArg State.drawn (wr_cases hwr).frame).le

/-- `n` steps draw at most `n` samples. -/
theorem run_drawn_le (n : Nat) : ∀ {s u : State}, Host.Core.run Sys2Proof.core n s = .next u → u.drawn ≤ s.drawn + n := by
  induction n with
  | zero => rintro s u ⟨⟩; exact Nat.le_refl _
  | succ n ih =>
    intro s u h
    obtain ⟨t, ht, h⟩ := run_succ_iff.mp h
    have hfirst := step_drawn_le ht
    have hrest := ih h
    omega

/-! ### The requests at the port -/

/-- Not in BUSY. -/
def State.NotBusy (s : State) : Prop := ∀ code, s.opstate ≠ .busy code

/-- Of the `L` requests at the port one has been taken, or the engine is out of BUSY, where a request alone brings it back. -/
def State.TakesRequest (L : Nat) (s : State) : Prop := s.port.length < L ∨ s.port.length ≤ L ∧ s.NotBusy

/-- Out of BUSY the sequencer takes a request from the port or leaves the operation state alone (R101). -/
theorem SeqCase.takes_or_stays {s t : State} (h : SeqCase s t) (hb : s.NotBusy) :
    t.port.length < s.port.length ∨ t.port = s.port ∧ t.opstate = s.opstate := by
  cases h with
  | stay h | withheld _ h => subst h; exact .inr ⟨rfl, rfl⟩
  | answer _ _ _ _ hp h | noop _ _ _ hp h | violation _ _ _ _ hp h | configure _ _ _ _ hp _ _ _ _ h
  | accepted _ _ _ _ _ hp h => subst h; exact .inl (by simp [hp])
  | done _ _ ho | pushRd _ _ _ ho | pushWr _ _ _ ho | moves _ _ _ _ _ _ ho | endAccess _ _ _ _ ho
  | emit _ _ _ _ ho => exact absurd ho.choose_spec (hb _)
  | badAddress _ _ _ _ ho | setAddr _ _ _ ho | clearRd _ _ ho | clearWr _ _ ho | setRst _ _ _ ho | delay _ _ _ ho
  | capture _ _ ho => exact absurd ho (hb _)

/-- A step out of BUSY takes a request or stays out of BUSY, power-on reset included. -/
theorem step_takes_or_notBusy {s t : State} (hb : s.NotBusy) (h : step s = .next t) :
    t.port.length < s.port.length ∨ t.port = s.port ∧ t.NotBusy := by
  have stays : ∀ {u : State}, u.port = s.port → u.opstate = s.opstate → u.port = s.port ∧ u.NotBusy :=
    fun hp ho => ⟨hp, fun code hc => hb code (ho.symm.trans hc)⟩
  rcases step_cases h with ⟨-, rfl⟩ | ⟨-, -, ⟨-, hseq⟩ | ⟨-, hrd⟩ | ⟨-, hwr⟩⟩
  · exact .inr ⟨s.powerOnReset_port, nofun⟩
  · exact ((seq_cases hseq).takes_or_stays hb).imp_right fun ⟨hp, ho⟩ => stays hp ho
  · have hf := (rd_cases hrd).frame
    exact .inr (stays (congrArg State.port hf :) (congrArg State.opstate hf :))
  · have hf := (wr_cases hwr).frame
    exact .inr (stays (congrArg State.port hf :) (congrArg State.opstate hf :))

/-- No step adds a request to the port (R90). -/
theorem step_port_le {s t : State} (h : step s = .next t) : t.port.length ≤ s.port.length := by
  by_cases hb : s.NotBusy
  · rcases step_takes_or_notBusy hb h with hlt | ⟨heq, -⟩
    · exact hlt.le
    · rw [heq]
  · obtain ⟨code, hcode⟩ := not_forall_not.mp hb
    rw [step_port_kept hcode h]

/-- A request once taken stays taken. -/
theorem State.TakesRequest.step {L : Nat} {s t : State} (hs : s.TakesRequest L) (h : step s = .next t) :
    t.TakesRequest L := by
  rcases hs with hlt | ⟨hle, hb⟩
  · exact .inl ((step_port_le h).trans_lt hlt)
  · rcases step_takes_or_notBusy hb h with hlt | ⟨heq, hb'⟩
    · exact .inl (hlt.trans_le hle)
    · exact .inr ⟨heq ▸ hle, hb'⟩

/-- A run that ends in BUSY with the port as it was at the start is in BUSY at each of its steps. -/
theorem run_busy_throughout {s v u : State} {m n : Nat} {code : List SeqOp}
    (hm : Host.Core.run Sys2Proof.core m s = .next v) (hn : Host.Core.run Sys2Proof.core n v = .next u)
    (hu : u.opstate = .busy code) (hp : u.port = s.port) : ∃ code, v.opstate = .busy code := by
  by_contra hb
  have hport : v.port.length ≤ s.port.length :=
    run_keeps (P := fun t => t.port.length ≤ s.port.length) (fun _ _ hle h => (step_port_le h).trans hle) m le_rfl hm
  have htaken : u.TakesRequest s.port.length :=
    run_keeps (fun _ _ => State.TakesRequest.step) n (.inr ⟨hport, not_exists.mp hb⟩) hn
  rcases htaken with hlt | ⟨-, hnot⟩
  · exact absurd hlt (by simp [hp])
  · exact hnot code hu

/-- An engine that comes to a position with `n` samples drawn and the port as it was is BUSY after `n` steps. -/
theorem ComesTo.busy_after {t a : State} {code : List SeqOp} {n : Nat} (h : ComesTo t a code) (hport : a.port = t.port)
    (hdrawn : a.drawn = t.drawn + n) : ∃ u code, Host.Core.run Sys2Proof.core n t = .next u ∧ u.opstate = .busy code := by
  obtain ⟨f, m, hrun⟩ := h.leads.reaches
  have hle : a.drawn ≤ t.drawn + m := (run_drawn_le m hrun :)
  obtain ⟨d, rfl⟩ : ∃ d, m = n + d := Nat.exists_eq_add_of_le (by omega)
  obtain ⟨v, hv, hvu⟩ := run_split n hrun
  obtain ⟨code', hbusy⟩ := run_busy_throughout hv hvu rfl hport
  exact ⟨v, code', hv, hbusy⟩

/-! ### The first loop of every operation that has one -/

/-- PIOREAD of at least one word up to its gate (R233). -/
theorem pioread_toGate {s : State} {n : BitVec 32} (hs : s.Waiting) (hn : n ≠ 0#32) :
    Brings (.pioread n) s s.restarted (pioRead n) :=
  brings_of_restart hs ((accept_idle _ hs.idle).trans (if_neg hn))

/-- The lines of PACKET after its gate: the packet and the dummy read of Alternate Status (R262, R263). -/
def packetTransfer (cdb : Cdb) : List SeqOp := .sendPacket cdb :: memRead Config.raAltStatus

/-- The lines of PACKET. -/
def packetLines (p : Config.Params) (dev : BitVec 1) (limit : BitVec 16) (cdb : Cdb) : List SeqOp :=
  memWrite Config.raError 0#16 ++ (memWrite Config.raLbaMid (zext16 (limitLow limit)) ++
    (memWrite Config.raLbaHigh (zext16 (limitHigh limit)) ++ (selectDevice p dev ++
      (.issue Config.cmdPacket :: .pollStart .drq :: packetTransfer cdb))))

/-- PACKET is accepted in IDLE with its lines (R101). -/
theorem exec_packet_accepted {s : State} (dev : BitVec 1) (limit : BitVec 16) (cdb : Cdb) (ho : s.opstate = .idle) :
    exec (.packet dev limit cdb) s = .next (s.begin (packetLines s.params dev limit cdb)) := accept_idle _ ho

/-- PACKET up to its gate: the four registers and the command (R260). -/
theorem packet_toGate {s : State} (hs : s.Waiting) (dev : BitVec 1) (limit : BitVec 16) (cdb : Cdb) :
    Brings (.packet dev limit cdb) s (s.didPacketSetup dev limit) (.pollStart .drq :: packetTransfer cdb) := by
  refine (brings_of_begin hs (exec_packet_accepted dev limit cdb hs.idle)).goesOn fun _ h => ?_
  exact ((((h.write (by decide)).write (by decide)).write (by decide)).write (by decide)).issue (by decide)

/-- PACKET's set-up draws no sample and takes no request. -/
theorem didPacketSetup_inputs (s : State) (dev : BitVec 1) (limit : BitVec 16) :
    s.SameInputs (s.didPacketSetup dev limit) ∧ (s.didPacketSetup dev limit).port = s.port := by
  simp [State.SameInputs, State.didPacketSetup]

/-- An operation with a loop comes to its first one before it draws a sample, the port as it was. -/
theorem brings_firstLoop {i : Instr} {s : State} {k : PollLoop} (hs : s.Waiting) (hw : wellFormed i = true)
    (hk : firstLoop i = some k) :
    ∃ a rest, Brings i s a (.pollStart k :: rest) ∧ s.SameInputs a ∧ a.port = s.port := by
  cases i with
  | hwreset => cases hk; exact ⟨_, _, hwreset_toLoop hs, rfl, rfl⟩
  | devreset dev => cases hk; exact ⟨_, _, devreset_toLoop hs dev, rfl, rfl⟩
  | pioread n => cases hk; exact ⟨_, _, pioread_toGate hs (by simpa [wellFormed] using hw), rfl, rfl⟩
  | rdsect dev lba count => cases hk; exact ⟨_, _, rdsect_toReadyWait hs hw, rfl, rfl⟩
  | ident dev idc => cases hk; exact ⟨_, _, ident_toGate hs dev idc, rfl, rfl⟩
  | packet dev limit cdb => cases hk; exact ⟨_, _, packet_toGate hs dev limit cdb, didPacketSetup_inputs s dev limit⟩
  | _ => cases hk

/-- Settles O39: `n` steps draw at most `n` samples, so the run is still on its way to the loop's head after `n` polls. -/
theorem unboundedLoopHangs : Obligations.UnboundedLoopHangs := by
  intro s i k hs hl hw hk
  obtain ⟨a, rest, ⟨lines, e, hexec, hloop⟩, hinputs, hport⟩ := brings_firstLoop hs hw hk
  refine ⟨_, hexec, fun n hv => ?_⟩
  cases n with
  | zero => exact hloop.busy_after hport hinputs.drawn
  | succ n =>
    have hpolls : ComesTo { s.begin lines with emitted := e } (a.didPolls (n + 1)) (.pollTop k :: rest) :=
      hloop.loop_goes_on (hinputs.params ▸ hl) n.succ_pos fun j hj => by rw [hinputs.sampleAt]; exact hv j hj
    exact hpolls.busy_after hport (congrArg (· + (n + 1)) hinputs.drawn)

end Sys2Proof.Machine

namespace Sys2Proof.Machine

/-! Proofs of the statements on the PIO transfers: PIOREAD's one gated burst (R230, R233), RDSECT run to its end (R236, R238),
and where its sectors stand in the caller's buffer (R237). -/

/-! ### What the sectors leave (R232, R236, R237) -/

/-- A sector's gate draws `n + 1` samples and its burst 256. -/
theorem State.didSector_sampleAt (s : State) (n i : Nat) : (s.didSector n).sampleAt i = s.sampleAt (n + 1 + (256 + i)) := by
  have hburst : (s.didSector n).sampleAt i = (s.didPolls (n + 1)).sampleAt (256 + i) := State.sampleAt_drop 256 rfl rfl i
  rw [hburst]
  exact State.sampleAt_drop (n + 1) rfl rfl (256 + i)

@[simp] theorem State.didPolls_buf (s : State) (n : Nat) : (s.didPolls n).buf = s.buf := rfl
@[simp] theorem State.didPolls_emitted (s : State) (n : Nat) : (s.didPolls n).emitted = s.emitted := rfl

/-- A sector's burst stores the 256 samples after its gate's, at the stream position. -/
theorem State.didSector_buf (s : State) (n : Nat) :
    (s.didSector n).buf = s.buf.writeWords s.emitted ((s.didPolls (n + 1)).firstSamples 256) := by
  simp only [State.didSector, State.didBurst_buf, Config.sectorWords, State.didPolls_buf, State.didPolls_emitted]

theorem State.didSector_emitted (s : State) (n : Nat) : (s.didSector n).emitted = s.emitted + 256 := rfl

theorem State.didSector_wf {s : State} (n : Nat) (h : s.buf.wf) : (s.didSector n).buf.wf := by
  rw [State.didSector_buf]
  exact Memory.wf_writeWords _ _ _ h

/-- Word `i` of a sector is the sample drawn for it. -/
theorem State.didSector_readWord {s : State} (n : Nat) (h : s.buf.wf) {i : Nat} (hi : i < 256) :
    (s.didSector n).buf.readWord (s.emitted + i) = s.sampleAt (n + 1 + i) := by
  rw [State.didSector_buf, Memory.readWord_writeWords _ _ _ _ h (by simpa using hi), State.firstSamples_getElem]
  exact State.sampleAt_drop (n + 1) rfl rfl i

/-- A sector leaves the words before the stream position alone. -/
theorem State.didSector_readWord_below {s : State} (n : Nat) (h : s.buf.wf) {j : Nat} (hj : j < s.emitted) :
    (s.didSector n).buf.readWord j = s.buf.readWord j := by
  rw [State.didSector_buf]
  exact Memory.readWord_writeWords_below _ _ _ _ h hj

/-- Sectors emit 256 words each. -/
theorem State.didSectors_emitted (gates : List Nat) :
    ∀ s : State, (s.didSectors gates).emitted = s.emitted + 256 * gates.length := by
  induction gates with
  | nil => intro s; rfl
  | cons n gates ih =>
    intro s
    rw [State.didSectors, ih, State.didSector_emitted, List.length_cons]
    omega

/-- Sectors leave the words before the stream position alone. -/
theorem State.didSectors_readWord_below (gates : List Nat) {j : Nat} : ∀ {s : State}, s.buf.wf → j < s.emitted →
    (s.didSectors gates).buf.readWord j = s.buf.readWord j := by
  induction gates with
  | nil => intro s _ _; rfl
  | cons n gates ih =>
    intro s h hj
    rw [State.didSectors, ih (State.didSector_wf n h) (hj.trans_le (Nat.le_add_right ..)),
      State.didSector_readWord_below n h hj]

/-- Word `i` of sector `k`, counted from the stream position, is the sample drawn for it: after the `k + 1` gates up to it and
the `k` sectors before it. -/
theorem State.didSectors_readWord {i : Nat} (hi : i < 256) (gates : List Nat) : ∀ {s : State} {k : Nat}, s.buf.wf →
    k < gates.length → (s.didSectors gates).buf.readWord (s.emitted + (256 * k + i)) =
      s.sampleAt ((gates.take (k + 1)).sum + (k + 1) + 256 * k + i) := by
  induction gates with
  | nil => intro s k _ hk; exact absurd hk (Nat.not_lt_zero k)
  | cons n gates ih =>
    intro s k h hk
    have hwf := State.didSector_wf n h
    cases k with
    | zero =>
      have hbelow : s.emitted + i < (s.didSector n).emitted := Nat.add_lt_add_left hi _
      rw [State.didSectors, Nat.mul_zero, Nat.zero_add, State.didSectors_readWord_below gates hwf hbelow,
        State.didSector_readWord n h hi]
      simp
    | succ k =>
      have hword : s.emitted + (256 * (k + 1) + i) = (s.didSector n).emitted + (256 * k + i) := by
        rw [State.didSector_emitted]
        omega
      rw [State.didSectors, hword, ih hwf (Nat.lt_of_succ_lt_succ hk), State.didSector_sampleAt, List.take_succ_cons,
        List.sum_cons]
      congr 1
      omega

/-- As many sectors as `SECT_REM` counts leave none to come. -/
theorem State.didSectors_sectRem_zero {s : State} {gates : List Nat} (h : s.sectRem.toNat = gates.length) :
    (s.didSectors gates).sectRem = 0#9 := by
  apply BitVec.eq_of_toNat_eq
  rw [s.didSectors_sectRem gates h.ge, h, Nat.sub_self]
  rfl

/-- Settles O43: the words by induction over the sectors, a sector reading back what it stored and the later ones leaving it. -/
theorem sectorsFillBuffer : Obligations.SectorsFillBuffer := by
  intro s gates hwf hzero hrem
  refine ⟨?_, State.didSectors_sectRem_zero hrem, fun k i hk hi => ?_⟩
  · rw [State.didSectors_emitted, hzero, Nat.zero_add]
  · have hword := State.didSectors_readWord hi gates hwf hk
    rwa [hzero, Nat.zero_add] at hword

/-! ### PIOREAD (R230, R233) -/

/-- PIOREAD's word is its word count above its operation code (R102, R233). -/
theorem pioreadWord_eq_pack (n : BitVec 32) : n ++ 0x00000007#32 = h64Pack 0x7#4 ⟨0, 0, 0, 0, 0, n⟩ :=
  congrArg (n ++ ·) (by decide : 0x00000007#32 = 0#16 ++ (0#6 ++ (0#1 ++ (0#4 ++ (0#1 ++ 0x7#4)))))

/-- Settles O33: the word, no words refused, then the gate by each of its ends, the good one with the burst after it. -/
theorem pioreadRuns : Obligations.PioreadRuns := by
  refine ⟨fun n cdb => ?_, fun s n hs => ⟨?_, fun k hn hp => ?_, fun k hn hp => ?_, fun limit hn hp => ?_⟩⟩
  · rw [pioreadWord_eq_pack, decode_h64Pack]
    exact onlyFields_of_eq rfl _
  · rintro rfl
    exact exec_pioread_refused hs.idle
  · refine (pioread_toGate hs hn).endsAs fun t h => ?_
    have hopen : ComesTo t (s.restarted.didPolls (k + 1)) (memReadBurst Config.raData n ++ []) :=
      h.loop_exit (hp.of_inputs rfl)
    exact (hopen.burst (by decide) hn).done
  · exact (pioread_toGate hs hn).endsAs fun _ h => h.loop_fail (hp.of_inputs rfl)
  · exact (pioread_toGate hs hn).endsAs fun _ h => h.loop_timeout (hp.of_inputs rfl)

/-! ### RDSECT to its end (R236, R238) -/

/-- With no sector left the sector loop ends (R236). -/
theorem ComesTo.sectorsEnd {s a : State} {rest : List SeqOp} (h : ComesTo s a (.sectTop :: rest)) (hrem : a.sectRem = 0#9) :
    ComesTo s a rest := h.line ⟨rfl, rfl⟩ fun _ => if_pos hrem

/-- Settles O34: the ready wait and the writes, then the sectors, which run `SECT_REM` down to 0 and so end the loop. -/
theorem rdsectRuns : Obligations.RdsectRuns := by
  intro s dev lba count k gates hs hw hp hready hlen
  refine (rdsect_toSectors hs hw hp).endsAs fun t h => ?_
  obtain ⟨-, hmax, -⟩ := wellFormed_rdsect_iff.mp hw
  have hrem : ((s.restarted.didPolls (k + 1)).didSectorSetup dev lba count).sectRem.toNat = gates.length :=
    (setWidth_count_toNat hmax).trans hlen.symm
  exact ((h.sectors gates hready hrem.ge).sectorsEnd (State.didSectors_sectRem_zero hrem)).done

end Sys2Proof.Machine

namespace Sys2Proof.Machine

/-! Proof of the statement on PACKET: the set-up, the data-request gate, the packet of six words and the dummy read (R260 to
R263). -/

/-- PACKET's word is its operation code, its device and its byte count limit, all else zero (R102). -/
theorem packetWord_eq_pack (dev : BitVec 1) (limit : BitVec 16) :
    0#32 ++ (limit ++ (0#6 ++ (0#1 ++ (0#4 ++ (dev ++ 0xA#4))))) = h64Pack 0xA#4 ⟨dev, 0, 0, 0, limit, 0⟩ := rfl

/-- A CDB's instruction, where its byte 0 is one in scope, only forwards that CDB (R115). -/
theorem exec_eq_forwardPacket {cdb : Cdb} {i : Instr} (h : decode (.cdb12 cdb) = .ok i) (s : State) :
    exec i s = forwardPacket cdb s := by
  obtain ⟨op, body⟩ := cdb
  simp only [decode, decodeCdb] at h
  split at h
  case isTrue hop => cases h; cases hop; rfl
  split at h
  case isTrue hop => cases h; cases hop; rfl
  split at h
  case isTrue hop => cases h; cases hop; rfl
  case isFalse => cases h

/-- The engine forwards every CDB alike, whatever its byte 0 (R115, R265). -/
theorem runPacket_eq_forwardPacket (cdb : Cdb) (s : State) : runPacket cdb s = forwardPacket cdb s := by
  cases hd : decode (.cdb12 cdb) with
  | ok i => exact (runPacket_of_decode hd s).trans (exec_eq_forwardPacket hd s)
  | error e => simp [runPacket, hd]

namespace ComesTo

variable {s a : State} {rest : List SeqOp}

/-- A write burst of at least one word (R79). -/
theorem writeBurst {ra : BitVec 4} {ws : List BusWord} (h : ComesTo s a (memWriteBurst ra ws ++ rest))
    (hra : isEnumerator ra = true) (hws : ws ≠ []) : ComesTo s (a.didWrite ra ws) rest :=
  h.next ⟨rfl, rfl⟩ fun _ hf => leads_memWriteBurst hf hra hws rfl

/-- A read whose sample no later line uses (R76, R263). -/
theorem dummyRead {ra : BitVec 4} (h : ComesTo s a (memRead ra ++ rest)) (hra : isEnumerator ra = true) :
    ComesTo s (a.didRead ra) rest :=
  h.next ⟨rfl, rfl⟩ fun _ hf => (leads_memRead hf hra rfl).weaken

/-- The packet: the call, then one burst of the six packet words to Data (R262). -/
theorem sendPacket {cdb : Cdb} (h : ComesTo s a (.sendPacket cdb :: rest)) :
    ComesTo s (a.didWrite Config.raData (packetWords cdb)) rest := by
  have hcalled : ComesTo s a (memWriteBurst Config.raData (packetWords cdb) ++ rest) :=
    h.line ⟨rfl, rfl⟩ fun _ => (runPacket_eq_forwardPacket cdb _).trans (callProc_busy _ rfl)
  exact hcalled.writeBurst (by decide) (by simp [packetWords])

/-- PACKET after its gate: the packet, the dummy Alternate Status read, `return OK` (R262, R263). -/
theorem packetTransfer_done {cdb : Cdb} (h : ComesTo s a (packetTransfer cdb)) :
    LeadsTo Loose.any s (((a.didWrite Config.raData (packetWords cdb)).didRead Config.raAltStatus).ended .ok) := by
  rw [packetTransfer, ← List.append_nil (memRead Config.raAltStatus)] at h
  exact (h.sendPacket.dummyRead (by decide)).done

end ComesTo

/-- Settles O37: the word, then the set-up, which draws no sample, and the gate by each of its ends, the good one with the packet
and the dummy read after it. -/
theorem packetRuns : Obligations.PacketRuns := by
  refine ⟨fun dev limit cdb => ?_, fun s dev limit cdb hs => ?_⟩
  · rw [packetWord_eq_pack, decode_h64Pack]
    exact onlyFields_of_eq rfl _
  have hgate : Brings (.packet dev limit cdb) s (s.didPacketSetup dev limit) (.pollStart .drq :: packetTransfer cdb) :=
    packet_toGate hs dev limit cdb
  have hinputs : s.SameInputs (s.didPacketSetup dev limit) := (didPacketSetup_inputs s dev limit).left
  refine ⟨fun k hp => ?_, fun k hp => ?_, fun polls hp => ?_⟩
  · exact hgate.endsAs fun _ h => (h.loop_exit (hp.of_inputs hinputs)).packetTransfer_done
  · exact hgate.endsAs fun _ h => h.loop_fail (hp.of_inputs hinputs)
  · exact hgate.endsAs fun _ h => h.loop_timeout (hp.of_inputs hinputs)

end Sys2Proof.Machine

namespace Sys2Proof.Machine

/-! Proofs of the statements on the identify decoder: each accessor as arithmetic on the words of the array (R280 to R321), the
checksum that sees every bit flip outside its signature (R312), and RETIME (R320). -/

/-! ### Words, their bytes and their bits (R80, R280) -/

theorem Memory.readWord_low (m : Memory) (i : Nat) : (m.readWord i).extractLsb' 0 8 = m.readByte (2 * i) :=
  BitVec.extractLsb'_append_eq_right

theorem Memory.readWord_high (m : Memory) (i : Nat) : (m.readWord i).extractLsb' 8 8 = m.readByte (2 * i + 1) :=
  BitVec.extractLsb'_append_eq_left

/-- A bit field of a word is a digit of its value. -/
theorem bitField_toNat (w : BusWord) (start len : Nat) :
    (w.extractLsb' start len).toNat = w.toNat / 2 ^ start % 2 ^ len := by
  rw [BitVec.extractLsb'_toNat, Nat.shiftRight_eq_div_pow]

theorem lowField_toNat (w : BusWord) (len : Nat) : (w.extractLsb' 0 len).toNat = w.toNat % 2 ^ len := by
  rw [bitField_toNat, Nat.pow_zero, Nat.div_one]

/-- A bit of the array is a binary digit of its word. -/
theorem idBit_eq_decide (id : Memory) (i b : Nat) : idBit id i b = decide ((id.readWord i).toNat / 2 ^ b % 2 = 1) := by
  rw [idBit, ← BitVec.testBit_toNat, Nat.testBit_eq_decide_div_mod_eq]

/-- An instruction that tells a value changes the answer alone (R280). -/
theorem exec_of_tells {i : Instr} {v v' : IdValue} {s : State} (hi : exec i s = tell v s) (hv : v = v') :
    exec i s = .next { s with answer := v' } := by
  rw [hi, hv, tell]

/-! ### Word 0 and the capacity (R282 to R285, R316, R321) -/

theorem deviceClass_toNat (id : Memory) : (deviceClass id).toNat = (id.readWord 0).toNat / 2 ^ 14 := by
  have hlt := (id.readWord 0).isLt
  rw [deviceClass, bitField_toNat]
  omega

theorem isAtapi_eq_decide (id : Memory) : isAtapi id = decide ((id.readWord 0).toNat / 2 ^ 14 = 2) := by
  rw [← deviceClass_toNat, isAtapi, Bool.beq_eq_decide_eq]
  exact decide_eq_decide.mpr BitVec.toNat_inj.symm

theorem ofNat?_packetSize (id : Memory) : IdValue.ofNat? (packetSize id) =
    if (id.readWord 0).toNat % 4 = 0 then .num 12 else if (id.readWord 0).toNat % 4 = 1 then .num 16 else .absent := by
  rw [packetSize, lowField_toNat]
  split <;> simp_all [IdValue.ofNat?]

theorem capacitySectors_toNat (id : Memory) :
    (capacitySectors id).toNat = (id.readWord 61).toNat * 65536 + (id.readWord 60).toNat := by
  rw [capacitySectors, BitVec.toNat_append, ← Nat.shiftLeft_add_eq_or_of_lt (id.readWord 60).isLt, Nat.shiftLeft_eq]

/-- Settles O52: the value of each accessor, by its own rule. -/
theorem identifyWordZero : Obligations.IdentifyWordZero := by
  rintro s w rfl
  exact ⟨exec_of_tells rfl (congrArg _ (deviceClass_toNat _)), exec_of_tells rfl (congrArg _ (isAtapi_eq_decide _)),
    exec_of_tells rfl (congrArg _ (idBit_eq_decide _ 0 7)), exec_of_tells rfl (congrArg _ (idBit_eq_decide _ 0 2)),
    exec_of_tells rfl (ofNat?_packetSize _), exec_of_tells rfl (congrArg _ (capacitySectors_toNat _))⟩

/-! ### The strings (R290 to R293) -/

theorem stringBytes_length (id : Memory) (first n : Nat) : (stringBytes id first n).length = 2 * n := by
  induction n generalizing first with
  | zero => rfl
  | succ n ih =>
    simp only [stringBytes, List.length_cons, ih]
    omega

/-- Characters `2k` and `2k + 1` are the high and the low byte of word `k` (R290). -/
theorem stringBytes_getElem? (id : Memory) {first n k : Nat} (hk : k < n) :
    (stringBytes id first n)[2 * k]? = some (id.readByte (2 * (first + k) + 1)) ∧
      (stringBytes id first n)[2 * k + 1]? = some (id.readByte (2 * (first + k))) := by
  induction n generalizing first k with
  | zero => exact absurd hk (Nat.not_lt_zero k)
  | succ n ih =>
    cases k with
    | zero => exact ⟨congrArg some (id.readWord_high first), congrArg some (id.readWord_low first)⟩
    | succ k =>
      rw [Nat.add_comm k 1, ← Nat.add_assoc first, Nat.mul_add, Nat.add_comm (2 * 1)]
      exact ih (Nat.lt_of_succ_lt_succ hk)

theorem idString_length (id : Memory) (first n : Nat) : (idString id first n).length = 2 * n + 1 := by
  rw [idString, List.length_append, stringBytes_length, List.length_singleton]

/-- The NUL stands after the characters (R290). -/
theorem idString_nul (id : Memory) (first n : Nat) : (idString id first n)[2 * n]? = some 0#8 := by
  rw [idString, ← stringBytes_length id first n, List.getElem?_concat_length]

theorem idString_getElem? (id : Memory) {first n k : Nat} (hk : k < n) :
    (idString id first n)[2 * k]? = some (id.readByte (2 * (first + k) + 1)) ∧
      (idString id first n)[2 * k + 1]? = some (id.readByte (2 * (first + k))) := by
  have hlen := stringBytes_length id first n
  rw [idString, List.getElem?_append_left (by omega), List.getElem?_append_left (by omega)]
  exact stringBytes_getElem? id hk

/-- The three string accessors, each with its words (R291 to R293). -/
theorem exec_idString {i : Instr} {first n : Nat} (s : State) (h : (i, first, n) ∈
    [(Instr.idSerialNumber, 10, 10), (.idFirmwareRevision, 23, 4), (.idModelNumber, 27, 20)]) :
    exec i s = .next { s with answer := .text (idString s.idArr first n) } := by
  simp only [List.mem_cons, Prod.mk.injEq, List.not_mem_nil, or_false] at h
  rcases h with ⟨rfl, rfl, rfl⟩ | ⟨rfl, rfl, rfl⟩ | ⟨rfl, rfl, rfl⟩ <;> rfl

/-- Settles O53: the text is `idString` of the accessor's words. -/
theorem identifyStrings : Obligations.IdentifyStrings :=
  fun s _ first n h => ⟨idString s.idArr first n, exec_idString s h, idString_length _ first n, idString_nul _ first n,
    fun _ hk => idString_getElem? _ hk⟩

/-! ### The timing words (R295 to R300) -/

theorem gated53_valid {α : Type} {id : Memory} (h : idBit id 53 1 = true) (v : α) : gated53 id v = some v := if_pos h

theorem gated53_invalid {α : Type} {id : Memory} (h : idBit id 53 1 = false) (v : α) : gated53 id v = none := by
  rw [gated53, h, if_neg Bool.false_ne_true]

/-- A field that word 53 validates, as the host is told it. -/
theorem ofNat?_gated53_valid {n : Nat} {id : Memory} (h : idBit id 53 1 = true) (v : BitVec n) :
    IdValue.ofNat? ((gated53 id v).map BitVec.toNat) = .num v.toNat := by
  rw [gated53_valid h]
  rfl

theorem ofNat?_gated53_invalid {n : Nat} {id : Memory} (h : idBit id 53 1 = false) (v : BitVec n) :
    IdValue.ofNat? ((gated53 id v).map BitVec.toNat) = .absent := by
  rw [gated53_invalid h]
  rfl

/-- Settles O54: the flags are the array's bits, and the three words pass the gate of word 53. -/
theorem identifyTiming : Obligations.IdentifyTiming := by
  refine fun s => ⟨exec_of_tells rfl (congrArg _ (lowField_toNat _ 3)), rfl, rfl, fun hvalid => ?_, fun hinvalid => ?_⟩
  · have hmodes := (ofNat?_gated53_valid hvalid _).trans (congrArg _ (lowField_toNat (s.idArr.readWord 64) 2))
    exact ⟨exec_of_tells rfl hmodes, exec_of_tells rfl (ofNat?_gated53_valid hvalid _),
      exec_of_tells rfl (ofNat?_gated53_valid hvalid _)⟩
  · exact ⟨exec_of_tells rfl (ofNat?_gated53_invalid hinvalid _), exec_of_tells rfl (ofNat?_gated53_invalid hinvalid _),
      exec_of_tells rfl (ofNat?_gated53_invalid hinvalid _)⟩

/-! ### Queue depth and major version (R301, R302) -/

theorem queueDepth_eq (id : Memory) : queueDepth id = (id.readWord 75).toNat % 32 + 1 :=
  congrArg (· + 1) (lowField_toNat _ 5)

theorem highestSetBit_zero (n : Nat) : highestSetBit 0#16 n = none := by
  induction n with
  | zero => rfl
  | succ n ih => rw [highestSetBit, BitVec.getLsbD_zero, if_neg Bool.false_ne_true, ih]

/-- A set bit with no set bit above it is the highest, from wherever above it the search begins. -/
theorem highestSetBit_eq_some {w : BusWord} {i n : Nat} (hi : i < n) (hset : w.getLsbD i = true)
    (habove : ∀ j, i < j → w.getLsbD j = false) : highestSetBit w n = some i := by
  induction n with
  | zero => exact absurd hi (Nat.not_lt_zero i)
  | succ n ih =>
    rcases Nat.lt_succ_iff_lt_or_eq.mp hi with hlt | rfl
    · rw [highestSetBit, habove n hlt, if_neg Bool.false_ne_true, ih hlt]
    · exact if_pos hset

/-- Settles O55: a set bit of word 80 is below bit 16, where the search for the highest begins. -/
theorem identifyNumbers : Obligations.IdentifyNumbers := by
  refine fun s => ⟨exec_of_tells rfl (congrArg _ (queueDepth_eq _)), fun hzero => ?_, fun i hset habove => ?_⟩
  · have hnone : majorVersion s.idArr = none := by rw [majorVersion, hzero, highestSetBit_zero]
    exact exec_of_tells rfl (congrArg IdValue.ofNat? hnone)
  · have hsome : majorVersion s.idArr = some i := highestSetBit_eq_some (BitVec.lt_of_getLsbD hset) hset habove
    exact exec_of_tells rfl (congrArg IdValue.ofNat? hsome)

/-! ### The feature words (R305) -/

/-- Bits 15:14 of a word are 0b01. -/
theorem topBits_eq_one_iff (w : BusWord) :
    w.extractLsb' 14 2 = 0b01#2 ↔ w.getLsbD 15 = false ∧ w.getLsbD 14 = true := by
  rw [← BitVec.toNat_inj, bitField_toNat, ← BitVec.testBit_toNat, ← BitVec.testBit_toNat,
    Nat.testBit_eq_decide_div_mod_eq, Nat.testBit_eq_decide_div_mod_eq, decide_eq_false_iff_not, decide_eq_true_eq]
  change _ = 1 ↔ _
  omega

/-- Word 82 is always valid, the others where their bits 15:14 are 0b01 (R305). -/
theorem featureValid_iff (id : Memory) (w : FeatureWord) : featureValid id w = true ↔ featureIndex w = 82 ∨
    ((id.readWord (featureIndex w)).getLsbD 15 = false ∧ (id.readWord (featureIndex w)).getLsbD 14 = true) := by
  rw [← topBits_eq_one_iff]
  cases w <;> simp [featureValid, featureIndex]

theorem feature_valid {id : Memory} {w : FeatureWord} (h : featureValid id w = true) (b : BitVec 4) :
    feature id w b = some (idBit id (featureIndex w) b.toNat) := if_pos h

theorem feature_invalid {id : Memory} {w : FeatureWord} (h : ¬featureValid id w = true) (b : BitVec 4) :
    feature id w b = none := if_neg h

/-- The index the statement pairs with a feature word is that of the model. -/
theorem eq_featureIndex_of_mem {w : FeatureWord} {n : Nat}
    (h : (w, n) ∈ [(FeatureWord.w82, 82), (.w83, 83), (.w84, 84), (.w119, 119)]) : n = featureIndex w := by
  simp only [List.mem_cons, Prod.mk.injEq, List.not_mem_nil, or_false] at h
  rcases h with ⟨rfl, rfl⟩ | ⟨rfl, rfl⟩ | ⟨rfl, rfl⟩ | ⟨rfl, rfl⟩ <;> rfl

/-- Settles O56, by whether the feature word is valid. -/
theorem identifyFeature : Obligations.IdentifyFeature := by
  intro s w b n hmem
  obtain rfl := eq_featureIndex_of_mem hmem
  refine ⟨fun hvalid => ?_, fun hgated hbits => ?_⟩
  · exact exec_of_tells rfl (congrArg IdValue.ofBool? (feature_valid ((featureValid_iff _ w).mpr hvalid) b))
  · have hinvalid : ¬featureValid s.idArr w = true := fun h => ((featureValid_iff _ w).mp h).elim hgated hbits
    exact exec_of_tells rfl (congrArg IdValue.ofBool? (feature_invalid hinvalid b))

/-! ### The checksum (R310, R312) -/

/-- The bytes of the first `n` words are the first `2n` bytes. -/
theorem byteSumUpTo_eq_sum (id : Memory) (n : Nat) :
    byteSumUpTo id n = ((List.range (2 * n)).map fun a => (id.readByte a).toNat).sum := by
  induction n with
  | zero => rfl
  | succ n ih =>
    rw [byteSumUpTo, ih, Memory.readWord_low, Memory.readWord_high, Nat.mul_succ, List.sum_range_succ, List.sum_range_succ]

theorem byteSum_eq (id : Memory) : byteSum id = ((List.range 512).map fun a => (id.readByte a).toNat).sum % 256 := by
  rw [byteSum, byteSumUpTo_eq_sum]
  rfl

theorem checksumValid_eq_decide (id : Memory) : checksumValid id = decide (id.readByte 510 = 0xA5#8) := by
  rw [checksumValid, Memory.readWord_low, Bool.beq_eq_decide_eq]

theorem checksumSumOk_unsigned {id : Memory} (h : id.readByte 510 ≠ 0xA5#8) : checksumSumOk id = none := by
  rw [checksumSumOk, checksumValid_eq_decide, decide_eq_false h, if_neg Bool.false_ne_true]

theorem checksumSumOk_signed {id : Memory} (h : id.readByte 510 = 0xA5#8) :
    checksumSumOk id = some (decide (((List.range 512).map fun a => (id.readByte a).toNat).sum % 256 = 0)) := by
  rw [checksumSumOk, checksumValid_eq_decide, decide_eq_true h, if_pos rfl, byteSum_eq, Bool.beq_eq_decide_eq]

/-- Settles O57: the signature is byte 510, and the bytes of the 256 words are the 512 bytes. -/
theorem identifyChecksum : Obligations.IdentifyChecksum :=
  fun _ => ⟨exec_of_tells rfl (congrArg _ (checksumValid_eq_decide _)),
    fun h => exec_of_tells rfl (congrArg IdValue.ofBool? (checksumSumOk_unsigned h)),
    fun h => exec_of_tells rfl (congrArg IdValue.ofBool? (checksumSumOk_signed h))⟩

/-! ### One flipped bit (R312) -/

/-- The array with bit `b` of word `i` flipped. -/
abbrev Memory.flipBit (m : Memory) (i b : Nat) : Memory := m.writeWord i (m.readWord i ^^^ (1#16 <<< b))

/-- A bit of a word lies in its low byte or in its high byte, and not in both. -/
theorem bit_byte_eq_zero_iff : ∀ b < 16,
    ((1#16 <<< b).extractLsb' 0 8 = 0#8 ↔ b / 8 ≠ 0) ∧ ((1#16 <<< b).extractLsb' 8 8 = 0#8 ↔ b / 8 ≠ 1) := by
  decide

/-- Flipping one bit changes the byte the bit lies in and no other. -/
theorem Memory.readByte_flipBit_eq_iff {m : Memory} {b : Nat} (hwf : m.wf) (hb : b < 16) (i a : Nat) :
    (m.flipBit i b).readByte a = m.readByte a ↔ a ≠ 2 * i + b / 8 := by
  obtain ⟨hlow, hhigh⟩ := bit_byte_eq_zero_iff b hb
  have hword := Memory.readWord_writeWord_same m i (m.readWord i ^^^ (1#16 <<< b)) hwf
  have hxor (x y : Byte) : x ^^^ y = x ↔ y = 0#8 := by
    rw [← BitVec.xor_right_inj (x := y) x, BitVec.xor_zero]
  by_cases h0 : a = 2 * i
  · subst h0
    rw [← Memory.readWord_low, hword, BitVec.extractLsb'_xor, Memory.readWord_low, hxor, hlow]
    omega
  by_cases h1 : a = 2 * i + 1
  · subst h1
    rw [← Memory.readWord_high, hword, BitVec.extractLsb'_xor, Memory.readWord_high, hxor, hhigh]
    omega
  · refine iff_of_true (Memory.readByte_writeWord_other _ _ _ _ h0 h1 hwf) ?_
    omega

/-- Two rows of bytes that differ in exactly one place differ in their sums modulo 256. -/
theorem sum_bytes_mod_ne {f g : Nat → Byte} {n a : Nat} (ha : a < n) (h : ∀ x, f x = g x ↔ x ≠ a) :
    ((List.range n).map fun x => (f x).toNat).sum % 256 ≠ ((List.range n).map fun x => (g x).toNat).sum % 256 := by
  have hmem : a ∈ Finset.range n := Finset.mem_range.mpr ha
  have hrest : ∑ x ∈ (Finset.range n).erase a, (f x).toNat = ∑ x ∈ (Finset.range n).erase a, (g x).toNat :=
    Finset.sum_congr rfl fun x hx => congrArg BitVec.toNat ((h x).mpr (Finset.ne_of_mem_erase hx))
  have hplace : (f a).toNat ≠ (g a).toNat := fun heq => (h a).mp (BitVec.eq_of_toNat_eq heq) rfl
  have hf := (f a).isLt
  have hg := (g a).isLt
  change (∑ x ∈ Finset.range n, (f x).toNat) % 256 ≠ (∑ x ∈ Finset.range n, (g x).toNat) % 256
  rw [← Finset.add_sum_erase _ _ hmem, ← Finset.add_sum_erase _ _ hmem, hrest]
  omega

/-- A sum check that passes has the signature, and its bytes sum to 0 modulo 256 (R310, R312). -/
theorem checksumSumOk_passes {id : Memory} (h : checksumSumOk id = some true) :
    id.readByte 510 = 0xA5#8 ∧ ((List.range 512).map fun a => (id.readByte a).toNat).sum % 256 = 0 := by
  by_cases hsig : id.readByte 510 = 0xA5#8
  · rw [checksumSumOk_signed hsig] at h
    exact ⟨hsig, of_decide_eq_true (Option.some.inj h)⟩
  · rw [checksumSumOk_unsigned hsig] at h
    cases h

/-- Settles O58: the flip changes one byte, which is not the signature, and so the sum modulo 256. -/
theorem checksumSeesEveryBit : Obligations.ChecksumSeesEveryBit := by
  intro id i b hwf hok hi hb hsigned
  obtain ⟨hsig, hsum⟩ := checksumSumOk_passes hok
  have hbytes := Memory.readByte_flipBit_eq_iff hwf hb i
  have hsig' : (id.flipBit i b).readByte 510 = 0xA5#8 := ((hbytes 510).mpr (by omega)).trans hsig
  have hdiffer := sum_bytes_mod_ne (n := 512) (by omega) hbytes
  rw [hsum] at hdiffer
  rw [checksumSumOk_signed hsig', decide_eq_false hdiffer]

/-! ### RETIME (R320) -/

/-- No advanced mode is supported (R298). -/
theorem modeBits_eq_zero_iff (w : BusWord) : w.extractLsb' 0 2 = 0#2 ↔ w.toNat % 4 = 0 := by
  rw [← BitVec.toNat_inj, lowField_toNat]
  rfl

/-- RETIME's condition: the timing words are valid and an advanced mode is supported (R320). -/
theorem retimeCycleTime_advanced {id : Memory} (hvalid : idBit id 53 1 = true) (hmodes : (id.readWord 64).toNat % 4 ≠ 0) :
    retimeCycleTime id = some ((id.readWord 68).setWidth 32) := by
  simp [retimeCycleTime, hvalid, modeBits_eq_zero_iff, hmodes]

theorem retimeCycleTime_plain {id : Memory} (h : idBit id 53 1 = false ∨ (id.readWord 64).toNat % 4 = 0) :
    retimeCycleTime id = none := by
  rcases h with hinvalid | hmodes
  · simp [retimeCycleTime, hinvalid]
  · simp [retimeCycleTime, (modeBits_eq_zero_iff _).mpr hmodes]

theorem runRequest_retime_some {s : State} {ct : BitVec 32} (h : retimeCycleTime s.idArr = some ct) :
    runRequest .retime s = exec (.configure ct) s := by
  simp [runRequest, h]

theorem runRequest_retime_none {s : State} (h : retimeCycleTime s.idArr = none) : runRequest .retime s = .next s := by
  simp [runRequest, h]

/-- Settles O59: the request is taken, and RETIME has a cycle time or none; a word 68 of 16 bits fits CONFIGURE's operand. -/
theorem retimeRuns : Obligations.RetimeRuns := by
  intro s more hr ht ho hq
  rw [step_request hr ht ho hq]
  refine ⟨fun hvalid hmodes => ⟨(s.idArr.readWord 68).setWidth 32, ?_, ?_⟩, fun hplain => ?_⟩
  · exact BitVec.toNat_setWidth_of_le (by decide)
  · exact runRequest_retime_some (s := { s with turn := .rdLane, port := more }) (retimeCycleTime_advanced hvalid hmodes)
  · exact runRequest_retime_none (s := { s with turn := .rdLane, port := more }) (retimeCycleTime_plain hplain)

end Sys2Proof.Machine

namespace Sys2Proof.Machine

/-! Proof of the statement on FAULTED and on power-on reset (R333, R340, R360). -/

/-- Power-on reset comes before every agent's turn, whatever the engine is doing (R360). -/
theorem step_powerOnReset {s : State} (hr : s.por = true) : step s = .next s.powerOnReset := if_pos hr

/-- No agent takes a turn while FAULTED (R333, R340). -/
theorem step_faulted {s : State} (hr : s.por = false) (ho : s.opstate = .faulted) : step s = .fault .engineFaulted := by
  simp [step, agentTurn, hr, ho]

/-- Settles O21, by the rule for FAULTED and the rule for a requested power-on reset. -/
theorem faultedUntilPowerOn : Obligations.FaultedUntilPowerOn :=
  ⟨fun _ ho hr => step_faulted hr ho, fun _ hr => step_powerOnReset hr⟩

end Sys2Proof.Machine

namespace Sys2Proof.Machine

/-! Proofs of the statements on reset and on the engine before its first CONFIGURE: the reset column of R20 at every power-on
reset, the way out of FAULTED (R340, R360), and the hang of an access whose lane has no clock (R366). -/

/-! ### Power-on reset (R360) -/

/-- Power-on reset puts every field at its reset value, whatever the state it is taken in. -/
theorem State.powerOnReset_atReset (s : State) : s.powerOnReset.AtReset where
  div := rfl
  enables := ⟨rfl, rfl⟩
  counters := ⟨rfl, rfl⟩
  fifos := ⟨rfl, rfl, rfl⟩
  flags := ⟨rfl, rfl⟩
  phases := ⟨rfl, rfl⟩
  address := ⟨rfl, rfl⟩
  strobes := ⟨rfl, rfl⟩
  released := ⟨rfl, rfl⟩
  idle := rfl
  result := rfl

/-- Settles O20: the reset state is its own power-on reset, and without a requested one FAULTED answers with a fault. -/
theorem resetValues : Obligations.ResetValues := by
  refine ⟨State.reset.powerOnReset_atReset, fun s hr => ⟨_, step_powerOnReset hr, s.powerOnReset_atReset⟩,
    fun s t ho h => ?_⟩
  rcases step_cases h with ⟨hr, -⟩ | ⟨-, hne, -⟩
  · exact hr
  · exact absurd ho hne

/-! ### Strobe pulses come from the lanes alone (R20, R153, R158) -/

/-- From `s` to `t` the record of events grows, by no strobe pulse. -/
def State.NoPulse (s t : State) : Prop := ∃ extra, t.trace = s.trace ++ extra ∧ ∀ e ∈ extra, e.isStrobe = false

theorem State.NoPulse.of_same {s t : State} (h : t.trace = s.trace) : s.NoPulse t := ⟨[], by simp [h], by simp⟩

theorem State.NoPulse.of_event {s t : State} {e : BusEvent} (he : e.isStrobe = false) (h : t.trace = s.trace ++ [e]) :
    s.NoPulse t := ⟨[e], h, by simpa using he⟩

theorem State.NoPulse.trans {s t u : State} (h : s.NoPulse t) (h' : t.NoPulse u) : s.NoPulse u := by
  obtain ⟨xs, hxs, hx⟩ := h
  obtain ⟨ys, hys, hy⟩ := h'
  exact ⟨xs ++ ys, by simp [hys, hxs], fun e he => (List.mem_append.mp he).elim (hx e) (hy e)⟩

/-- The sequencer's turn adds no strobe pulse: it records addresses, reset levels and delays. -/
theorem SeqCase.noPulse {s t : State} (h : SeqCase s t) : s.NoPulse t := by
  cases h with
  | setAddr _ ra _ _ _ _ h => subst h; exact .of_event (e := addrEvent ra) rfl rfl
  | setRst _ _ level _ h => subst h; exact .of_event (e := .rst level) rfl rfl
  | delay _ _ ns _ h => subst h; exact .of_event (e := .wait ns) rfl rfl
  | _ => rename_i h; subst h; exact .of_same rfl

/-- With both lanes disabled a step adds no strobe pulse. -/
theorem step_noPulse {s t : State} (hrd : s.enRd = false) (hwr : s.enWr = false) (h : step s = .next t) : s.NoPulse t := by
  rcases step_cases h with ⟨-, rfl⟩ | ⟨-, -, ⟨-, hseq⟩ | ⟨-, hlane⟩ | ⟨-, hlane⟩⟩
  · exact .of_same (State.powerOnReset_trace s)
  · exact (seq_cases hseq).noPulse
  · cases (rdLaneTurn_disabled (s := { s with turn := .wrLane }) hrd).symm.trans hlane
    exact .of_same rfl
  · cases (wrLaneTurn_disabled (s := { s with turn := .sequencer }) hwr).symm.trans hlane
    exact .of_same rfl

/-! ### The way to the first access (R75, R366) -/

/-- `STALLED[l]` (R29). -/
def State.stalled (s : State) (l : Lane) : Bool :=
  match l with
  | .rd => s.stalledRd
  | .wr => s.stalledWr

/-- Lines that come, with no lane's help, to a wait for a lane's completion flag that is clear: those of an operation up to the
wait of its first access. `polls` is `POLLCNT`, `stalled` the flags, the index the access under way. -/
inductive HeadsToWait (polls : Nat) (stalled : Lane → Bool) : Access → List SeqOp → Prop
  | setRst (level : Bool) {rest : List SeqOp} (h : HeadsToWait polls stalled .none rest) :
      HeadsToWait polls stalled .none (.setRst level :: rest)
  | delay (ns : Nat) {rest : List SeqOp} (h : HeadsToWait polls stalled .none rest) :
      HeadsToWait polls stalled .none (.delay ns :: rest)
  | pollStart (k : PollLoop) (rest : List SeqOp) : HeadsToWait polls stalled .none (.pollStart k :: rest)
  | pollTop (k : PollLoop) (rest : List SeqOp) (hp : polls = 0) : HeadsToWait polls stalled .none (.pollTop k :: rest)
  | setAddr {ra : BitVec 4} {rest : List SeqOp} (hra : isEnumerator ra = true)
      (h : HeadsToWait polls stalled .addressed rest) : HeadsToWait polls stalled .none (.setAddr ra :: rest)
  | handRd (w : BitVec 32) {rest : List SeqOp} (h : HeadsToWait polls stalled .reading rest) :
      HeadsToWait polls stalled .addressed (.handRd w :: rest)
  | handWr (w : BusWord) {rest : List SeqOp} (h : HeadsToWait polls stalled .writing rest) :
      HeadsToWait polls stalled .addressed (.handWr w :: rest)
  | clear (a : Access) (l : Lane) (rest : List SeqOp) : HeadsToWait polls stalled a (.clearStalled l :: .await l :: rest)
  | await (a : Access) (l : Lane) (rest : List SeqOp) (hl : stalled l = false) :
      HeadsToWait polls stalled a (.await l :: rest)

/-- Such lines do not end before the wait. -/
theorem HeadsToWait.ne_nil {polls : Nat} {stalled : Lane → Bool} {a : Access} {code : List SeqOp}
    (h : HeadsToWait polls stalled a code) : code ≠ [] := by
  cases h <;> exact List.cons_ne_nil _ _

section FirstAccess
variable {polls : Nat} {stalled : Lane → Bool} {ra : BitVec 4}

theorem HeadsToWait.memRead (hra : isEnumerator ra = true) (rest : List SeqOp) :
    HeadsToWait polls stalled .none (memRead ra ++ rest) := .setAddr hra (.handRd _ (.clear ..))

theorem HeadsToWait.memWrite (hra : isEnumerator ra = true) (v : BusWord) (rest : List SeqOp) :
    HeadsToWait polls stalled .none (memWrite ra v ++ rest) := .setAddr hra (.handWr _ (.clear ..))

end FirstAccess

/-- An engine never configured that accesses the bus: both lanes disabled, lines that head to the wait of an access. -/
structure State.Hangs (s : State) (code : List SeqOp) : Prop where
  running : s.por = false
  enRd : s.enRd = false
  enWr : s.enWr = false
  limit : s.params.pollLimit ≠ some 0
  lanesIdle : s.access = .none → s.lanesIdle = true
  heads : HeadsToWait s.pollCnt s.stalled s.access code

/-- The line at the head of the position leads on towards the wait, or is that wait and stays. -/
theorem State.Hangs.runLine {s : State} {op : SeqOp} {rest : List SeqOp} (hs : s.Hangs (op :: rest))
    (ho : s.opstate = .busy rest) :
    ∃ t code, runLine op rest s = .next t ∧ t.opstate = .busy code ∧ t.Hangs code := by
  have hheads := hs.heads
  generalize ha : s.access = a at hheads
  cases hheads with
  | setRst level h => exact ⟨_, _, rfl, ho, { hs with heads := ha ▸ h }⟩
  | delay ns h => exact ⟨_, _, rfl, ho, { hs with heads := ha ▸ h }⟩
  | pollStart k => exact ⟨_, _, rfl, rfl, { hs with heads := ha ▸ .pollTop k rest rfl }⟩
  | pollTop k _ hp =>
    exact ⟨_, _, if_neg (hp ▸ hs.limit), rfl, { hs with heads := ha ▸ .memRead (by decide) _ }⟩
  | setAddr hra h =>
    exact ⟨_, _, (runCode_regAddr s hra).trans (setAddr_of_idle _ ha (hs.lanesIdle ha)), ho,
      { hs with lanesIdle := nofun, heads := h }⟩
  | handRd w h =>
    cases hf : isFull s.params s.inqRd with
    | true => exact ⟨_, _, if_pos hf, rfl, { hs with }⟩
    | false =>
      refine ⟨{ s with inqRd := s.inqRd ++ [w], access := .reading }, _, ?_, ho,
        { hs with lanesIdle := nofun, heads := h }⟩
      simp [Machine.runLine, hf, pushRd, ha]
  | handWr w h =>
    cases hf : isFull s.params s.inqWr with
    | true => exact ⟨_, _, if_pos hf, rfl, { hs with }⟩
    | false =>
      refine ⟨{ s with inqWr := s.inqWr ++ [w], access := .writing }, _, ?_, ho,
        { hs with lanesIdle := nofun, heads := h }⟩
      simp [Machine.runLine, hf, pushWr, ha]
  | clear _ l more =>
    cases l with
    | rd => exact ⟨_, _, rfl, ho, { hs with heads := .await _ .rd more rfl }⟩
    | wr => exact ⟨_, _, rfl, ho, { hs with heads := .await _ .wr more rfl }⟩
  | await _ l _ hl =>
    cases l with
    | rd => exact ⟨_, _, if_neg (ne_true_of_eq_false hl), rfl, { hs with }⟩
    | wr => exact ⟨_, _, if_neg (ne_true_of_eq_false hl), rfl, { hs with }⟩

/-- Every agent's turn leaves such an engine as it is: the lanes have no clock, a withheld turn changes nothing, a line leads on
towards the wait. -/
theorem State.Hangs.step {s : State} {code : List SeqOp} (hs : s.Hangs code) (ho : s.opstate = .busy code) :
    ∃ t code, step s = .next t ∧ t.opstate = .busy code ∧ t.Hangs code := by
  have hne : s.opstate ≠ .faulted := by simp [ho]
  cases hturn : s.turn with
  | rdLane =>
    exact ⟨_, _, (step_rdLane_running hs.running hne hturn).trans (rdLaneTurn_disabled hs.enRd), ho, { hs with }⟩
  | wrLane =>
    exact ⟨_, _, (step_wrLane_running hs.running hne hturn).trans (wrLaneTurn_disabled hs.enWr), ho, { hs with }⟩
  | sequencer =>
    rcases pace_cases s.pace with ⟨w, hw⟩ | ⟨hgiven, -⟩
    · exact ⟨_, _, step_withheld hs.running hw hturn ho, ho, { hs with }⟩
    · cases code with
      | nil => exact absurd rfl hs.heads.ne_nil
      | cons op rest =>
        have hline : State.Hangs { s with turn := .rdLane, opstate := .busy rest, pace := s.pace.tail } (op :: rest) :=
          { hs with }
        rw [step_line hs.running hgiven hturn ho]
        exact hline.runLine rfl

/-- After every number of steps such an engine is BUSY, with no strobe pulse added. -/
theorem State.Hangs.run (n : Nat) : ∀ {s : State} {code : List SeqOp}, s.Hangs code → s.opstate = .busy code →
    ∃ u code, Host.Core.run Sys2Proof.core n s = .next u ∧ u.opstate = .busy code ∧ s.NoPulse u := by
  induction n with
  | zero => exact fun _ ho => ⟨_, _, rfl, ho, .of_same rfl⟩
  | succ n ih =>
    intro s code hs ho
    obtain ⟨t, code', hstep, ho', ht⟩ := hs.step ho
    obtain ⟨u, code'', hrun, hu, hquiet⟩ := ih ht ho'
    exact ⟨u, code'', run_succ_iff.mpr ⟨t, hstep, hrun⟩, hu, (step_noPulse hs.enRd hs.enWr hstep).trans hquiet⟩

/-- A host operation that accesses the bus is accepted in IDLE, with lines that head to the wait of its first access (R101). -/
theorem exec_accessesBus {s : State} {i : Instr} (ho : s.opstate = .idle) (hi : accessesBus i = true) :
    ∃ lines e, exec i s = .next { s.begin lines with emitted := e } ∧
      ∀ polls stalled, HeadsToWait polls stalled .none lines := by
  obtain ⟨hw, hkind⟩ := (Bool.and_eq_true _ _).mp hi
  cases i with
  | rdreg ra => exact ⟨_, _, exec_rdreg_accepted ho hw, fun _ _ => .memRead hw _⟩
  | wrreg ra v => exact ⟨_, _, exec_wrreg_accepted v ho hw, fun _ _ => .memWrite hw v []⟩
  | hwreset =>
    exact ⟨_, _, exec_hwreset_accepted ho, fun _ _ => .setRst _ (.delay _ (.setRst _ (.delay _ (.pollStart ..))))⟩
  | devreset dev => exact ⟨_, _, exec_devreset_accepted dev ho, fun _ _ => .memWrite (by decide) _ _⟩
  | isready => exact ⟨_, _, exec_isready_accepted ho, fun _ _ => .memRead (by decide) _⟩
  | pioread n =>
    have hn : n ≠ 0#32 := by simpa [wellFormed] using hw
    exact ⟨_, _, (accept_idle _ ho).trans (if_neg hn), fun _ _ => .pollStart ..⟩
  | rdsect dev lba count => exact ⟨_, _, exec_rdsect_accepted ho hw, fun _ _ => .pollStart ..⟩
  | ident dev idc => exact ⟨_, _, exec_ident_accepted dev idc ho, fun _ _ => .memWrite (by decide) _ _⟩
  | packet dev limit cdb => exact ⟨_, _, exec_packet_accepted dev limit cdb ho, fun _ _ => .memWrite (by decide) _ _⟩
  | _ => cases hkind

/-- Settles O41: the accepted operation heads to a wait on a lane that has no clock. -/
theorem unconfiguredHangs : Obligations.UnconfiguredHangs := by
  intro s i ho hidle hacc hrd hwr hr hlimit hi
  obtain ⟨lines, e, hexec, hheads⟩ := exec_accessesBus ho hi
  have hs : State.Hangs { s.begin lines with emitted := e } lines :=
    { running := hr, enRd := hrd, enWr := hwr, limit := hlimit, lanesIdle := fun _ => hidle
      heads := show HeadsToWait _ _ s.access lines from hacc ▸ hheads _ _ }
  refine ⟨_, hexec, fun n => ?_⟩
  obtain ⟨u, code, hrun, hu, extra, htrace, hquiet⟩ := hs.run n rfl
  exact ⟨u, code, extra, hrun, hu, htrace, hquiet⟩

end Sys2Proof.Machine
